-- ==== Sys2Proof/Word.lean ====
section
/-! DEFINITION. The kinds of number the machine moves (00_scope.md R4). The spec's Word (instruction pointer, saved
instruction pointer, store address register) is an exact integer: nothing wraps, and a value outside 0 to 65535 is
harmless until a store access uses it (10_state.md R11; the spec's decision D1, log entry 1). It is Lean's `Int`. -/

namespace Sys2Proof

/-- A byte: a cell, a byte register, an operand byte (00_scope.md R5, 20_memory.md R40). -/
abbrev Byte := BitVec 8

/-- The 16-bit address operand of an absolute instruction, `hi*256 + lo` (30_encoding.md R73, R75). -/
abbrev Addr := BitVec 16

end Sys2Proof
end

