-- ==== Sys2Proof/Config.lean ====
section
/-! DEFINITION. What is fixed for this hardware (00_scope.md R4). The spec leaves no value free, so there is no
opaque constant here. The opcode map, which R77 asks a model to hold as configuration, is the one table
`opcodeByte` of Decode.lean. -/

namespace Sys2Proof.Config

/-- Number of store cells (00_scope.md R4, 20_memory.md R40). -/
def memSize : Nat := 65536

/-- The address at which execution starts and boot writes the program (20_memory.md R54, 70_reset_and_hazards.md R192). -/
def entryAddress : Int := 0

/-- More ticks than any instruction takes from any state to its boundary or its fault: the longest is the string
walk of SYS mode 2, at most 65537 byte reads from `IP = 0` on (40_pipeline.md R101; DEDUCED, log entry 26). -/
def tickFuel : Nat := 65545

end Sys2Proof.Config
end

