-- ==== Sys2Proof/Syntax.lean ====
section
/-! DEFINITION. The instructions: one constructor per row of spec/opcode_table.json (30_encoding.md R76, R78). -/

namespace Sys2Proof

/-- The twelve instruction forms and the fallback row. Formats: IMPL, IMM, ABS, REL (30_encoding.md R71 to R74). -/
inductive Instr where
  /-- LDA # (R110) -/
  | ldaImm (imm : Byte)
  /-- LDX # (R111) -/
  | ldxImm (imm : Byte)
  /-- LDY # (R112) -/
  | ldyImm (imm : Byte)
  /-- LDA abs (R113) -/
  | ldaAbs (addr : Addr)
  /-- STA abs (R114) -/
  | staAbs (addr : Addr)
  /-- ADC abs (R120) -/
  | adcAbs (addr : Addr)
  /-- INC abs (R121) -/
  | incAbs (addr : Addr)
  /-- CPX abs (R122) -/
  | cpxAbs (addr : Addr)
  /-- BNE rel (R130) -/
  | bneRel (rel : Byte)
  /-- NOP (R131) -/
  | nop
  /-- BRK (R132) -/
  | brk
  /-- SYS (R140 to R143) -/
  | sys
  /-- an opcode byte that is none of the twelve (R78, R133) -/
  | unrecognized (op : Byte)
  deriving DecidableEq, Repr

end Sys2Proof
end

