-- ==== Sys2Proof/Machine/State.lean ====
section
/-! DEFINITION. The machine's state as plain data, holding every piece of state of 10_state.md, the reasons a run can
stop, and the state after reset. -/

namespace Sys2Proof.Machine

/-- The store's cells that differ from the reset contents, addresses strictly rising (Machine/Memory.lean). -/
abbrev Memory := List Host.Cell

/-- The pipeline step, the closed enumeration of 10_state.md R17. -/
inductive Stage where
  | fetch | decode | execute | writeback | halted
  deriving DecidableEq, Repr

/-- Why a pulse cannot go on: the contents of `FAULT` (10_state.md R32, 60_exceptions.md R153). -/
inductive FaultReason where
  /-- a store access with the address register at `a`, outside 0 to 65535 (R151) -/
  | addressOutOfRange (a : Int)
  /-- the absolute DECODE found the combiner's stash in the wrong state (R152) -/
  | protocolMisuse
  deriving DecidableEq, Repr

/-- The four priority levels of an interrupt source (60_exceptions.md R162). -/
inductive Priority where
  | veryHigh | high | regular | none
  deriving DecidableEq, Repr

/-- An interrupt source's record in the registry (10_state.md R28). Its IRQ number is its index. -/
structure Source where
  /-- an identifier, used only in logs -/
  name : String
  /-- fixed at registration (D22) -/
  priority : Priority
  /-- the payload queue, a FIFO of bytes, head first (D24) -/
  queue : List Byte
  deriving DecidableEq, Repr

/-- The events of the output trace (10_state.md R31). -/
inductive Event where
  /-- SYS mode 1 -/
  | printHex (b : Byte)
  /-- SYS mode 2, once per non-zero string byte -/
  | printChar (b : Byte)
  /-- DECODE of an unrecognized opcode -/
  | unknownOpcode (b : Byte)
  /-- a stage handler that meets an opcode or a sub-cycle it has no arm for (40_pipeline.md R103) -/
  | unexpectedState
  /-- an interrupt check that dequeues `b` from source `n` -/
  | irqServiced (n : Nat) (b : Byte)
  /-- BRK: the whole of memory at that moment -/
  | haltDump (snapshot : Memory)
  deriving DecidableEq, Repr

/-- The environment's moves (60_exceptions.md R166, R179, R180). -/
inductive EnvMove where
  /-- a source registers (R163) -/
  | register (name : String) (priority : Priority)
  /-- a source puts a byte into its own queue (R165) -/
  | enqueue (n : Nat) (b : Byte)
  /-- a source submits a request (R164) -/
  | submit (n : Nat)
  /-- the owner of the clock arms it (R179) -/
  | start
  /-- the owner of the clock disarms it (R180) -/
  | stop
  deriving DecidableEq, Repr

/-- The part of the state that instructions read and write: the Processor's own registers (10_state.md R11 to R21,
less `PEND`, which the controller writes), the Store (R22 to R24) and the Translation Unit's latches (R26, R27).
That a stage handler works on this part alone is 60_exceptions.md R173: nothing an interrupt writes is in it. -/
structure CoreState where
  /-- instruction pointer (R11) -/
  IP : Int
  /-- instruction register (R12) -/
  IR : Byte
  /-- accumulator (R13) -/
  A : Byte
  /-- indexX (R14) -/
  X : Byte
  /-- indexY (R15) -/
  Y : Byte
  /-- compare flag, the signed difference, -255 to 255 (R16) -/
  CF : Int
  /-- pipeline step (R17) -/
  STEP : Stage
  /-- sub-cycle counter, 0 to 3 (R18) -/
  SUB : Fin 4
  /-- halt requested (R20) -/
  HALT : Bool
  /-- saved instruction pointer of SYS mode 2 (R21) -/
  SIP : Int
  /-- store address register (R22) -/
  AR : Int
  /-- store data register (R23) -/
  DR : Byte
  /-- the cells (R24) -/
  M : Memory
  /-- low half of an address in assembly (R26) -/
  STASH : Option Byte
  /-- staged write value (R27) -/
  STAGED : Byte
  deriving DecidableEq, Repr

/-- The whole state: the core, the processor's interrupt slot, the Interrupt Controller, the Clock, the machine-level
records (10_state.md R10), and the model's own field `ENV`. -/
structure State extends CoreState where
  /-- the delivered, not yet consumed request: an IRQ number (R19) -/
  PEND : Option Nat
  /-- the registry; the index is the IRQ number (R28) -/
  REG : List Source
  /-- the pending-request buffer, oldest first (R29) -/
  BUF : List Nat
  /-- whether the clock fires ticks (R30) -/
  ARMED : Bool
  /-- the output trace, oldest first (R31) -/
  OUT : List Event
  /-- the sticky fault record (R32) -/
  FAULT : Option FaultReason
  /-- The model's own: for each coming pulse boundary the moves the environment makes there (60_exceptions.md R166,
  DESIGN CHOICE, log entry 4). -/
  ENV : List (List EnvMove)
  deriving DecidableEq, Repr

/-- The machine stopped in a fault (60_exceptions.md R150). Each constructor carries the faulted state, `FAULT` set in
it and the writes the tick made before the fault kept (R155). -/
inductive Fault where
  /-- Raised by a store access with `AR = a` out of range (R151). Safe: the machine the spec describes stops here. -/
  | addressOutOfRange (a : Int) (faulted : State)
  /-- Raised by the absolute DECODE (R152); no run from reset reaches it. Safe. -/
  | protocolMisuse (faulted : State)
  deriving DecidableEq, Repr

/-- Requests at the machine's interfaces that the spec refuses, and instructions without a meaning (there are none). -/
inductive Refusal where
  /-- Raised by an arm of `exec` that has no meaning yet. Safe. -/
  | notModelled (mnemonic : String)
  /-- Raised by `flashProgram` for an element above 255 (20_memory.md R63). Safe: nothing has changed. -/
  | flashElementTooLarge (v : Nat)
  /-- Raised by `flashProgram` while the clock is armed (70_reset_and_hazards.md R198). Safe: nothing has changed. -/
  | flashWhileArmed
  deriving DecidableEq, Repr

/-- The machine right after reset (10_state.md R33, 70_reset_and_hazards.md R190). `IP`, `STEP`, `HALT`, `AR`, `DR` and
`M` are the source's; the rest are the spec's decisions D19 and D20 (DESIGN CHOICE, log entries 9 and 10). `ENV` is the
model's own (DESIGN CHOICE, log entry 4). -/
def State.reset : State where
  IP := Config.entryAddress
  IR := 0#8
  A := 0#8
  X := 0#8
  Y := 0#8
  CF := 0
  STEP := .fetch
  SUB := 0
  HALT := false
  SIP := 0
  AR := 0
  DR := 0#8
  M := []
  STASH := none
  STAGED := 0#8
  PEND := none
  REG := []
  BUF := []
  ARMED := false
  OUT := []
  FAULT := none
  ENV := []

end Sys2Proof.Machine
end

