-- ==== Sys2Proof/Machine/Memory.lean ====
section
/-! DEFINITION. The 65536 cells as a list of (address, byte) pairs in one canonical form (20_memory.md R40, R44). -/

namespace Sys2Proof.Machine

/-- What a cell that is not listed holds: the reset contents, zero (20_memory.md R44, 10_state.md R33). -/
def unlistedByte : Byte := 0#8

/-- The byte in cell `a`. -/
def Memory.read : Memory → Nat → Byte
  | [], _ => unlistedByte
  | (k, v) :: rest, a => if k = a then v else Memory.read rest a

/-- Put a cell at the head, unless it holds what an unlisted cell reads as. -/
def Memory.consCell (a : Nat) (v : Byte) (rest : Memory) : Memory :=
  if v = unlistedByte then rest else (a, v) :: rest

/-- The cells after `v` is written to cell `a`; no other cell changes (20_memory.md R43). -/
def Memory.write : Memory → Nat → Byte → Memory
  | [], a, v => Memory.consCell a v []
  | (k, w) :: rest, a, v =>
    if a < k then Memory.consCell a v ((k, w) :: rest)
    else if a = k then Memory.consCell a v rest
    else (k, w) :: Memory.write rest a v

/-- The canonical form: addresses strictly rising, every address a cell's, no entry equal to what an unlisted cell
reads as. So equal memories are equal lists. -/
abbrev Memory.wf (m : Memory) : Prop :=
  m.Pairwise (fun c d => c.1 < d.1) ∧ ∀ c ∈ m, c.1 < Config.memSize ∧ c.2 ≠ unlistedByte

end Sys2Proof.Machine
end

