-- ==== Sys2Proof/Decode.lean ====
section
/-! DEFINITION. The opcode map, the decoder (total on any bytes, rejecting a cut-short instruction by name), and
after it the encoder, both written from 30_encoding.md. -/

namespace Sys2Proof

/-! ## The opcode map -/

/-- The twelve recognized opcodes by name (30_encoding.md R76). -/
inductive Opcode where
  | ldaImm | ldxImm | ldyImm | ldaAbs | staAbs | adcAbs | incAbs | cpxAbs | bneRel | nop | brk | sys
  deriving DecidableEq, Repr

/-- The rows of the map of R76, in its order. -/
def allOpcodes : List Opcode :=
  [.ldaImm, .ldxImm, .ldyImm, .ldaAbs, .staAbs, .adcAbs, .incAbs, .cpxAbs, .bneRel, .nop, .brk, .sys]

/-- The opcode numbers of 30_encoding.md R76: the one place that holds them (R77). `0xA9` and `0x00` are the
source's; the other ten are the spec's decision D16 (the 6502's numbers; UNVERIFIED, log entry 8). -/
def opcodeByte : Opcode → Byte
  | .ldaImm => 0xA9#8
  | .ldxImm => 0xA2#8
  | .ldyImm => 0xA0#8
  | .ldaAbs => 0xAD#8
  | .staAbs => 0x8D#8
  | .adcAbs => 0x6D#8
  | .incAbs => 0xEE#8
  | .cpxAbs => 0xEC#8
  | .bneRel => 0xD0#8
  | .nop => 0xEA#8
  | .brk => 0x00#8
  | .sys => 0xFF#8

/-- Which recognized opcode a byte is, if any: all eight bits are the opcode (R70, R76, R78). -/
def opcodeOf (b : Byte) : Option Opcode := allOpcodes.find? fun o => opcodeByte o == b

/-- The four decode classes of 30_encoding.md R83. -/
inductive DecodeClass where
  | direct | absolute | nop | unrecognized
  deriving DecidableEq, Repr

/-- The class of an opcode byte (30_encoding.md R83). -/
def decodeClass (b : Byte) : DecodeClass :=
  match opcodeOf b with
  | some .ldaImm | some .ldxImm | some .ldyImm | some .bneRel | some .brk | some .sys => .direct
  | some .ldaAbs | some .staAbs | some .adcAbs | some .incAbs | some .cpxAbs => .absolute
  | some .nop => .nop
  | none => .unrecognized

/-! ## Address halves -/

/-- `hi*256 + lo` as the 16-bit operand (30_encoding.md R75). -/
def joinAddr (lo hi : Byte) : Addr := BitVec.ofNat 16 (hi.toNat * 256 + lo.toNat)

/-- Address bits 7:0, the byte at the lower address (30_encoding.md R73). -/
def addrLo (a : Addr) : Byte := BitVec.ofNat 8 a.toNat

/-- Address bits 15:8, the byte at the higher address (30_encoding.md R73). -/
def addrHi (a : Addr) : Byte := BitVec.ofNat 8 (a.toNat / 256)

/-! ## The decoder -/

/-- Why bytes are no instruction. No byte VALUE is ever rejected (30_encoding.md R78, R79): only missing bytes are. -/
inductive DecodeError where
  /-- there is no opcode byte -/
  | noOpcode
  /-- an operand byte of this opcode is missing -/
  | missingOperand (op : Opcode)
  deriving DecidableEq, Repr

/-- An instruction of format IMM or REL: one operand byte (R72, R74). -/
def decodeOneByte (op : Opcode) (mk : Byte → Instr) : List Byte → Except DecodeError (Instr × List Byte)
  | b :: rest => .ok (mk b, rest)
  | [] => .error (.missingOperand op)

/-- An instruction of format ABS: low byte, then high byte (R73). -/
def decodeTwoBytes (op : Opcode) (mk : Addr → Instr) : List Byte → Except DecodeError (Instr × List Byte)
  | lo :: hi :: rest => .ok (mk (joinAddr lo hi), rest)
  | _ => .error (.missingOperand op)

/-- Decode the instruction at the head of a byte stream and give the rest of the stream. The opcode byte alone
decides the format (30_encoding.md R70). -/
def decode : List Byte → Except DecodeError (Instr × List Byte)
  | [] => .error .noOpcode
  | b :: rest =>
    match opcodeOf b with
    | some .ldaImm => decodeOneByte .ldaImm .ldaImm rest
    | some .ldxImm => decodeOneByte .ldxImm .ldxImm rest
    | some .ldyImm => decodeOneByte .ldyImm .ldyImm rest
    | some .ldaAbs => decodeTwoBytes .ldaAbs .ldaAbs rest
    | some .staAbs => decodeTwoBytes .staAbs .staAbs rest
    | some .adcAbs => decodeTwoBytes .adcAbs .adcAbs rest
    | some .incAbs => decodeTwoBytes .incAbs .incAbs rest
    | some .cpxAbs => decodeTwoBytes .cpxAbs .cpxAbs rest
    | some .bneRel => decodeOneByte .bneRel .bneRel rest
    | some .nop => .ok (.nop, rest)
    | some .brk => .ok (.brk, rest)
    | some .sys => .ok (.sys, rest)
    | none => .ok (.unrecognized b, rest)

/-- The instruction alone, without the rest of the stream. -/
def decodeInstr (bs : List Byte) : Option Instr :=
  match decode bs with
  | .ok (i, _) => some i
  | .error _ => none

/-! ## The encoder -/

/-- The opcode byte of an instruction (30_encoding.md R70, R76). -/
def Instr.opByte : Instr → Byte
  | .ldaImm _ => opcodeByte .ldaImm
  | .ldxImm _ => opcodeByte .ldxImm
  | .ldyImm _ => opcodeByte .ldyImm
  | .ldaAbs _ => opcodeByte .ldaAbs
  | .staAbs _ => opcodeByte .staAbs
  | .adcAbs _ => opcodeByte .adcAbs
  | .incAbs _ => opcodeByte .incAbs
  | .cpxAbs _ => opcodeByte .cpxAbs
  | .bneRel _ => opcodeByte .bneRel
  | .nop => opcodeByte .nop
  | .brk => opcodeByte .brk
  | .sys => opcodeByte .sys
  | .unrecognized b => b

/-- The operand bytes of an instruction, in ascending address order (30_encoding.md R71 to R74). -/
def Instr.operandBytes : Instr → List Byte
  | .ldaImm imm | .ldxImm imm | .ldyImm imm => [imm]
  | .ldaAbs a | .staAbs a | .adcAbs a | .incAbs a | .cpxAbs a => [addrLo a, addrHi a]
  | .bneRel rel => [rel]
  | .nop | .brk | .sys | .unrecognized _ => []

/-- The bytes of an instruction as the store holds them. -/
def encode (i : Instr) : List Byte := i.opByte :: i.operandBytes

/-- The length of an instruction in bytes: 1, 2 or 3 (30_encoding.md R70). -/
def Instr.length : Instr → Nat
  | .ldaImm _ | .ldxImm _ | .ldyImm _ | .bneRel _ => 2
  | .ldaAbs _ | .staAbs _ | .adcAbs _ | .incAbs _ | .cpxAbs _ => 3
  | .nop | .brk | .sys | .unrecognized _ => 1

/-! ## The host's numbering -/

/-- The three bytes an instruction word stands for in the opcode table's numbering: byte 0 is bits 7:0, byte 1 bits
15:8, byte 2 bits 23:16; the bits from `nbits` on are 0. Three bytes is the longest instruction (R70). -/
def tableBytes (nbits w : Nat) : List Byte :=
  let v := w % 2 ^ nbits
  [BitVec.ofNat 8 v, BitVec.ofNat 8 (v / 256), BitVec.ofNat 8 (v / 65536)]

/-- The instruction the decoder reads from a word of the opcode table. -/
def decodeTableWord (nbits w : Nat) : Option Instr := decodeInstr (tableBytes nbits w)

end Sys2Proof
end

