-- ==== Sys2Proof/Machine/Operands.lean ====
section
/-! DEFINITION. Every operand form (30_encoding.md R75, 42_arithmetic_compare.md R123): immediate bytes stand as they
are, an absolute address is `hi*256 + lo`, a displacement is sign-extended. -/

namespace Sys2Proof.Machine

/-- The signed integer a byte spells in two's complement (00_scope.md R5). -/
def sext8 (b : Byte) : Int := if b.toNat < 128 then (b.toNat : Int) else (b.toNat : Int) - 256

/-- A byte as a Word (00_scope.md R5). -/
def zext (b : Byte) : Int := (b.toNat : Int)

/-- The combiner's arithmetic: high byte most significant, exact, 0 to 65535 (20_memory.md R46, R51). -/
def combineBytes (lo hi : Byte) : Int := (hi.toNat : Int) * 256 + (lo.toNat : Int)

/-- The address operand of an absolute instruction as a Word (30_encoding.md R75). -/
def addrWord (a : Addr) : Int := (a.toNat : Int)

/-- The bytes of a program given as integers, or the first that is no byte (20_memory.md R63). -/
def asBytes : List Nat → Except Nat (List Byte)
  | [] => .ok []
  | v :: vs =>
    if v < 256 then
      match asBytes vs with
      | .ok bs => .ok (BitVec.ofNat 8 v :: bs)
      | .error w => .error w
    else .error v

end Sys2Proof.Machine
end

