-- ==== Sys2Proof/Machine/Ops.lean ====
section
/-! DEFINITION. The primitives every stage is written from (00_scope.md R7): the store's operations, the Translation
Unit's, `FetchByte`, `raise`, the interrupt check, delivery.

Taking an exception on this machine is `raiseFault` (60_exceptions.md R150): it records the reason in `FAULT` and ends
the run; there is no vector, no saved register, no mode (R173). Servicing an interrupt is `interruptCheck` (R172): it
transfers no control, so there is no return from exception (R174). -/

namespace Sys2Proof.Machine

/-! ## Operations that may raise -/

/-- The outcome of an operation on the core: a value and the core after it, or a fault reason and the core as the
operation left it (60_exceptions.md R150: what was written before the `raise` stays). -/
inductive Res (α : Type) where
  | ok (a : α) (c : CoreState)
  | raised (r : FaultReason) (c : CoreState)
  deriving DecidableEq, Repr

/-- Go on after an operation that did not raise. -/
def Res.bind {α β : Type} (r : Res α) (f : α → CoreState → Res β) : Res β :=
  match r with
  | .ok a c => f a c
  | .raised e c => .raised e c

/-! ## The store -/

/-- The range check of every store access: 0 to 65535 (20_memory.md R42, R43). -/
abbrev InRange (a : Int) : Prop := 0 ≤ a ∧ a ≤ 65535

/-- `Store.setAddressRegister(w)`: any Word, no check (20_memory.md R41). -/
def storeSetAddressRegister (w : Int) (c : CoreState) : CoreState := { c with AR := w }

/-- `Store.setDataRegister(b)` (20_memory.md R41). -/
def storeSetDataRegister (b : Byte) (c : CoreState) : CoreState := { c with DR := b }

/-- `Store.read()` (20_memory.md R42). -/
def storeRead (c : CoreState) : Res Unit :=
  if InRange c.AR then .ok () (storeSetDataRegister (c.M.read c.AR.toNat) c)
  else .raised (.addressOutOfRange c.AR) c

/-- `Store.write()` (20_memory.md R43). -/
def storeWrite (c : CoreState) : Res Unit :=
  if InRange c.AR then .ok () { c with M := c.M.write c.AR.toNat c.DR }
  else .raised (.addressOutOfRange c.AR) c

/-- `Store.reset()` (20_memory.md R44). -/
def storeReset (c : CoreState) : CoreState := { c with M := [], AR := 0, DR := 0#8 }

/-! ## The Translation Unit -/

/-- `TU.setAddress(w)` (20_memory.md R45). -/
def tuSetAddress (w : Int) (c : CoreState) : CoreState := storeSetAddressRegister w c

/-- `TU.combine(b)`: the first call stashes the low half and gives nothing, the second gives the address, sets it into
the address register and clears the stash (20_memory.md R46). -/
def tuCombine (b : Byte) (c : CoreState) : Option Int × CoreState :=
  match c.STASH with
  | none => (none, { c with STASH := some b })
  | some lo => (some (combineBytes lo b), { storeSetAddressRegister (combineBytes lo b) c with STASH := none })

/-- `TU.readByte()`: a store read, then the data register's value (20_memory.md R47). -/
def tuReadByte (c : CoreState) : Res Byte := (storeRead c).bind fun _ c => .ok c.DR c

/-- `TU.stageWrite(b)` (20_memory.md R48). -/
def tuStageWrite (b : Byte) (c : CoreState) : CoreState := { c with STAGED := b }

/-- `TU.writeByte()`: the data register is set before the range check of the store's write (20_memory.md R49). -/
def tuWriteByte (c : CoreState) : Res Unit := storeWrite (storeSetDataRegister c.STAGED c)

/-- `MemRead(addr, 1)` (20_memory.md R50). -/
def memRead (a : Int) (c : CoreState) : Res Byte := tuReadByte (tuSetAddress a c)

/-- `MemWrite(addr, 1, v)` (20_memory.md R50). -/
def memWrite (a : Int) (v : Byte) (c : CoreState) : Res Unit := tuWriteByte (tuStageWrite v (tuSetAddress a c))

/-! ## Reading the instruction stream -/

/-- How a stage gets its next byte of the instruction stream. -/
abbrev ByteSource := CoreState → Res Byte

/-- `FetchByte()`: read at `IP` through the register pair, then advance `IP` (40_pipeline.md R92). A faulting read has
set `AR` and has not advanced `IP`. -/
def fetchByte : ByteSource := fun c => (memRead c.IP c).bind fun b c => .ok b { c with IP := c.IP + 1 }

/-- What `FetchByte()` does when the byte it finds at `IP` is `b`: the same register pair, range check and advance, with
`b` for the cell's contents. A meaning of an instruction with operands is written over this, so that it is a function of
the instruction (log entry 7). -/
def deliverByte (b : Byte) : ByteSource := fun c =>
  if InRange c.IP then .ok b { storeSetDataRegister b (tuSetAddress c.IP c) with IP := c.IP + 1 }
  else .raised (.addressOutOfRange c.IP) (tuSetAddress c.IP c)

/-! ## Faults -/

/-- `raise F`: set `FAULT`; what the tick has written stays (60_exceptions.md R150). -/
def raiseFault (r : FaultReason) (s : State) : State := { s with FAULT := some r }

/-- The host's fault for a reason and the faulted state. -/
def FaultReason.toFault (r : FaultReason) (s : State) : Fault :=
  match r with
  | .addressOutOfRange a => .addressOutOfRange a s
  | .protocolMisuse => .protocolMisuse s

/-! ## Servicing and delivery -/

/-- `emit E`: append to the output trace (10_state.md R31). -/
def emitAll (es : List Event) (s : State) : State := { s with OUT := s.OUT ++ es }

/-- `InterruptCheck()`: if a request is pending and its source's queue is not empty, dequeue one byte, log it and empty
the slot; otherwise change nothing (60_exceptions.md R172). -/
def interruptCheck (s : State) : State :=
  match s.PEND with
  | none => s
  | some n =>
    match s.REG[n]? with
    | none => s
    | some src =>
      match src.queue with
      | [] => s
      | b :: q =>
        { emitAll [.irqServiced n b] s with REG := s.REG.set n { src with queue := q }, PEND := none }

/-- `Processor.setInterrupt(n)`: overwrites whatever the slot held, changes nothing else (60_exceptions.md R169). -/
def setInterrupt (n : Nat) (s : State) : State := { s with PEND := some n }

end Sys2Proof.Machine
end

