-- ==== Sys2Proof/Machine/Interrupts.lean ====
section
/-! DEFINITION. The Interrupt Controller, the clock's two operations, and the environment's moves
(60_exceptions.md sections 2, 3 and 6). -/

namespace Sys2Proof.Machine

/-! ## Priorities -/

/-- The two-bit field of a priority, compared as a number (60_exceptions.md R162). -/
def Priority.level : Priority → Nat
  | .none => 0
  | .regular => 1
  | .high => 2
  | .veryHigh => 3

/-- The scan order of the controller, highest first (60_exceptions.md R168). -/
def scanOrder : List Priority := [.veryHigh, .high, .regular, .none]

/-- The priority of a request: its source's, looked up when needed (60_exceptions.md R161). -/
def requestPriority (reg : List Source) (n : Nat) : Option Priority := reg[n]?.map Source.priority

/-! ## The controller's pulse -/

/-- The first entry of a buffer that satisfies a test, and the buffer without that one entry. -/
def takeFirst (p : Nat → Bool) : List Nat → Option (Nat × List Nat)
  | [] => none
  | n :: rest =>
    if p n then some (n, rest)
    else
      match takeFirst p rest with
      | some (m, rest') => some (m, n :: rest')
      | none => none

/-- Scan the levels in order; at each, the buffer in submission order (60_exceptions.md R168). -/
def scanLevels (reg : List Source) (buf : List Nat) : List Priority → Option (Nat × List Nat)
  | [] => none
  | level :: levels =>
    match takeFirst (fun n => requestPriority reg n == some level) buf with
    | some found => some found
    | none => scanLevels reg buf levels

/-- `InterruptController.pulse()`: deliver the earliest request of the highest priority present, one per tick
(60_exceptions.md R168). -/
def controllerPulse (s : State) : State :=
  match scanLevels s.REG s.BUF scanOrder with
  | some (n, rest) => setInterrupt n { s with BUF := rest }
  | none => s

/-! ## The controller's and the clock's interface -/

/-- `register(name, priority) -> n` (60_exceptions.md R163). -/
def registerSource (name : String) (priority : Priority) (s : State) : Nat × State :=
  (s.REG.length, { s with REG := s.REG ++ [⟨name, priority, []⟩] })

/-- `enqueue(n, b)`; an unregistered number is not a move and changes nothing (60_exceptions.md R165). -/
def enqueuePayload (n : Nat) (b : Byte) (s : State) : State :=
  match s.REG[n]? with
  | some src => { s with REG := s.REG.set n { src with queue := src.queue ++ [b] } }
  | none => s

/-- `submit(n)`; an unregistered number is refused and changes nothing (60_exceptions.md R164). -/
def submitRequest (n : Nat) (s : State) : State :=
  if n < s.REG.length then { s with BUF := s.BUF ++ [n] } else s

/-- `Clock.start(intervalMs) -> bool`; the period has no effect (60_exceptions.md R179, R181). -/
def clockStart (s : State) : Bool × State :=
  if s.ARMED then (false, s) else (true, { s with ARMED := true })

/-- `Clock.stop() -> bool` (60_exceptions.md R180). -/
def clockStop (s : State) : Bool × State := (true, { s with ARMED := false })

/-! ## Moves of the environment -/

/-- One move of the environment, atomic (60_exceptions.md R166). -/
def applyMove (s : State) : EnvMove → State
  | .register name priority => (registerSource name priority s).2
  | .enqueue n b => enqueuePayload n b s
  | .submit n => submitRequest n s
  | .start => (clockStart s).2
  | .stop => (clockStop s).2

/-- The moves of one boundary, in their order. -/
def applyMoves (s : State) (ms : List EnvMove) : State := ms.foldl applyMove s

/-- A pulse boundary: the environment makes the moves its schedule holds for it, and the schedule advances. A schedule
that is spent makes none (60_exceptions.md R166; log entry 4). -/
def boundary (s : State) : State :=
  match s.ENV with
  | [] => s
  | ms :: rest => applyMoves { s with ENV := rest } ms

/-- The boundary before a tick. No tick comes while the clock is not armed, so boundaries pass until a move arms it or
the schedule is spent (40_pipeline.md R90, 60_exceptions.md R180). -/
def awaitArmed : List (List EnvMove) → State → State
  | [], s => s
  | ms :: rest, s =>
    let s' := applyMoves { s with ENV := rest } ms
    if s'.ARMED then s' else awaitArmed rest s'

/-- The moves before a tick. -/
def beforeTick (s : State) : State := awaitArmed s.ENV s

end Sys2Proof.Machine
end

