-- ==== Sys2Proof/Machine/Boot.lean ====
section
/-! DEFINITION. Boot, diagnostics and rendering (20_memory.md R61 to R63, 44_system.md R144,
70_reset_and_hazards.md R190, R196). -/

namespace Sys2Proof.Machine

/-! ## Boot -/

/-- The loop of `TU.flashProgram`: element by element through the register pair (20_memory.md R63). -/
def flashBytes : List Byte → Int → CoreState → Res Unit
  | [], _, c => .ok () c
  | b :: bs, a, c => (memWrite a b c).bind fun _ c => flashBytes bs (a + 1) c

/-- `TU.flashProgram(origin, bytes)`: refused as a whole when an element is no byte, refused while the clock is armed
(20_memory.md R63, 70_reset_and_hazards.md R198). -/
def flashProgram (origin : Int) (bytes : List Nat) (s : State) : Host.Outcome State Fault Refusal :=
  if s.ARMED then .refused .flashWhileArmed
  else
    match asBytes bytes with
    | .error v => .refused (.flashElementTooLarge v)
    | .ok bs =>
      match flashBytes bs origin s.toCoreState with
      | .ok _ c => .next { s with toCoreState := c }
      | .raised r c => .fault (r.toFault (raiseFault r { s with toCoreState := c }))

/-- Register the sources of the wiring list, in order: IRQ numbers 0, 1, 2, ... (70_reset_and_hazards.md R196). -/
def registerAll : List (String × Priority) → State → State
  | [], s => s
  | (name, priority) :: rest, s => registerAll rest (registerSource name priority s).2

/-- The boot sequence: reset, register the sources, flash at 0, start (70_reset_and_hazards.md R196). The optional dump
changes nothing. -/
def boot (sources : List (String × Priority)) (program : List Nat) : Host.Outcome State Fault Refusal :=
  match flashProgram Config.entryAddress program (registerAll sources State.reset) with
  | .next s => .next (clockStart s).2
  | .fault e => .fault e
  | .refused e => .refused e

/-! ## Diagnostics: read-only -/

/-- `Store.getSnapshot()`: all of `M` (20_memory.md R61). -/
def snapshot (c : CoreState) : Memory := c.M

/-- One upper-case hexadecimal digit. -/
def hexDigit (d : Nat) : Char := "0123456789ABCDEF".toList.getD d '0'

/-- Two hexadecimal digits, zero-padded (44_system.md R144, 20_memory.md R62). -/
def hexByte (b : Byte) : List Char := [hexDigit (b.toNat / 16), hexDigit (b.toNat % 16)]

/-- Four hexadecimal digits, zero-padded (20_memory.md R62). -/
def hexAddress (a : Nat) : List Char :=
  [hexDigit (a / 4096 % 16), hexDigit (a / 256 % 16), hexDigit (a / 16 % 16), hexDigit (a % 16)]

/-- One line of a dump: `address | value` (20_memory.md R62). -/
def dumpLine (c : CoreState) (a : Nat) : List Char := hexAddress a ++ " | ".toList ++ hexByte (c.M.read a)

/-- `TU.dump(lo, hi)`: one line per address, both ends included; no state changes (20_memory.md R62). For a range that
leaves 0 to 65535 the spec says nothing: the model lists the cells of the range that exist and gives no line, so no value,
for an address that has no cell (DESIGN CHOICE, log entry 32). -/
def dump (c : CoreState) (lo hi : Nat) : List (List Char) :=
  (List.range (min (hi + 1) Config.memSize - lo)).map fun k => dumpLine c (lo + k)

/-- The character of `PrintChar(b)`: ASCII for 1 to 127, none defined above (44_system.md R144). -/
def renderChar (b : Byte) : Option Char :=
  if 1 ≤ b.toNat ∧ b.toNat ≤ 127 then some (Char.ofNat b.toNat) else none

/-- The console text of an event, where the spec gives one (44_system.md R144). -/
def Event.render : Event → Option (List Char)
  | .printHex b => some (hexByte b)
  | .printChar b => (renderChar b).map fun ch => [ch]
  | .unknownOpcode _ => none
  | .unexpectedState => none
  | .irqServiced _ _ => none
  | .haltDump _ => none

end Sys2Proof.Machine
end

