-- ==== Sys2Proof/Machine/Flags.lean ====
section
/-! DEFINITION. The one flag, `CF`, and the byte arithmetic, which sets no flag (10_state.md R16,
42_arithmetic_compare.md R123). -/

namespace Sys2Proof.Machine

/-- CPX: the exact difference of two unsigned bytes, -255 to 255 (42_arithmetic_compare.md R122). -/
def compareFlag (x v : Byte) : Int := (x.toNat : Int) - (v.toNat : Int)

/-- BNE is taken when the flag is not zero (43_control.md R130). -/
def branchTaken (cf : Int) : Bool := cf != 0

/-- ADC: `(A + v) mod 256`, no carry in or out (42_arithmetic_compare.md R120). -/
def addByte (a v : Byte) : Byte := BitVec.ofNat 8 (a.toNat + v.toNat)

/-- INC: `(v + 1) mod 256` (42_arithmetic_compare.md R121). -/
def incByte (v : Byte) : Byte := BitVec.ofNat 8 (v.toNat + 1)

end Sys2Proof.Machine
end

