-- ==== Sys2Proof/Machine/Tick.lean ====
section
/-! DEFINITION. The tick around a stage handler (40_pipeline.md R90, R99), sequences of ticks, and the stages that
belong to no one instruction: FETCH (R91), the direct and absolute DECODE (R94, R93), the memory write of WRITEBACK
(R98), the unexpected state (R103). -/

namespace Sys2Proof.Machine

/-! ## The tick -/

/-- A stage handler: what one processor pulse does to the core, and the events it emits. -/
abbrev Handler := CoreState → Res (List Event)

/-- What the processor's pulse leaves. -/
inductive Pulse where
  | done (s : State)
  | raised (r : FaultReason) (s : State)
  deriving DecidableEq, Repr

/-- What the machine's tick leaves: the tick ran; it did not happen, the clock not being armed; or it raised. -/
inductive TickResult where
  | ran (s : State)
  | paused (s : State)
  | raised (r : FaultReason) (s : State)
  deriving DecidableEq, Repr

/-- A processor pulse that runs the handler `h`: the handler, then the interrupt check; no check after a fault
(40_pipeline.md R99, R100). -/
def pulseWith (h : Handler) (s : State) : Pulse :=
  match h s.toCoreState with
  | .ok es c => .done (interruptCheck (emitAll es { s with toCoreState := c }))
  | .raised r c => .raised r (raiseFault r { s with toCoreState := c })

/-- `Store.pulse()` changes nothing (20_memory.md R66). -/
def storePulse (s : State) : State := s

/-- Step 4 of the tick: the clock stops itself when the processor has halted (40_pipeline.md R90). -/
def clockCheck (s : State) : State := if s.HALT then (clockStop s).2 else s

/-- What follows the processor's pulse in a tick, with the environment's boundaries between the pulses
(40_pipeline.md R90, 60_exceptions.md R166). A `stop` at one of these boundaries does not cut the tick short: the pulses
that remain and the halt check run with `ARMED` false (the spec does not say; DESIGN CHOICE, log entry 33). -/
def afterProcessor (s : State) : State :=
  clockCheck (boundary (controllerPulse (boundary (storePulse (boundary s)))))

/-- One tick around a processor pulse. It happens only while `ARMED` is true and `FAULT` is empty; a pulse that raises
ends it (40_pipeline.md R90, 60_exceptions.md R150). `ARMED` is looked at once, before the processor's pulse: a tick that has
begun runs to its end even if a move stops the clock between two of its pulses (DESIGN CHOICE, log entry 33). -/
def tickAround (pulse : State → Pulse) (s : State) : TickResult :=
  if (beforeTick s).ARMED = true ∧ (beforeTick s).FAULT = none then
    match pulse (beforeTick s) with
    | .done s' => .ran (afterProcessor s')
    | .raised r s' => .raised r s'
  else .paused (beforeTick s)

/-! ## Sequences of ticks -/

/-- Go on after a tick that ran. -/
def TickResult.andThen (r : TickResult) (f : State → TickResult) : TickResult :=
  match r with
  | .ran s => f s
  | .paused s => .paused s
  | .raised e s => .raised e s

/-- The host's outcome: a paused machine waits in its state; a raised fault stops the run (60_exceptions.md R150). -/
def TickResult.toOutcome (r : TickResult) : Host.Outcome State Fault Refusal :=
  match r with
  | .ran s => .next s
  | .paused s => .next s
  | .raised e s => .fault (e.toFault s)

/-- One tick for each handler, in order. -/
def runStages : List Handler → State → TickResult
  | [], s => .ran s
  | h :: hs, s => (tickAround (pulseWith h) s).andThen (runStages hs)

/-- An instruction boundary: the machine stands at FETCH or in HALTED (40_pipeline.md R102). -/
abbrev AtBoundary (c : CoreState) : Prop := c.STEP = .fetch ∨ c.STEP = .halted

/-- Ticks until an instruction boundary, at most `fuel` of them. -/
def runToBoundary (pulse : State → Pulse) : Nat → State → TickResult
  | 0, s => .ran s
  | fuel + 1, s =>
    (tickAround pulse s).andThen fun s' =>
      if AtBoundary s'.toCoreState then .ran s' else runToBoundary pulse fuel s'

/-! ## The common stages -/

/-- FETCH (40_pipeline.md R91). -/
def fetchStage (next : ByteSource) : Handler := fun c =>
  (next c).bind fun b c => .ok [] { c with IR := b, SUB := 0, STEP := .decode }

/-- The logged transition of a handler that has no arm for what it meets (40_pipeline.md R103). -/
def unexpectedStage : Handler := fun c => .ok [.unexpectedState] { c with SUB := 0, STEP := .fetch }

/-- DECODE, class direct (40_pipeline.md R94). -/
def directStage : Handler := fun c => .ok [] { c with STEP := .execute }

/-- DECODE, class absolute: one call per half, with the two guards (40_pipeline.md R93). -/
def absoluteStage (next : ByteSource) : Handler := fun c =>
  if c.SUB = 0 then
    if c.STASH ≠ none then .raised .protocolMisuse c
    else (next c).bind fun b c => .ok [] { (tuCombine b c).2 with SUB := 1 }
  else if c.SUB = 1 then
    if c.STASH = none then .raised .protocolMisuse c
    else (next c).bind fun b c => .ok [] { (tuCombine b c).2 with SUB := 0, STEP := .execute }
  else unexpectedStage c

/-- WRITEBACK of a store-class or increment-class opcode (40_pipeline.md R98). -/
def writeStage : Handler := fun c => (tuWriteByte c).bind fun _ c => .ok [] { c with STEP := .fetch }

/-- A two-tick EXECUTE: the first tick, the second, or an unexpected sub-cycle (40_pipeline.md R96, R103). -/
def twoTickStage (first second : Handler) : Handler := fun c =>
  if c.SUB = 0 then first c else if c.SUB = 1 then second c else unexpectedStage c

/-- The first EXECUTE tick of LDA abs, INC abs and CPX abs: a read whose value is not used
(41_load_store.md R113, 42_arithmetic_compare.md R121, R122). -/
def firstReadStage : Handler := fun c => (tuReadByte c).bind fun _ c => .ok [] { c with SUB := 1 }

/-! ## An instruction as its ticks -/

/-- An instruction that is one handler a tick. -/
def runInstr (hs : List Handler) (s : State) : Host.Outcome State Fault Refusal := (runStages hs s).toOutcome

/-- T1 of the instruction whose opcode byte is `op` (40_pipeline.md R91). -/
def fetchTick (op : Byte) : Handler := fetchStage (deliverByte op)

/-- T1, T2 and T3 of an absolute instruction (40_pipeline.md R91, R93). -/
def absoluteTicks (op : Opcode) (a : Addr) : List Handler :=
  [fetchTick (opcodeByte op), absoluteStage (deliverByte (addrLo a)), absoluteStage (deliverByte (addrHi a))]

/-- T1 and T2 of a direct instruction (40_pipeline.md R91, R94). -/
def directTicks (op : Opcode) : List Handler := [fetchTick (opcodeByte op), directStage]

end Sys2Proof.Machine
end

