-- ==== Sys2Proof/Machine/Arithmetic.lean ====
section
/-! DEFINITION. Arithmetic and compare (42_arithmetic_compare.md): the EXECUTE handlers and the meanings of ADC abs,
INC abs, CPX abs. -/

namespace Sys2Proof.Machine

/-- EXECUTE of ADC abs (R120, T4). -/
def adcAbsStage : Handler := fun c =>
  (tuReadByte c).bind fun v c => .ok [] { c with A := addByte c.A v, STEP := .fetch }

/-- EXECUTE of INC abs (R121, T4 and T5); the datum never passes through the accumulator. -/
def incAbsStage : Handler :=
  twoTickStage firstReadStage fun c =>
    (tuReadByte c).bind fun v c => .ok [] { tuStageWrite (incByte v) c with SUB := 0, STEP := .writeback }

/-- EXECUTE of CPX abs (R122, T4 and T5). -/
def cpxAbsStage : Handler :=
  twoTickStage firstReadStage fun c =>
    (tuReadByte c).bind fun v c => .ok [] { c with CF := compareFlag c.X v, SUB := 0, STEP := .fetch }

/-- ADC abs (R120): 4 ticks. -/
def execAdcAbs (addr : Addr) (s : State) : Host.Outcome State Fault Refusal :=
  runInstr (absoluteTicks .adcAbs addr ++ [adcAbsStage]) s

/-- INC abs (R121): 6 ticks. -/
def execIncAbs (addr : Addr) (s : State) : Host.Outcome State Fault Refusal :=
  runInstr (absoluteTicks .incAbs addr ++ [incAbsStage, incAbsStage, writeStage]) s

/-- CPX abs (R122): 5 ticks. -/
def execCpxAbs (addr : Addr) (s : State) : Host.Outcome State Fault Refusal :=
  runInstr (absoluteTicks .cpxAbs addr ++ [cpxAbsStage, cpxAbsStage]) s

end Sys2Proof.Machine
end

