-- ==== Sys2Proof/Machine/Control.lean ====
section
/-! DEFINITION. Control transfer, no-op, halt, unrecognized opcodes (43_control.md): the handlers and the meanings of
BNE rel, NOP, BRK and every byte that is no opcode. -/

namespace Sys2Proof.Machine

/-- EXECUTE of BNE (R130, T3): the displacement is read whether or not the branch is taken. -/
def bneRelStage (next : ByteSource) : Handler := fun c =>
  (next c).bind fun off c =>
    .ok [] { c with IP := if branchTaken c.CF then c.IP + sext8 off else c.IP, STEP := .fetch }

/-- DECODE of NOP (R131, T2). -/
def nopStage : Handler := fun c => .ok [] { c with STEP := .fetch }

/-- EXECUTE of BRK (R132, T3). -/
def brkStage : Handler := fun c => .ok [.haltDump c.M] { c with HALT := true, STEP := .halted }

/-- DECODE of an unrecognized opcode (R133, T2). -/
def unrecognizedStage : Handler := fun c => .ok [.unknownOpcode c.IR] { c with STEP := .fetch }

/-- BNE rel (R130): 3 ticks, taken or not. -/
def execBneRel (rel : Byte) (s : State) : Host.Outcome State Fault Refusal :=
  runInstr (directTicks .bneRel ++ [bneRelStage (deliverByte rel)]) s

/-- NOP (R131): 2 ticks. -/
def execNop (s : State) : Host.Outcome State Fault Refusal :=
  runInstr [fetchTick (opcodeByte .nop), nopStage] s

/-- BRK (R132): 3 ticks, and the clock stops in the third. -/
def execBrk (s : State) : Host.Outcome State Fault Refusal :=
  runInstr (directTicks .brk ++ [brkStage]) s

/-- An unrecognized opcode byte (R133): 2 ticks. -/
def execUnrecognized (op : Byte) (s : State) : Host.Outcome State Fault Refusal :=
  runInstr [fetchTick op, unrecognizedStage] s

end Sys2Proof.Machine
end

