-- ==== Sys2Proof/Machine/LoadStore.lean ====
section
/-! DEFINITION. Loads and stores (41_load_store.md): the EXECUTE handlers, shared with the tick machine, and the
meanings of LDA #, LDX #, LDY #, LDA abs, STA abs. -/

namespace Sys2Proof.Machine

/-- EXECUTE of LDA # (R110, T3). -/
def ldaImmStage (next : ByteSource) : Handler := fun c =>
  (next c).bind fun b c => .ok [] { c with A := b, STEP := .fetch }

/-- EXECUTE of LDX # (R111, T3). -/
def ldxImmStage (next : ByteSource) : Handler := fun c =>
  (next c).bind fun b c => .ok [] { c with X := b, STEP := .fetch }

/-- EXECUTE of LDY # (R112, T3). -/
def ldyImmStage (next : ByteSource) : Handler := fun c =>
  (next c).bind fun b c => .ok [] { c with Y := b, STEP := .fetch }

/-- EXECUTE of LDA abs (R113, T4 and T5). -/
def ldaAbsStage : Handler :=
  twoTickStage firstReadStage fun c =>
    (tuReadByte c).bind fun v c => .ok [] { c with A := v, SUB := 0, STEP := .fetch }

/-- EXECUTE of STA abs (R114, T4 and T5). -/
def staAbsStage : Handler :=
  twoTickStage (fun c => .ok [] { tuStageWrite c.A c with SUB := 1 })
    fun c => .ok [] { c with SUB := 0, STEP := .writeback }

/-- LDA # (R110): 3 ticks. -/
def execLdaImm (imm : Byte) (s : State) : Host.Outcome State Fault Refusal :=
  runInstr (directTicks .ldaImm ++ [ldaImmStage (deliverByte imm)]) s

/-- LDX # (R111): 3 ticks. -/
def execLdxImm (imm : Byte) (s : State) : Host.Outcome State Fault Refusal :=
  runInstr (directTicks .ldxImm ++ [ldxImmStage (deliverByte imm)]) s

/-- LDY # (R112): 3 ticks. -/
def execLdyImm (imm : Byte) (s : State) : Host.Outcome State Fault Refusal :=
  runInstr (directTicks .ldyImm ++ [ldyImmStage (deliverByte imm)]) s

/-- LDA abs (R113): 5 ticks. -/
def execLdaAbs (addr : Addr) (s : State) : Host.Outcome State Fault Refusal :=
  runInstr (absoluteTicks .ldaAbs addr ++ [ldaAbsStage, ldaAbsStage]) s

/-- STA abs (R114): 6 ticks. -/
def execStaAbs (addr : Addr) (s : State) : Host.Outcome State Fault Refusal :=
  runInstr (absoluteTicks .staAbs addr ++ [staAbsStage, staAbsStage, writeStage]) s

end Sys2Proof.Machine
end

