-- ==== Sys2Proof/Machine/System.lean ====
section
/-! DEFINITION. The system-call instruction SYS (44_system.md): the mode is `X`, the argument is `Y`. -/

namespace Sys2Proof.Machine

/-- SYS mode 1: print `Y` (R142). -/
def sysPrintStage : Handler := fun c => .ok [.printHex c.Y] { c with STEP := .fetch }

/-- SYS mode 2, first EXECUTE tick: save `IP`, point it at the string (R141, `SUB = 0`). -/
def sysStringStartStage : Handler := fun c => .ok [] { c with SIP := c.IP, IP := zext c.Y, SUB := 1 }

/-- SYS mode 2, one string byte: the terminator restores `IP` and ends the instruction, any other byte is printed
(R141, `SUB = 1`). -/
def sysStringByteStage : Handler := fun c =>
  (fetchByte c).bind fun b c =>
    if b = 0#8 then .ok [] { c with IP := c.SIP, SUB := 0, STEP := .fetch }
    else .ok [.printChar b] c

/-- SYS with any other mode: nothing (R143). -/
def sysOtherStage : Handler := fun c => .ok [] { c with STEP := .fetch }

/-- EXECUTE of SYS: the mode is looked at only at `SUB = 0` (R140). -/
def sysStage : Handler :=
  twoTickStage
    (fun c => if c.X = 1#8 then sysPrintStage c else if c.X = 2#8 then sysStringStartStage c else sysOtherStage c)
    sysStringByteStage

/-- SYS (R140 to R143): 3 ticks, or `n + 4` in mode 2 for a string of `n` non-zero bytes. -/
def execSys (s : State) : Host.Outcome State Fault Refusal :=
  ((runStages (directTicks .sys) s).andThen (runToBoundary (pulseWith sysStage) Config.tickFuel)).toOutcome

end Sys2Proof.Machine
end

