-- ==== Sys2Proof/Machine/Pipeline.lean ====
section
/-! DEFINITION. The machine tick by tick, as the hardware has it: the stage that `STEP` and `IR` select, reading the
instruction stream from memory (40_pipeline.md R90 to R99), and the bytes the next FETCH will read. -/

namespace Sys2Proof.Machine

/-- DECODE dispatches on the class of `IR` (40_pipeline.md R95). -/
def decodeStage : Handler := fun c =>
  match decodeClass c.IR with
  | .direct => directStage c
  | .absolute => absoluteStage fetchByte c
  | .nop => nopStage c
  | .unrecognized => unrecognizedStage c

/-- EXECUTE dispatches on `IR` (40_pipeline.md R96). -/
def executeStage : Handler := fun c =>
  match opcodeOf c.IR with
  | some .ldaImm => ldaImmStage fetchByte c
  | some .ldxImm => ldxImmStage fetchByte c
  | some .ldyImm => ldyImmStage fetchByte c
  | some .ldaAbs => ldaAbsStage c
  | some .staAbs => staAbsStage c
  | some .adcAbs => adcAbsStage c
  | some .incAbs => incAbsStage c
  | some .cpxAbs => cpxAbsStage c
  | some .bneRel => bneRelStage fetchByte c
  | some .brk => brkStage c
  | some .sys => sysStage c
  | some .nop => unexpectedStage c
  | none => unexpectedStage c

/-- WRITEBACK is reached only by STA abs and INC abs (40_pipeline.md R98). -/
def writebackStage : Handler := fun c =>
  match opcodeOf c.IR with
  | some .staAbs => writeStage c
  | some .incAbs => writeStage c
  | _ => unexpectedStage c

/-- The handler of the current stage (40_pipeline.md R99); HALTED has none. -/
def stageHandler : Handler := fun c =>
  match c.STEP with
  | .fetch => fetchStage fetchByte c
  | .decode => decodeStage c
  | .execute => executeStage c
  | .writeback => writebackStage c
  | .halted => .ok [] c

/-- `Processor.pulse()`: nothing at all in HALTED, not even the interrupt check (40_pipeline.md R97, R99). -/
def processorPulse (s : State) : Pulse := if s.STEP = .halted then .done s else pulseWith stageHandler s

/-- One tick of the machine (40_pipeline.md R90). -/
def tick (s : State) : TickResult := tickAround processorPulse s

/-- A number of ticks. -/
def ticks : Nat → State → TickResult
  | 0, s => .ran s
  | k + 1, s => (tick s).andThen (ticks k)

/-- The rest of the instruction in progress, tick by tick. -/
def finishInstr (s : State) : TickResult := runToBoundary processorPulse Config.tickFuel s

/-- The bytes of the instruction stream from address `a` on, as far as the store has cells, at most `n` of them. -/
def streamFrom (m : Memory) : Nat → Int → List Byte
  | 0, _ => []
  | n + 1, a => if InRange a then m.read a.toNat :: streamFrom m n (a + 1) else []

/-- The instruction that stands at `IP`, if all its bytes have cells (30_encoding.md R84). -/
def instrAtIP (c : CoreState) : Option Instr := decodeInstr (streamFrom c.M 3 c.IP)

/-- The ticks an instruction takes (70_reset_and_hazards.md R210), SYS in mode 2 apart, whose count is that of its
string plus 4. -/
def tickCount : Instr → Nat
  | .ldaImm _ | .ldxImm _ | .ldyImm _ | .bneRel _ | .brk | .sys => 3
  | .ldaAbs _ | .cpxAbs _ => 5
  | .staAbs _ | .incAbs _ => 6
  | .adcAbs _ => 4
  | .nop | .unrecognized _ => 2

end Sys2Proof.Machine
end

