-- ==== Sys2Proof/Machine/Dispatch.lean ====
section
/-! DEFINITION. One arm per instruction: its meaning. -/

namespace Sys2Proof.Machine

def exec (i : Instr) (s : State) : Host.Outcome State Fault Refusal :=
  match i with
  | .ldaImm imm => Sys2Proof.Machine.execLdaImm imm s
  | .ldxImm imm => Sys2Proof.Machine.execLdxImm imm s
  | .ldyImm imm => Sys2Proof.Machine.execLdyImm imm s
  | .ldaAbs addr => Sys2Proof.Machine.execLdaAbs addr s
  | .staAbs addr => Sys2Proof.Machine.execStaAbs addr s
  | .adcAbs addr => Sys2Proof.Machine.execAdcAbs addr s
  | .incAbs addr => Sys2Proof.Machine.execIncAbs addr s
  | .cpxAbs addr => Sys2Proof.Machine.execCpxAbs addr s
  | .bneRel rel => Sys2Proof.Machine.execBneRel rel s
  | .nop => Sys2Proof.Machine.execNop s
  | .brk => Sys2Proof.Machine.execBrk s
  | .sys => Sys2Proof.Machine.execSys s
  | .unrecognized op => Sys2Proof.Machine.execUnrecognized op s

end Sys2Proof.Machine
end

