-- ==== Sys2Proof/Machine/Step.lean ====
section
/-! DEFINITION. The step of the host's interface: one instruction. -/

namespace Sys2Proof.Machine

/-- One step. At FETCH, with an instruction at `IP`, it is that instruction's meaning. Otherwise (an instruction that a
stopped clock left in progress, a stream that runs past the last cell or below the first, HALTED) it is the machine's own
ticks up to the next instruction boundary. While `FAULT` is set no tick has any effect: the run has ended
(60_exceptions.md R150; log entries 3, 5, 6). -/
def step (s : State) : Host.Outcome State Fault Refusal :=
  match s.FAULT with
  | some r => .fault (r.toFault s)
  | none =>
    if s.STEP = .fetch then
      match instrAtIP s.toCoreState with
      | some i => exec i s
      | none => (finishInstr s).toOutcome
    else (finishInstr s).toOutcome

/-- The state with the instruction of an opcode-table word at `IP` and the clock armed, so that the next step fetches and
runs it: no fault, no halt, no half-made address and no coming `stop` stands in its way (log entry 23). `IP` moves to 0
only where three cells from it on do not exist (log entry 30). -/
def State.withFetchWord (s : State) (nbits w : Nat) : State :=
  let ip : Int := if 0 ≤ s.IP ∧ s.IP ≤ 65533 then s.IP else Config.entryAddress
  let m : Memory := (tableBytes nbits w).zipIdx.foldl (fun m p => Memory.write m (ip.toNat + p.2) p.1) s.M
  { s with IP := ip, M := m, STEP := .fetch, STASH := none, HALT := false, FAULT := none, ARMED := true, ENV := [] }

end Sys2Proof.Machine
end

