-- ==== Sys2Proof/WellFormed.lean ====
section
/-! DEFINITION. Which terms of `Instr` are instructions of the machine. -/

namespace Sys2Proof

/-- Every operand value is legal (30_encoding.md R79); the one check is that the fallback row stands only for a byte
that no other row matches (30_encoding.md R78). -/
abbrev Instr.WellFormed : Instr → Prop
  | .ldaImm _ | .ldxImm _ | .ldyImm _ => True
  | .ldaAbs _ | .staAbs _ | .adcAbs _ | .incAbs _ | .cpxAbs _ => True
  | .bneRel _ => True
  | .nop | .brk | .sys => True
  | .unrecognized b => opcodeOf b = none

end Sys2Proof
end

