-- ==== Sys2Proof/Safety.lean ====
section
/-! DEFINITION. What counts as a running machine, a good end and a sound state, in the terms the statements use. -/

namespace Sys2Proof.Machine

/-! ## Output -/

/-- An event that an instruction emits; the one other kind is the log of a serviced interrupt (10_state.md R31). -/
def Event.ofProgram : Event → Bool
  | .irqServiced _ _ => false
  | .printHex _ | .printChar _ | .unknownOpcode _ | .unexpectedState | .haltDump _ => true

/-- The events instructions have emitted, in order. -/
def State.programOut (s : State) : List Event := s.OUT.filter Event.ofProgram

/-! ## Running, halted, ended -/

/-- No coming move of the environment stops the clock. -/
abbrev NoStop (env : List (List EnvMove)) : Prop := ∀ ms ∈ env, EnvMove.stop ∉ ms

/-- No coming move of the environment starts the clock. -/
abbrev NoStart (env : List (List EnvMove)) : Prop := ∀ ms ∈ env, EnvMove.start ∉ ms

/-- The machine runs: the clock is armed and nothing will stop it but the machine itself; no fault, no halt. Interrupt
sources may register, enqueue and submit at every boundary (60_exceptions.md R166). -/
structure State.Running (s : State) : Prop where
  armed : s.ARMED = true
  noFault : s.FAULT = none
  noHalt : s.HALT = false
  noStop : NoStop s.ENV

/-- Nothing is pending and the environment makes no more moves. -/
structure State.Quiet (s : State) : Prop where
  noPend : s.PEND = none
  noBuf : s.BUF = []
  noEnv : s.ENV = []

/-- The good end of a run: halted, without a fault (40_pipeline.md R104). -/
abbrev State.GoodEnd (s : State) : Prop := s.STEP = .halted ∧ s.HALT = true ∧ s.FAULT = none

/-! ## Sound states -/

/-- What the stages rely on: where the machine stands, `SUB`, `STASH`, `AR` and `IR` are what DECODE left there
(10_state.md R18, R26; 40_pipeline.md R93 to R98). -/
def CoreState.StageInv (c : CoreState) : Prop :=
  match c.STEP with
  | .fetch => c.SUB = 0 ∧ c.STASH = none
  | .decode =>
    (c.SUB = 0 ∧ c.STASH = none) ∨ (c.SUB = 1 ∧ c.STASH ≠ none ∧ decodeClass c.IR = .absolute)
  | .execute =>
    c.STASH = none ∧
      ((decodeClass c.IR = .direct ∧ (c.SUB = 0 ∨ (c.SUB = 1 ∧ opcodeOf c.IR = some .sys))) ∨
        (decodeClass c.IR = .absolute ∧ InRange c.AR ∧
          (c.SUB = 0 ∨ (c.SUB = 1 ∧ opcodeOf c.IR ≠ some .adcAbs))))
  | .writeback =>
    c.STASH = none ∧ c.SUB = 0 ∧ InRange c.AR ∧
      (opcodeOf c.IR = some .staAbs ∨ opcodeOf c.IR = some .incAbs)
  | .halted => c.STASH = none ∧ c.SUB = 0

/-- The sound states of the machine: no fault, the memory canonical, the compare flag in its range, the halt flag set
exactly in HALTED, every request a registered source's, and the stage's own conditions. -/
structure State.Inv (s : State) : Prop where
  noFault : s.FAULT = none
  memory : Memory.wf s.M
  flag : -255 ≤ s.CF ∧ s.CF ≤ 255
  halt : s.HALT = true ↔ s.STEP = .halted
  pend : ∀ n, s.PEND = some n → n < s.REG.length
  buffer : ∀ n ∈ s.BUF, n < s.REG.length
  stage : s.toCoreState.StageInv

/-- Where the exact-integer pointers can stand (10_state.md R11, 93_implementation_defined.md U4): outside 0 to 65536
only at FETCH, after a branch. -/
def CoreState.PointerInv (c : CoreState) : Prop :=
  match c.STEP with
  | .fetch => -126 ≤ c.IP ∧ c.IP ≤ 65663
  | .execute =>
    if c.SUB = 0 then 1 ≤ c.IP ∧ c.IP ≤ 65536
    else 0 ≤ c.IP ∧ c.IP ≤ 65536 ∧ (opcodeOf c.IR = some .sys → 1 ≤ c.SIP ∧ c.SIP ≤ 65536)
  | .decode => 1 ≤ c.IP ∧ c.IP ≤ 65536
  | .writeback | .halted => 0 ≤ c.IP ∧ c.IP ≤ 65536

end Sys2Proof.Machine
end

