-- ==== Sys2Proof/Certificates/Slice0/Obligations.lean ====
section
/-! DEFINITION. The statements for the provers, and the few words they are written in. -/

namespace Sys2Proof.Claims

open Sys2Proof.Machine

/-! ## What the common ticks leave, as the spec's rules say it -/

/-- After T1, the FETCH of opcode byte `op` (40_pipeline.md R91, R92). -/
def afterFetch (op : Byte) (c : CoreState) : CoreState :=
  { c with IR := op, AR := c.IP, DR := op, IP := c.IP + 1, SUB := 0, STEP := .decode }

/-- After T2 of a direct instruction (40_pipeline.md R94). -/
def afterDirect (op : Byte) (c : CoreState) : CoreState := { afterFetch op c with STEP := .execute }

/-- After T2 of an absolute instruction: the low byte is stashed (40_pipeline.md R93). -/
def afterLow (op : Byte) (a : Addr) (c : CoreState) : CoreState :=
  { afterFetch op c with AR := c.IP + 1, DR := addrLo a, IP := c.IP + 2, STASH := some (addrLo a), SUB := 1 }

/-- After T3 of an absolute instruction: the address register holds the address, the data register the high byte
(40_pipeline.md R93, 95_test_vectors.md 2.2). -/
def afterHigh (op : Byte) (a : Addr) (c : CoreState) : CoreState :=
  { afterFetch op c with
    AR := addrWord a, DR := addrHi a, IP := c.IP + 3, STASH := none, SUB := 0, STEP := .execute }

/-- After T3 of SYS mode 2: `IP` is saved and stands at the string (44_system.md R141). -/
def walkStart (c : CoreState) : CoreState :=
  { afterDirect 0xFF#8 c with SIP := c.IP + 1, IP := zext c.Y, SUB := 1 }

/-- After the string tick that reads the non-zero byte `b`, the string's `k`-th from 0 (44_system.md R141). -/
def walkAfter (k : Nat) (b : Byte) (c : CoreState) : CoreState :=
  { walkStart c with AR := zext c.Y + k, DR := b, IP := zext c.Y + k + 1 }

/-- After SYS mode 2 on a string of `n` non-zero bytes (44_system.md R141). -/
def afterString (n : Nat) (c : CoreState) : CoreState :=
  { c with
    IP := c.IP + 1, SIP := c.IP + 1, IR := 0xFF#8, AR := zext c.Y + n, DR := 0#8, SUB := 0, STEP := .fetch }

/-- The next ticks of the machine all run, and leave these cores, one after each tick. -/
def Traces : State → List CoreState → Prop
  | _, [] => True
  | s, c :: cs => ∃ t, tick s = .ran t ∧ t.toCoreState = c ∧ Traces t cs

/-- A running machine at FETCH whose instruction pointer stands at these bytes. -/
structure FetchesBytes (s : State) (bytes : List Byte) : Prop where
  running : s.Running
  atFetch : s.STEP = .fetch
  atIP : streamFrom s.M bytes.length s.IP = bytes

/-- Where the operand bytes of an absolute instruction lie past the last cell, its meaning faults at the access that
fails, with the earlier ticks done (60_exceptions.md R151, R155). -/
def AbsoluteFaults (i : Instr) (op : Byte) (a : Addr) (s : State) : Prop :=
  (s.IP = 65534 → ∃ t, exec i s = .fault (.addressOutOfRange 65536 t) ∧
    t.toCoreState = { afterLow op a s.toCoreState with AR := 65536 } ∧ t.FAULT = some (.addressOutOfRange 65536)) ∧
  (s.IP = 65535 → ∃ t, exec i s = .fault (.addressOutOfRange 65536 t) ∧
    t.toCoreState = { afterFetch op s.toCoreState with AR := 65536 } ∧ t.FAULT = some (.addressOutOfRange 65536))

end Sys2Proof.Claims

open Sys2Proof Sys2Proof.Machine Sys2Proof.Claims

/-! ## Encoding -/

/-- One word of every row of the opcode table, operand bits after the opcode byte, decodes to the row's instruction
(30_encoding.md R71 to R78). -/
def Obligations.TableWordsDecode : Prop :=
  decodeTableWord 16 0x05A9 = some (.ldaImm 0x05#8) ∧
  decodeTableWord 16 0x7FA2 = some (.ldxImm 0x7F#8) ∧
  decodeTableWord 16 0x10A0 = some (.ldyImm 0x10#8) ∧
  decodeTableWord 24 0x1234AD = some (.ldaAbs 0x1234#16) ∧
  decodeTableWord 24 0x00108D = some (.staAbs 0x0010#16) ∧
  decodeTableWord 24 0x00406D = some (.adcAbs 0x0040#16) ∧
  decodeTableWord 24 0x0020EE = some (.incAbs 0x0020#16) ∧
  decodeTableWord 24 0xFFFEEC = some (.cpxAbs 0xFFFE#16) ∧
  decodeTableWord 16 0xF8D0 = some (.bneRel 0xF8#8) ∧
  decodeTableWord 8 0xEA = some .nop ∧
  decodeTableWord 8 0x00 = some .brk ∧
  decodeTableWord 8 0xFF = some .sys ∧
  decodeTableWord 8 0x02 = some (.unrecognized 0x02#8)

/-- Decoding the encoding of any well-formed instruction gives it back, with the rest of the stream untouched, for every
value of every operand (30_encoding.md R70 to R79). -/
def Obligations.DecodeOfEncodeIsIdentity : Prop :=
  ∀ (i : Instr) (rest : List Byte), i.WellFormed → decode (encode i ++ rest) = .ok (i, rest)

/-- Whatever the decoder accepts is a well-formed instruction whose encoding is exactly the bytes it consumed: each
byte sequence has one meaning (30_encoding.md R70, R84). -/
def Obligations.DecodedBytesAreTheEncoding : Prop :=
  ∀ (bs rest : List Byte) (i : Instr), decode bs = .ok (i, rest) → i.WellFormed ∧ bs = encode i ++ rest

/-- The unrecognized bytes are exactly the 244 the spec lists (30_encoding.md R78). -/
def Obligations.UnrecognizedBytesAreTheListedOnes : Prop :=
  ∀ b : Byte, opcodeOf b = none ↔
    (0x01 ≤ b.toNat ∧ b.toNat ≤ 0x6C) ∨ (0x6E ≤ b.toNat ∧ b.toNat ≤ 0x8C) ∨ (0x8E ≤ b.toNat ∧ b.toNat ≤ 0x9F) ∨
    b.toNat = 0xA1 ∨ (0xA3 ≤ b.toNat ∧ b.toNat ≤ 0xA8) ∨ (0xAA ≤ b.toNat ∧ b.toNat ≤ 0xAC) ∨
    (0xAE ≤ b.toNat ∧ b.toNat ≤ 0xCF) ∨ (0xD1 ≤ b.toNat ∧ b.toNat ≤ 0xE9) ∨ b.toNat = 0xEB ∨ b.toNat = 0xED ∨
    (0xEF ≤ b.toNat ∧ b.toNat ≤ 0xFE)

/-! ## The store and the Translation Unit -/

/-- `Store.read()` (20_memory.md R42): in range it copies the cell into the data register and changes nothing else, so a
second read changes nothing; out of range it raises with the address register's value and changes nothing. -/
def Obligations.StoreReadCopiesCellOrRaises : Prop :=
  ∀ c : CoreState,
    (InRange c.AR →
      storeRead c = .ok () { c with DR := c.M.read c.AR.toNat } ∧
      (storeRead c).bind (fun _ c' => storeRead c') = storeRead c) ∧
    (¬ InRange c.AR → storeRead c = .raised (.addressOutOfRange c.AR) c)

/-- `Store.write()` (20_memory.md R43): in range it puts the data register into the addressed cell and changes that one
cell only; out of range it raises and changes nothing. -/
def Obligations.StoreWriteChangesOneCellOrRaises : Prop :=
  ∀ c : CoreState,
    (InRange c.AR → Memory.wf c.M →
      ∃ m, storeWrite c = .ok () { c with M := m } ∧ m.read c.AR.toNat = c.DR ∧
        ∀ a : Nat, (a : Int) ≠ c.AR → m.read a = c.M.read a) ∧
    (¬ InRange c.AR → storeWrite c = .raised (.addressOutOfRange c.AR) c)

/-- Round trip (20_memory.md R64): a write followed at once by a read at the same address register leaves the data
register as it was before the write. -/
def Obligations.WriteThenReadGivesTheByteBack : Prop :=
  ∀ c : CoreState, Memory.wf c.M → InRange c.AR →
    ∃ c', (storeWrite c).bind (fun _ c1 => storeRead c1) = .ok () c' ∧ c'.DR = c.DR ∧ c'.AR = c.AR ∧
      c'.M.read c.AR.toNat = c.DR

/-- The combiner (20_memory.md R46): the first byte is stashed and gives nothing; the second gives `hi*256 + lo`, sets it
into the address register and empties the stash. The result is always in range. -/
def Obligations.CombinerStashesThenAssembles : Prop :=
  ∀ (c : CoreState) (b : Byte),
    (c.STASH = none → tuCombine b c = (none, { c with STASH := some b })) ∧
    (∀ lo, c.STASH = some lo →
      tuCombine b c = (some ((b.toNat : Int) * 256 + lo.toNat),
        { c with AR := (b.toNat : Int) * 256 + lo.toNat, STASH := none }) ∧
      0 ≤ (b.toNat : Int) * 256 + lo.toNat ∧ (b.toNat : Int) * 256 + lo.toNat ≤ 65535)

/-- `TU.writeByte()` (20_memory.md R49): the data register takes the staged byte, then the store writes with its range
check; the staged byte stays. -/
def Obligations.WriteByteWritesTheStagedByte : Prop :=
  ∀ c : CoreState,
    (InRange c.AR →
      tuWriteByte c = .ok () { c with DR := c.STAGED, M := c.M.write c.AR.toNat c.STAGED }) ∧
    (¬ InRange c.AR → tuWriteByte c = .raised (.addressOutOfRange c.AR) { c with DR := c.STAGED })

/-- The composite accesses (20_memory.md R50). -/
def Obligations.CompositeAccessesGoThroughTheRegisterPair : Prop :=
  ∀ (c : CoreState) (a : Int) (v : Byte),
    (InRange a → memRead a c = .ok (c.M.read a.toNat) { c with AR := a, DR := c.M.read a.toNat }) ∧
    (InRange a → Memory.wf c.M → ∃ m, memWrite a v c = .ok () { c with AR := a, DR := v, STAGED := v, M := m } ∧
      m.read a.toNat = v ∧ ∀ b : Nat, (b : Int) ≠ a → m.read b = c.M.read b) ∧
    (¬ InRange a → memRead a c = .raised (.addressOutOfRange a) { c with AR := a } ∧
      memWrite a v c = .raised (.addressOutOfRange a) { c with AR := a, DR := v, STAGED := v })

/-- `FetchByte()` (40_pipeline.md R92): reads at `IP` and advances it; a faulting read has set `AR` and not advanced
`IP`. -/
def Obligations.FetchByteReadsAtIPAndAdvances : Prop :=
  ∀ c : CoreState,
    (InRange c.IP → fetchByte c = .ok (c.M.read c.IP.toNat)
      { c with AR := c.IP, DR := c.M.read c.IP.toNat, IP := c.IP + 1 }) ∧
    (¬ InRange c.IP → fetchByte c = .raised (.addressOutOfRange c.IP) { c with AR := c.IP })

/-- The model's memory form is canonical (the model's own, log entry 2): two well-formed memories whose 65536 cells read
the same are the same data. -/
def Obligations.EqualCellsAreEqualMemories : Prop :=
  ∀ m m' : Memory, Memory.wf m → Memory.wf m' → (∀ a < 65536, m.read a = m'.read a) → m = m'

/-! ## Interrupts and the clock -/

/-- `InterruptCheck()` (60_exceptions.md R172): with a pending request whose queue is not empty, exactly one byte is
dequeued and logged and the slot is emptied; in every other case nothing changes. -/
def Obligations.InterruptCheckDrainsOneByte : Prop :=
  ∀ s : State,
    (∀ n src b q, s.PEND = some n → s.REG[n]? = some src → src.queue = b :: q →
      interruptCheck s =
        { s with PEND := none, REG := s.REG.set n { src with queue := q }, OUT := s.OUT ++ [.irqServiced n b] }) ∧
    (s.PEND = none → interruptCheck s = s) ∧
    (∀ n src, s.PEND = some n → s.REG[n]? = some src → src.queue = [] → interruptCheck s = s)

/-- The controller's pulse (60_exceptions.md R168): of the requests in the buffer, all of registered sources, it delivers
the earliest one of the highest priority present, removes that one entry and leaves the others in their order; an empty
buffer changes nothing. -/
def Obligations.ControllerDeliversEarliestHighest : Prop :=
  ∀ s : State, (∀ n ∈ s.BUF, n < s.REG.length) →
    (s.BUF = [] → controllerPulse s = s) ∧
    (s.BUF ≠ [] → ∃ pre n post p, s.BUF = pre ++ n :: post ∧ requestPriority s.REG n = some p ∧
      controllerPulse s = { s with BUF := pre ++ post, PEND := some n } ∧
      (∀ m ∈ pre, ∀ q, requestPriority s.REG m = some q → q.level < p.level) ∧
      (∀ m ∈ post, ∀ q, requestPriority s.REG m = some q → q.level ≤ p.level))

/-- `register`, `submit`, `enqueue` (60_exceptions.md R163 to R165): the number returned is the registry's length before;
requests go to the end of the buffer, bytes to the tail of the source's queue; an unregistered number changes nothing. -/
def Obligations.SourcesRegisterSubmitEnqueue : Prop :=
  ∀ (s : State) (name : String) (p : Priority) (n : Nat) (b : Byte),
    registerSource name p s = (s.REG.length, { s with REG := s.REG ++ [⟨name, p, []⟩] }) ∧
    (n < s.REG.length → submitRequest n s = { s with BUF := s.BUF ++ [n] }) ∧
    (∀ src, s.REG[n]? = some src →
      enqueuePayload n b s = { s with REG := s.REG.set n { src with queue := src.queue ++ [b] } }) ∧
    (s.REG.length ≤ n → submitRequest n s = s ∧ enqueuePayload n b s = s)

/-- `Clock.start` (60_exceptions.md R179): arms and answers true; an armed clock is left as it is and answers false.
`Clock.stop` (R180) disarms and answers true. -/
def Obligations.ClockStartsOnceAndStops : Prop :=
  ∀ s : State,
    (s.ARMED = false → clockStart s = (true, { s with ARMED := true })) ∧
    (s.ARMED = true → clockStart s = (false, s)) ∧
    clockStop s = (true, { s with ARMED := false })

/-- A tick of a halted machine that was started again (60_exceptions.md R180, 40_pipeline.md R97): the processor does
nothing, the controller delivers, the halt check stops the clock. -/
def Obligations.HaltedTickDeliversAndStops : Prop :=
  ∀ s : State, s.STEP = .halted → s.HALT = true → s.ARMED = true → s.FAULT = none → s.ENV = [] →
    tick s = .ran { controllerPulse s with ARMED := false }

/-- At most one request is delivered per tick, whatever the buffer holds (60_exceptions.md R170), where the environment
makes no move in the tick. -/
def Obligations.OneDeliveryPerTick : Prop :=
  ∀ s t : State, s.ENV = [] → tick s = .ran t →
    t.BUF = s.BUF ∨ ∃ pre n post, s.BUF = pre ++ n :: post ∧ t.BUF = pre ++ post ∧ t.PEND = some n

/-- Latency (60_exceptions.md R177): a request the controller chooses in one tick is serviced at the end of the
processor's pulse of the next, if its queue is not empty then and the processor is not halted. -/
def Obligations.DeliveredRequestIsServicedNextTick : Prop :=
  ∀ (s t u : State) (n : Nat) (rest : List Nat) (src : Source) (b : Byte) (q : List Byte),
    s.ENV = [] → s.PEND = none → scanLevels s.REG s.BUF scanOrder = some (n, rest) →
    s.REG[n]? = some src → src.queue = b :: q →
    tick s = .ran t → t.STEP ≠ .halted → tick t = .ran u →
    t.PEND = some n ∧ t.BUF = rest ∧ u.REG[n]? = some { src with queue := q } ∧
      ∃ es, u.OUT = t.OUT ++ es ++ [.irqServiced n b]

/-- Interrupts are no hazard (60_exceptions.md R173, 70_reset_and_hazards.md R206): two running machines with the same
core, whatever their registries, buffers, slots and coming interrupt moves, take steps that end alike: the same core and
the same program output, or the same fault. -/
def Obligations.InterruptsLeaveTheCoreAlone : Prop :=
  ∀ s u : State, s.Running → u.Running → s.toCoreState = u.toCoreState →
    (∀ t, step s = .next t → ∃ v es, step u = .next v ∧ v.toCoreState = t.toCoreState ∧
      t.programOut = s.programOut ++ es ∧ v.programOut = u.programOut ++ es) ∧
    (∀ a t, step s = .fault (.addressOutOfRange a t) →
      ∃ v, step u = .fault (.addressOutOfRange a v) ∧ v.toCoreState = t.toCoreState) ∧
    (∀ t, step s = .fault (.protocolMisuse t) →
      ∃ v, step u = .fault (.protocolMisuse v) ∧ v.toCoreState = t.toCoreState)

/-- A source's IRQ number, name and priority never change and no source is removed (10_state.md R28, R35), through any
step. -/
def Obligations.RegistryIsAppendOnly : Prop :=
  ∀ (s t : State) (n : Nat) (src : Source), step s = .next t → s.REG[n]? = some src →
    ∃ src', t.REG[n]? = some src' ∧ src'.name = src.name ∧ src'.priority = src.priority

/-- The output trace is append-only (10_state.md R31), through any step. -/
def Obligations.OutputIsAppendOnly : Prop :=
  ∀ s t : State, step s = .next t → ∃ es, t.OUT = s.OUT ++ es

/-! ## The machine -/

/-- `Store.reset()` (20_memory.md R44) zeroes every cell and both store registers and touches nothing else; and the reset
state has the values that R33 of 10_state.md takes from the source (FETCH, every cell zero, both store registers zero), that
it marks as derived from it (`IP` 0, `HALT` false), and that are the spec's own records (`OUT` and `FAULT` empty): every row
of R33 that is no decision. -/
def Obligations.ResetValuesOfTheSource : Prop :=
  (∀ c : CoreState, (∀ a : Nat, (storeReset c).M.read a = 0#8) ∧
    storeReset c = { c with M := (storeReset c).M, AR := 0, DR := 0#8 }) ∧
  State.reset.IP = 0 ∧ State.reset.STEP = .fetch ∧ State.reset.HALT = false ∧
  (∀ a : Nat, State.reset.M.read a = 0#8) ∧ State.reset.AR = 0 ∧ State.reset.DR = 0#8 ∧
  State.reset.OUT = [] ∧ State.reset.FAULT = none

/-- The reset values that are the spec's decisions D19 and D20 (log entries 9 and 10), and the model's empty schedule
(log entry 4): the model's choices, not the source's. -/
def Obligations.ResetValuesChosen : Prop :=
  State.reset.IR = 0#8 ∧ State.reset.A = 0#8 ∧ State.reset.X = 0#8 ∧ State.reset.Y = 0#8 ∧ State.reset.CF = 0 ∧
  State.reset.SUB = 0 ∧ State.reset.SIP = 0 ∧ State.reset.PEND = none ∧ State.reset.STASH = none ∧
  State.reset.STAGED = 0#8 ∧ State.reset.REG = [] ∧ State.reset.BUF = [] ∧ State.reset.ARMED = false ∧
  State.reset.ENV = []

/-- The sound states include reset. -/
def Obligations.ResetIsSound : Prop := State.reset.Inv ∧ State.reset.PointerInv

/-- Every step from a sound state leads to a sound state, whatever the environment does: memory canonical, flag in range,
`HALT` exactly in HALTED, requests registered, `SUB`, `STASH` and `AR` as the stage needs them. -/
def Obligations.StepKeepsSoundness : Prop := ∀ s t : State, s.Inv → step s = .next t → t.Inv

/-- Nothing wraps: in sound states the instruction pointer leaves 0 to 65536 only by a branch, and then stands between
-126 and 65663 at FETCH (10_state.md R11, 93_implementation_defined.md U4). -/
def Obligations.StepKeepsPointerBounds : Prop :=
  ∀ s t : State, s.Inv → s.PointerInv → step s = .next t → t.PointerInv

/-- Nothing happens until the environment arms the clock (70_reset_and_hazards.md R193): while no move starts it, a step
changes no core register, no cell, no output, no delivered request. R193 says that no tick occurs; that a step then answers
the waiting state as a next state is the model's choice (log entry 5), and that the coming moves stand in a schedule is too
(log entry 4). -/
def Obligations.UnarmedClockFiresNoTick : Prop :=
  ∀ s : State, s.ARMED = false → s.FAULT = none → NoStart s.ENV →
    ∃ t, step s = .next t ∧ t.toCoreState = s.toCoreState ∧ t.OUT = s.OUT ∧ t.PEND = s.PEND ∧ t.ARMED = false

/-- A step runs the decoded instruction: where the bytes from `IP` on, as far as the store has cells, begin with an
instruction, a step at FETCH is that instruction's meaning. The meaning itself advances `IP` past its bytes. -/
def Obligations.StepRunsTheDecodedInstruction : Prop :=
  ∀ (s : State) (i : Instr) (rest : List Byte), s.FAULT = none → s.STEP = .fetch →
    decode (streamFrom s.M 3 s.IP) = .ok (i, rest) → step s = exec i s

/-- A step is the run of the machine's own ticks, each reading the instruction stream from memory and selected by `STEP`
and `IR`, up to the next instruction boundary (40_pipeline.md R90 to R102): from every state without a fault, whatever the
environment does. That a step is one instruction, that a paused machine answers next, and that a meaning has its operand
bytes delivered are the model's own forms (log entries 3, 5, 7); this says that the tick machine is behind them. -/
def Obligations.StepIsTheRunOfItsTicks : Prop :=
  ∀ s : State, s.FAULT = none → step s = (finishInstr s).toOutcome

/-- While `FAULT` is set no tick has any effect (60_exceptions.md R150): no tick runs, and a step reports the fault again,
with the state as it is. -/
def Obligations.FaultEndsTheRun : Prop :=
  ∀ (s : State) (r : FaultReason), s.FAULT = some r →
    (∃ t, tick s = .paused t ∧ t.toCoreState = s.toCoreState ∧ t.OUT = s.OUT ∧ t.PEND = s.PEND ∧ t.FAULT = some r) ∧
    step s = .fault (r.toFault s)

/-- A FETCH outside 0 to 65535 faults with the pointer's value (60_exceptions.md R151): `AR` is set, nothing else of the
core changes; so does every instruction's meaning there. -/
def Obligations.FetchOutsideTheStoreFaults : Prop :=
  ∀ (s : State) (i : Instr), s.Running → ¬ InRange s.IP →
    (∃ t, exec i s = .fault (.addressOutOfRange s.IP t) ∧ t.toCoreState = { s.toCoreState with AR := s.IP } ∧
      t.FAULT = some (.addressOutOfRange s.IP)) ∧
    (s.STEP = .fetch → ∃ t, step s = .fault (.addressOutOfRange s.IP t) ∧
      t.toCoreState = { s.toCoreState with AR := s.IP } ∧ t.FAULT = some (.addressOutOfRange s.IP))

/-- Liveness (40_pipeline.md R101): a step that does not fault ends at an instruction boundary, unless the clock was
stopped under it and no move of the environment is left. That exception is the model's: a paused machine answers next (log
entry 5), and the moves that are left stand in its schedule (log entry 4). -/
def Obligations.StepEndsAtABoundary : Prop :=
  ∀ s t : State, step s = .next t → AtBoundary t.toCoreState ∨ (t.ARMED = false ∧ t.ENV = [])

/-- HALTED has no exit and in it no pulse has any effect on the core (40_pipeline.md R97, 60_exceptions.md R185): core and
output stay as they are. That a step there answers next, where the clock is not armed and no tick comes, is the model's
choice (log entry 5). -/
def Obligations.HaltedCoreNeverChanges : Prop :=
  ∀ s : State, s.STEP = .halted → s.FAULT = none →
    ∃ t, step s = .next t ∧ t.toCoreState = s.toCoreState ∧ t.OUT = s.OUT

/-- The transition table of `STEP` (40_pipeline.md R97), row by row; in HALTED a processor pulse does nothing, the
interrupt check included. -/
def Obligations.StageTransitionTable : Prop :=
  (∀ s : State, s.STEP = .halted → processorPulse s = .done s) ∧
  ∀ (c c' : CoreState) (es : List Event), stageHandler c = .ok es c' →
    (c.STEP = .fetch → c'.STEP = .decode ∧ c'.SUB = 0) ∧
    (c.STEP = .decode → decodeClass c.IR = .direct → c'.STEP = .execute ∧ c'.SUB = c.SUB) ∧
    (c.STEP = .decode → decodeClass c.IR = .absolute → c.SUB = 0 → c'.STEP = .decode ∧ c'.SUB = 1) ∧
    (c.STEP = .decode → decodeClass c.IR = .absolute → c.SUB = 1 → c'.STEP = .execute ∧ c'.SUB = 0) ∧
    (c.STEP = .decode → decodeClass c.IR = .nop ∨ decodeClass c.IR = .unrecognized → c'.STEP = .fetch) ∧
    (c.STEP = .execute →
      opcodeOf c.IR = some .ldaImm ∨ opcodeOf c.IR = some .ldxImm ∨ opcodeOf c.IR = some .ldyImm ∨
        opcodeOf c.IR = some .adcAbs ∨ opcodeOf c.IR = some .bneRel → c'.STEP = .fetch) ∧
    (c.STEP = .execute → opcodeOf c.IR = some .ldaAbs ∨ opcodeOf c.IR = some .cpxAbs ∨
        opcodeOf c.IR = some .staAbs ∨ opcodeOf c.IR = some .incAbs → c.SUB = 0 → c'.STEP = .execute ∧ c'.SUB = 1) ∧
    (c.STEP = .execute → opcodeOf c.IR = some .ldaAbs ∨ opcodeOf c.IR = some .cpxAbs → c.SUB = 1 →
      c'.STEP = .fetch ∧ c'.SUB = 0) ∧
    (c.STEP = .execute → opcodeOf c.IR = some .staAbs ∨ opcodeOf c.IR = some .incAbs → c.SUB = 1 →
      c'.STEP = .writeback ∧ c'.SUB = 0) ∧
    (c.STEP = .execute → opcodeOf c.IR = some .brk → c'.STEP = .halted) ∧
    (c.STEP = .execute → opcodeOf c.IR = some .sys → c.SUB = 0 → c.X = 2#8 → c'.STEP = .execute ∧ c'.SUB = 1) ∧
    (c.STEP = .execute → opcodeOf c.IR = some .sys → c.SUB = 0 → c.X ≠ 2#8 → c'.STEP = .fetch) ∧
    (c.STEP = .execute → opcodeOf c.IR = some .sys → c.SUB = 1 → c.M.read c.IP.toNat ≠ 0#8 →
      c'.STEP = .execute ∧ c'.SUB = 1) ∧
    (c.STEP = .execute → opcodeOf c.IR = some .sys → c.SUB = 1 → c.M.read c.IP.toNat = 0#8 →
      c'.STEP = .fetch ∧ c'.SUB = 0) ∧
    (c.STEP = .writeback → c'.STEP = .fetch) ∧
    (c.STEP = .halted → c' = c ∧ es = [])

/-- DECODE of an absolute instruction (40_pipeline.md R93): the two halves, the two guards, the unreachable third arm. -/
def Obligations.AbsoluteDecodeCollectsTwoHalves : Prop :=
  ∀ c : CoreState,
    (c.SUB = 0 → c.STASH ≠ none → absoluteStage fetchByte c = .raised .protocolMisuse c) ∧
    (c.SUB = 0 → c.STASH = none → InRange c.IP →
      absoluteStage fetchByte c = .ok [] { c with
        AR := c.IP, DR := c.M.read c.IP.toNat, IP := c.IP + 1,
        STASH := some (c.M.read c.IP.toNat), SUB := 1 }) ∧
    (c.SUB = 1 → c.STASH = none → absoluteStage fetchByte c = .raised .protocolMisuse c) ∧
    (∀ lo, c.SUB = 1 → c.STASH = some lo → InRange c.IP →
      absoluteStage fetchByte c = .ok [] { c with
        AR := ((c.M.read c.IP.toNat).toNat : Int) * 256 + lo.toNat, DR := c.M.read c.IP.toNat, IP := c.IP + 1,
        STASH := none, SUB := 0, STEP := .execute }) ∧
    (¬ InRange c.IP → (c.SUB = 0 ∧ c.STASH = none) ∨ (c.SUB = 1 ∧ c.STASH ≠ none) →
      absoluteStage fetchByte c = .raised (.addressOutOfRange c.IP) { c with AR := c.IP }) ∧
    (c.SUB ≠ 0 → c.SUB ≠ 1 → absoluteStage fetchByte c = .ok [.unexpectedState] { c with SUB := 0, STEP := .fetch })

/-- The compare flag is written by CPX alone (10_state.md R16, 70_reset_and_hazards.md R202): through any step. -/
def Obligations.OnlyCpxWritesTheFlag : Prop :=
  ∀ s t : State, step s = .next t → t.CF ≠ s.CF → t.IR = 0xEC#8

/-- A cell changes only by STA or INC, and only the cell at the address register (10_state.md R24, 20_memory.md R43):
through any step. -/
def Obligations.OnlyStaAndIncWriteMemory : Prop :=
  ∀ (s t : State) (a : Nat), step s = .next t → t.M.read a ≠ s.M.read a →
    (t.IR = 0x8D#8 ∨ t.IR = 0xEE#8) ∧ (a : Int) = t.AR

/-- From a sound state the combiner is never misused (20_memory.md R65) and no stage meets what it has no arm for
(40_pipeline.md R103). -/
def Obligations.NoMisuseFromSoundStates : Prop :=
  ∀ s : State, s.Inv →
    (∀ t, step s ≠ .fault (.protocolMisuse t)) ∧
    (∀ t, step s = .next t → t.OUT.count .unexpectedState = s.OUT.count .unexpectedState)

/-- Stopping the clock in the middle of an instruction loses nothing (60_exceptions.md R180): when it is armed again the
instruction ends with the core, or the fault, it would have had without the stop. The premise, a step that answers next in
the middle of an instruction, is the model's way to show a paused machine (log entries 4 and 5); that the tick in which the
stop falls runs to its end is its choice (log entry 33). -/
def Obligations.PausedInstructionResumes : Prop :=
  ∀ s t u : State, u.Running → s.toCoreState = u.toCoreState → s.FAULT = none → step s = .next t →
    ¬ AtBoundary t.toCoreState →
    (∀ v, step u = .next v → ∃ w, step { t with ARMED := true, ENV := [] } = .next w ∧
      w.toCoreState = v.toCoreState) ∧
    (∀ a v, step u = .fault (.addressOutOfRange a v) →
      ∃ w, step { t with ARMED := true, ENV := [] } = .fault (.addressOutOfRange a w) ∧
        w.toCoreState = v.toCoreState) ∧
    (∀ v, step u = .fault (.protocolMisuse v) →
      ∃ w, step { t with ARMED := true, ENV := [] } = .fault (.protocolMisuse w) ∧ w.toCoreState = v.toCoreState)

/-! ## Frames -/

/-- What the instructions that store nothing leave unchanged, in every state and whatever the environment does: every
cell, the staged byte, and each register, the flag, the halt flag, the saved pointer, but where the instruction writes it
(41_load_store.md to 44_system.md). `IP`, `IR`, `AR`, `DR`, `STEP`, `SUB`, `STASH` are the pipeline's own. -/
def Obligations.NonStoringInstructionsFrame : Prop :=
  ∀ (s t : State) (i : Instr), (∀ a, i ≠ .staAbs a) → (∀ a, i ≠ .incAbs a) → exec i s = .next t →
    (∀ a : Nat, t.M.read a = s.M.read a) ∧ t.STAGED = s.STAGED ∧
    ((∀ b, i ≠ .ldaImm b) → (∀ a, i ≠ .ldaAbs a) → (∀ a, i ≠ .adcAbs a) → t.A = s.A) ∧
    ((∀ b, i ≠ .ldxImm b) → t.X = s.X) ∧
    ((∀ b, i ≠ .ldyImm b) → t.Y = s.Y) ∧
    ((∀ a, i ≠ .cpxAbs a) → t.CF = s.CF) ∧
    (i ≠ .brk → t.HALT = s.HALT) ∧
    (i ≠ .sys → t.SIP = s.SIP)

/-- What STA abs and INC abs leave unchanged, in every state and whatever the environment does: every register but the
pipeline's own, the flag, and every cell but the one at the address operand (41_load_store.md R114,
42_arithmetic_compare.md R121). -/
def Obligations.StoringInstructionsFrame : Prop :=
  ∀ (s t : State) (addr : Addr) (i : Instr), i = .staAbs addr ∨ i = .incAbs addr → exec i s = .next t →
    t.A = s.A ∧ t.X = s.X ∧ t.Y = s.Y ∧ t.CF = s.CF ∧ t.HALT = s.HALT ∧ t.SIP = s.SIP ∧
    ∀ a : Nat, (a : Int) ≠ addrWord addr → t.M.read a = s.M.read a

/-- Where nothing is pending and the environment makes no move, an instruction leaves the registry, the buffer and the
slot as they are, and the clock armed unless it is BRK (40_pipeline.md R90, 60_exceptions.md R168, R172). -/
def Obligations.QuietInstructionsLeaveInterruptsAlone : Prop :=
  ∀ (s t : State) (i : Instr), s.Running → s.Quiet → exec i s = .next t →
    t.REG = s.REG ∧ t.Quiet ∧ (i ≠ .brk → t.ARMED = true)

/-! ## Loads and stores -/

/-- LDA # (41_load_store.md R110): encoding, whole effect, its three ticks, its fault. -/
def Obligations.LdaImmLoadsTheConstant : Prop :=
  ∀ (imm : Byte) (s : State),
    encode (.ldaImm imm) = [0xA9#8, imm] ∧
    (s.Running → 0 ≤ s.IP → s.IP ≤ 65534 →
      ∃ t, exec (.ldaImm imm) s = .next t ∧
        t.toCoreState = { s.toCoreState with
          A := imm, IP := s.IP + 2, IR := 0xA9#8, AR := s.IP + 1, DR := imm, SUB := 0, STEP := .fetch } ∧
        t.programOut = s.programOut ∧ t.Running) ∧
    (FetchesBytes s [0xA9#8, imm] →
      Traces s [afterFetch 0xA9#8 s.toCoreState, afterDirect 0xA9#8 s.toCoreState,
        { s.toCoreState with
          A := imm, IP := s.IP + 2, IR := 0xA9#8, AR := s.IP + 1, DR := imm, SUB := 0, STEP := .fetch }]) ∧
    (s.Running → s.IP = 65535 →
      ∃ t, exec (.ldaImm imm) s = .fault (.addressOutOfRange 65536 t) ∧
        t.toCoreState = { afterDirect 0xA9#8 s.toCoreState with AR := 65536 } ∧ t.A = s.A ∧ t.IP = 65536)

/-- LDX # (41_load_store.md R111): encoding, whole effect, its three ticks, its fault. -/
def Obligations.LdxImmLoadsTheConstant : Prop :=
  ∀ (imm : Byte) (s : State),
    encode (.ldxImm imm) = [0xA2#8, imm] ∧
    (s.Running → 0 ≤ s.IP → s.IP ≤ 65534 →
      ∃ t, exec (.ldxImm imm) s = .next t ∧
        t.toCoreState = { s.toCoreState with
          X := imm, IP := s.IP + 2, IR := 0xA2#8, AR := s.IP + 1, DR := imm, SUB := 0, STEP := .fetch } ∧
        t.programOut = s.programOut ∧ t.Running) ∧
    (FetchesBytes s [0xA2#8, imm] →
      Traces s [afterFetch 0xA2#8 s.toCoreState, afterDirect 0xA2#8 s.toCoreState,
        { s.toCoreState with
          X := imm, IP := s.IP + 2, IR := 0xA2#8, AR := s.IP + 1, DR := imm, SUB := 0, STEP := .fetch }]) ∧
    (s.Running → s.IP = 65535 →
      ∃ t, exec (.ldxImm imm) s = .fault (.addressOutOfRange 65536 t) ∧
        t.toCoreState = { afterDirect 0xA2#8 s.toCoreState with AR := 65536 } ∧ t.X = s.X ∧ t.IP = 65536)

/-- LDY # (41_load_store.md R112): encoding, whole effect, its three ticks, its fault. -/
def Obligations.LdyImmLoadsTheConstant : Prop :=
  ∀ (imm : Byte) (s : State),
    encode (.ldyImm imm) = [0xA0#8, imm] ∧
    (s.Running → 0 ≤ s.IP → s.IP ≤ 65534 →
      ∃ t, exec (.ldyImm imm) s = .next t ∧
        t.toCoreState = { s.toCoreState with
          Y := imm, IP := s.IP + 2, IR := 0xA0#8, AR := s.IP + 1, DR := imm, SUB := 0, STEP := .fetch } ∧
        t.programOut = s.programOut ∧ t.Running) ∧
    (FetchesBytes s [0xA0#8, imm] →
      Traces s [afterFetch 0xA0#8 s.toCoreState, afterDirect 0xA0#8 s.toCoreState,
        { s.toCoreState with
          Y := imm, IP := s.IP + 2, IR := 0xA0#8, AR := s.IP + 1, DR := imm, SUB := 0, STEP := .fetch }]) ∧
    (s.Running → s.IP = 65535 →
      ∃ t, exec (.ldyImm imm) s = .fault (.addressOutOfRange 65536 t) ∧
        t.toCoreState = { afterDirect 0xA0#8 s.toCoreState with AR := 65536 } ∧ t.Y = s.Y ∧ t.IP = 65536)

/-- LDA abs (41_load_store.md R113): encoding, whole effect, its five ticks (the accumulator is the old one until the
fifth), its faults. -/
def Obligations.LdaAbsLoadsTheCell : Prop :=
  ∀ (addr : Addr) (s : State),
    encode (.ldaAbs addr) = [0xAD#8, addrLo addr, addrHi addr] ∧
    (s.Running → s.STASH = none → 0 ≤ s.IP → s.IP ≤ 65533 →
      ∃ t, exec (.ldaAbs addr) s = .next t ∧
        t.toCoreState = { s.toCoreState with
          A := s.M.read addr.toNat, IP := s.IP + 3, IR := 0xAD#8, AR := addrWord addr, DR := s.M.read addr.toNat,
          SUB := 0, STEP := .fetch } ∧
        t.programOut = s.programOut ∧ t.Running) ∧
    (s.STASH = none → FetchesBytes s [0xAD#8, addrLo addr, addrHi addr] →
      Traces s [afterFetch 0xAD#8 s.toCoreState, afterLow 0xAD#8 addr s.toCoreState,
        afterHigh 0xAD#8 addr s.toCoreState,
        { afterHigh 0xAD#8 addr s.toCoreState with DR := s.M.read addr.toNat, SUB := 1 },
        { s.toCoreState with
          A := s.M.read addr.toNat, IP := s.IP + 3, IR := 0xAD#8, AR := addrWord addr, DR := s.M.read addr.toNat,
          SUB := 0, STEP := .fetch }]) ∧
    (s.Running → s.STASH = none → AbsoluteFaults (.ldaAbs addr) 0xAD#8 addr s)

/-- STA abs (41_load_store.md R114): encoding, whole effect, its six ticks (memory changes in the sixth), its faults. -/
def Obligations.StaAbsStoresTheAccumulator : Prop :=
  ∀ (addr : Addr) (s : State),
    encode (.staAbs addr) = [0x8D#8, addrLo addr, addrHi addr] ∧
    (s.Running → s.STASH = none → 0 ≤ s.IP → s.IP ≤ 65533 →
      ∃ t, exec (.staAbs addr) s = .next t ∧
        t.toCoreState = { s.toCoreState with
          M := s.M.write addr.toNat s.A, IP := s.IP + 3, IR := 0x8D#8, AR := addrWord addr, DR := s.A, STAGED := s.A,
          SUB := 0, STEP := .fetch } ∧
        (Memory.wf s.M → t.M.read addr.toNat = s.A) ∧ t.programOut = s.programOut ∧ t.Running) ∧
    (s.STASH = none → FetchesBytes s [0x8D#8, addrLo addr, addrHi addr] →
      Traces s [afterFetch 0x8D#8 s.toCoreState, afterLow 0x8D#8 addr s.toCoreState,
        afterHigh 0x8D#8 addr s.toCoreState,
        { afterHigh 0x8D#8 addr s.toCoreState with STAGED := s.A, SUB := 1 },
        { afterHigh 0x8D#8 addr s.toCoreState with STAGED := s.A, STEP := .writeback },
        { s.toCoreState with
          M := s.M.write addr.toNat s.A, IP := s.IP + 3, IR := 0x8D#8, AR := addrWord addr, DR := s.A, STAGED := s.A,
          SUB := 0, STEP := .fetch }]) ∧
    (s.Running → s.STASH = none → AbsoluteFaults (.staAbs addr) 0x8D#8 addr s)

/-! ## Arithmetic and compare -/

/-- ADC abs (42_arithmetic_compare.md R120): encoding, whole effect with the sum modulo 256 and no flag, its four ticks,
its faults. -/
def Obligations.AdcAbsAddsWithoutCarry : Prop :=
  ∀ (addr : Addr) (s : State),
    encode (.adcAbs addr) = [0x6D#8, addrLo addr, addrHi addr] ∧
    (s.Running → s.STASH = none → 0 ≤ s.IP → s.IP ≤ 65533 →
      ∃ t, exec (.adcAbs addr) s = .next t ∧
        t.toCoreState = { s.toCoreState with
          A := s.A + s.M.read addr.toNat, IP := s.IP + 3, IR := 0x6D#8, AR := addrWord addr,
          DR := s.M.read addr.toNat, SUB := 0, STEP := .fetch } ∧
        t.A.toNat = (s.A.toNat + (s.M.read addr.toNat).toNat) % 256 ∧ t.programOut = s.programOut ∧ t.Running) ∧
    (s.STASH = none → FetchesBytes s [0x6D#8, addrLo addr, addrHi addr] →
      Traces s [afterFetch 0x6D#8 s.toCoreState, afterLow 0x6D#8 addr s.toCoreState,
        afterHigh 0x6D#8 addr s.toCoreState,
        { s.toCoreState with
          A := s.A + s.M.read addr.toNat, IP := s.IP + 3, IR := 0x6D#8, AR := addrWord addr,
          DR := s.M.read addr.toNat, SUB := 0, STEP := .fetch }]) ∧
    (s.Running → s.STASH = none → AbsoluteFaults (.adcAbs addr) 0x6D#8 addr s)

/-- INC abs (42_arithmetic_compare.md R121): encoding, whole effect with the increment modulo 256, no register and no flag
changed, its six ticks, its faults. -/
def Obligations.IncAbsIncrementsTheCell : Prop :=
  ∀ (addr : Addr) (s : State),
    encode (.incAbs addr) = [0xEE#8, addrLo addr, addrHi addr] ∧
    (s.Running → s.STASH = none → 0 ≤ s.IP → s.IP ≤ 65533 →
      ∃ t, exec (.incAbs addr) s = .next t ∧
        t.toCoreState = { s.toCoreState with
          M := s.M.write addr.toNat (s.M.read addr.toNat + 1#8), IP := s.IP + 3, IR := 0xEE#8, AR := addrWord addr,
          DR := s.M.read addr.toNat + 1#8, STAGED := s.M.read addr.toNat + 1#8, SUB := 0, STEP := .fetch } ∧
        (Memory.wf s.M → (t.M.read addr.toNat).toNat = ((s.M.read addr.toNat).toNat + 1) % 256) ∧
        t.programOut = s.programOut ∧ t.Running) ∧
    (s.STASH = none → FetchesBytes s [0xEE#8, addrLo addr, addrHi addr] →
      Traces s [afterFetch 0xEE#8 s.toCoreState, afterLow 0xEE#8 addr s.toCoreState,
        afterHigh 0xEE#8 addr s.toCoreState,
        { afterHigh 0xEE#8 addr s.toCoreState with DR := s.M.read addr.toNat, SUB := 1 },
        { afterHigh 0xEE#8 addr s.toCoreState with
          DR := s.M.read addr.toNat, STAGED := s.M.read addr.toNat + 1#8, STEP := .writeback },
        { s.toCoreState with
          M := s.M.write addr.toNat (s.M.read addr.toNat + 1#8), IP := s.IP + 3, IR := 0xEE#8, AR := addrWord addr,
          DR := s.M.read addr.toNat + 1#8, STAGED := s.M.read addr.toNat + 1#8, SUB := 0, STEP := .fetch }]) ∧
    (s.Running → s.STASH = none → AbsoluteFaults (.incAbs addr) 0xEE#8 addr s)

/-- CPX abs (42_arithmetic_compare.md R122): encoding, whole effect with the exact difference of the unsigned bytes, zero
exactly when they are equal, its five ticks, its faults. -/
def Obligations.CpxAbsSetsTheSignedDifference : Prop :=
  ∀ (addr : Addr) (s : State),
    encode (.cpxAbs addr) = [0xEC#8, addrLo addr, addrHi addr] ∧
    (s.Running → s.STASH = none → 0 ≤ s.IP → s.IP ≤ 65533 →
      ∃ t, exec (.cpxAbs addr) s = .next t ∧
        t.toCoreState = { s.toCoreState with
          CF := (s.X.toNat : Int) - (s.M.read addr.toNat).toNat, IP := s.IP + 3, IR := 0xEC#8, AR := addrWord addr,
          DR := s.M.read addr.toNat, SUB := 0, STEP := .fetch } ∧
        -255 ≤ t.CF ∧ t.CF ≤ 255 ∧ (t.CF = 0 ↔ s.X = s.M.read addr.toNat) ∧
        t.programOut = s.programOut ∧ t.Running) ∧
    (s.STASH = none → FetchesBytes s [0xEC#8, addrLo addr, addrHi addr] →
      Traces s [afterFetch 0xEC#8 s.toCoreState, afterLow 0xEC#8 addr s.toCoreState,
        afterHigh 0xEC#8 addr s.toCoreState,
        { afterHigh 0xEC#8 addr s.toCoreState with DR := s.M.read addr.toNat, SUB := 1 },
        { s.toCoreState with
          CF := (s.X.toNat : Int) - (s.M.read addr.toNat).toNat, IP := s.IP + 3, IR := 0xEC#8, AR := addrWord addr,
          DR := s.M.read addr.toNat, SUB := 0, STEP := .fetch }]) ∧
    (s.Running → s.STASH = none → AbsoluteFaults (.cpxAbs addr) 0xEC#8 addr s)

/-! ## Control -/

/-- BNE rel (43_control.md R130): encoding, both outcomes with exact addition of the two's-complement displacement, its
three ticks taken or not, its fault; a target outside the store faults at the next FETCH. -/
def Obligations.BneRelBranchesOnNonZeroFlag : Prop :=
  ∀ (rel : Byte) (s : State) (target : Int),
    (target = if s.CF ≠ 0 then s.IP + 2 + (if rel.toNat < 128 then (rel.toNat : Int) else rel.toNat - 256)
      else s.IP + 2) →
    encode (.bneRel rel) = [0xD0#8, rel] ∧
    (s.Running → 0 ≤ s.IP → s.IP ≤ 65534 →
      ∃ t, exec (.bneRel rel) s = .next t ∧
        t.toCoreState = { s.toCoreState with
          IP := target, IR := 0xD0#8, AR := s.IP + 1, DR := rel, SUB := 0, STEP := .fetch } ∧
        t.programOut = s.programOut ∧ t.Running ∧
        (¬ InRange target → ∃ u, step t = .fault (.addressOutOfRange target u))) ∧
    (FetchesBytes s [0xD0#8, rel] →
      Traces s [afterFetch 0xD0#8 s.toCoreState, afterDirect 0xD0#8 s.toCoreState,
        { s.toCoreState with
          IP := target, IR := 0xD0#8, AR := s.IP + 1, DR := rel, SUB := 0, STEP := .fetch }]) ∧
    (s.Running → s.IP = 65535 →
      ∃ t, exec (.bneRel rel) s = .fault (.addressOutOfRange 65536 t) ∧
        t.toCoreState = { afterDirect 0xD0#8 s.toCoreState with AR := 65536 })

/-- NOP (43_control.md R131): encoding, whole effect, its two ticks. -/
def Obligations.NopOnlyAdvances : Prop :=
  ∀ s : State,
    encode .nop = [0xEA#8] ∧
    (s.Running → InRange s.IP →
      ∃ t, exec .nop s = .next t ∧
        t.toCoreState = { s.toCoreState with
          IP := s.IP + 1, IR := 0xEA#8, AR := s.IP, DR := 0xEA#8, SUB := 0, STEP := .fetch } ∧
        t.programOut = s.programOut ∧ t.Running) ∧
    (FetchesBytes s [0xEA#8] →
      Traces s [afterFetch 0xEA#8 s.toCoreState,
        { s.toCoreState with
          IP := s.IP + 1, IR := 0xEA#8, AR := s.IP, DR := 0xEA#8, SUB := 0, STEP := .fetch }])

/-- BRK (43_control.md R132): encoding, whole effect with one HaltDump of the whole memory, its three ticks, and the clock
stopped at the end of the third. -/
def Obligations.BrkHaltsAndStopsTheClock : Prop :=
  ∀ s : State,
    encode .brk = [0x00#8] ∧
    (s.Running → InRange s.IP →
      ∃ t, exec .brk s = .next t ∧
        t.toCoreState = { s.toCoreState with
          HALT := true, IP := s.IP + 1, IR := 0x00#8, AR := s.IP, DR := 0x00#8, SUB := 0, STEP := .halted } ∧
        t.programOut = s.programOut ++ [.haltDump s.M] ∧ t.ARMED = false ∧ t.GoodEnd) ∧
    (FetchesBytes s [0x00#8] →
      Traces s [afterFetch 0x00#8 s.toCoreState, afterDirect 0x00#8 s.toCoreState,
        { s.toCoreState with
          HALT := true, IP := s.IP + 1, IR := 0x00#8, AR := s.IP, DR := 0x00#8, SUB := 0, STEP := .halted }])

/-- An unrecognized opcode (43_control.md R133): one byte, whole effect with one UnknownOpcode event, its two ticks; never
a fault of its own. -/
def Obligations.UnrecognizedOpcodeIsALoggedNop : Prop :=
  ∀ (op : Byte) (s : State), opcodeOf op = none →
    encode (.unrecognized op) = [op] ∧
    (s.Running → InRange s.IP →
      ∃ t, exec (.unrecognized op) s = .next t ∧
        t.toCoreState = { s.toCoreState with
          IP := s.IP + 1, IR := op, AR := s.IP, DR := op, SUB := 0, STEP := .fetch } ∧
        t.programOut = s.programOut ++ [.unknownOpcode op] ∧ t.Running) ∧
    (FetchesBytes s [op] →
      Traces s [afterFetch op s.toCoreState,
        { s.toCoreState with IP := s.IP + 1, IR := op, AR := s.IP, DR := op, SUB := 0, STEP := .fetch }])

/-! ## System call -/

/-- SYS in mode 1 (44_system.md R142): one PrintHex(Y), its three ticks. -/
def Obligations.SysModeOnePrintsY : Prop :=
  ∀ s : State, s.X = 1#8 →
    (s.Running → InRange s.IP →
      ∃ t, exec .sys s = .next t ∧
        t.toCoreState = { s.toCoreState with
          IP := s.IP + 1, IR := 0xFF#8, AR := s.IP, DR := 0xFF#8, SUB := 0, STEP := .fetch } ∧
        t.programOut = s.programOut ++ [.printHex s.Y] ∧ t.Running) ∧
    (FetchesBytes s [0xFF#8] →
      Traces s [afterFetch 0xFF#8 s.toCoreState, afterDirect 0xFF#8 s.toCoreState,
        { s.toCoreState with
          IP := s.IP + 1, IR := 0xFF#8, AR := s.IP, DR := 0xFF#8, SUB := 0, STEP := .fetch }])

/-- SYS in any mode but 1 and 2 (44_system.md R143): a three-tick no-op. -/
def Obligations.SysOtherModesDoNothing : Prop :=
  ∀ s : State, s.X ≠ 1#8 → s.X ≠ 2#8 →
    (s.Running → InRange s.IP →
      ∃ t, exec .sys s = .next t ∧
        t.toCoreState = { s.toCoreState with
          IP := s.IP + 1, IR := 0xFF#8, AR := s.IP, DR := 0xFF#8, SUB := 0, STEP := .fetch } ∧
        t.programOut = s.programOut ∧ t.Running) ∧
    (FetchesBytes s [0xFF#8] →
      Traces s [afterFetch 0xFF#8 s.toCoreState, afterDirect 0xFF#8 s.toCoreState,
        { s.toCoreState with
          IP := s.IP + 1, IR := 0xFF#8, AR := s.IP, DR := 0xFF#8, SUB := 0, STEP := .fetch }])

/-- SYS in mode 2 (44_system.md R141): a string of non-zero bytes and its terminator at `Y` are printed in order and `IP`
is restored; it takes one tick per byte read, `n + 4` in all, with the walk's cores as the rule gives them; a string
without a terminator prints everything up to address 65535 and faults at 65536. -/
def Obligations.SysModeTwoPrintsTheString : Prop :=
  ∀ (s : State) (str : List Byte), s.X = 2#8 → (∀ b ∈ str, b ≠ 0#8) →
    (s.Running → InRange s.IP → streamFrom s.M (str.length + 1) (zext s.Y) = str ++ [0#8] →
      ∃ t, exec .sys s = .next t ∧
        t.toCoreState = afterString str.length s.toCoreState ∧
        t.programOut = s.programOut ++ str.map Event.printChar ∧ t.Running ∧
        (FetchesBytes s [0xFF#8] →
          ticks (str.length + 4) s = .ran t ∧
          Traces s ([afterFetch 0xFF#8 s.toCoreState, afterDirect 0xFF#8 s.toCoreState, walkStart s.toCoreState] ++
            str.zipIdx.map (fun p => walkAfter p.2 p.1 s.toCoreState) ++
            [afterString str.length s.toCoreState]))) ∧
    (s.Running → InRange s.IP → zext s.Y + str.length = 65536 → streamFrom s.M str.length (zext s.Y) = str →
      ∃ t, exec .sys s = .fault (.addressOutOfRange 65536 t) ∧ t.IP = 65536 ∧ t.AR = 65536 ∧ t.SIP = s.IP + 1 ∧
        t.SUB = 1 ∧ t.STEP = .execute ∧ t.programOut = s.programOut ++ str.map Event.printChar)

/-! ## Boot -/

/-- `TU.flashProgram` (20_memory.md R63): bytes go to consecutive cells through the register pair, every other cell is
left; a sequence with an element above 255 is refused as a whole; an armed clock refuses it (70_reset_and_hazards.md
R198; what counts as armed is the model's choice, log entry 20); an empty sequence changes nothing; running past the
last cell, or starting outside, faults with the earlier elements written. -/
def Obligations.FlashWritesConsecutiveCells : Prop :=
  ∀ (s : State) (origin : Nat) (bytes : List Nat), Memory.wf s.M →
    (s.ARMED = true → flashProgram origin bytes s = .refused .flashWhileArmed) ∧
    (s.ARMED = false → (∃ v ∈ bytes, 255 < v) → ∃ v, 255 < v ∧
      flashProgram origin bytes s = .refused (.flashElementTooLarge v)) ∧
    (s.ARMED = false → bytes = [] → flashProgram origin bytes s = .next s) ∧
    (s.ARMED = false → (∀ v ∈ bytes, v ≤ 255) → origin + bytes.length ≤ 65536 → bytes ≠ [] →
      ∃ m last, bytes.getLast? = some last ∧
        flashProgram origin bytes s = .next { s with
          M := m, AR := (origin : Int) + bytes.length - 1, DR := BitVec.ofNat 8 last, STAGED := BitVec.ofNat 8 last } ∧
        (∀ k v, bytes[k]? = some v → (m.read (origin + k)).toNat = v) ∧
        (∀ a, a < origin ∨ origin + bytes.length ≤ a → m.read a = s.M.read a)) ∧
    (s.ARMED = false → (∀ v ∈ bytes, v ≤ 255) → origin ≤ 65535 → 65536 < origin + bytes.length →
      ∃ t, flashProgram origin bytes s = .fault (.addressOutOfRange 65536 t) ∧ t.AR = 65536 ∧
        t.FAULT = some (.addressOutOfRange 65536) ∧
        ∀ k v, origin + k ≤ 65535 → bytes[k]? = some v → (t.M.read (origin + k)).toNat = v) ∧
    (∀ o : Int, s.ARMED = false → (∀ v ∈ bytes, v ≤ 255) → bytes ≠ [] → ¬ InRange o →
      ∃ t, flashProgram o bytes s = .fault (.addressOutOfRange o t) ∧ t.M = s.M ∧ t.AR = o)

/-- The boot sequence (70_reset_and_hazards.md R196): after it the clock is armed, every register of the processor is as reset
left it, the sources have the numbers of their places, and the program stands at 0. -/
def Obligations.BootLoadsAndArms : Prop :=
  ∀ (sources : List (String × Priority)) (program : List Nat),
    program.length ≤ 65536 → (∀ v ∈ program, v ≤ 255) →
    ∃ t, boot sources program = .next t ∧ t.ARMED = true ∧ t.FAULT = none ∧ t.BUF = [] ∧ t.PEND = none ∧
      t.OUT = [] ∧ t.IP = 0 ∧ t.STEP = .fetch ∧ t.SUB = 0 ∧ t.STASH = none ∧ t.HALT = false ∧
      t.A = State.reset.A ∧ t.X = State.reset.X ∧ t.Y = State.reset.Y ∧ t.CF = State.reset.CF ∧
      t.IR = State.reset.IR ∧ t.SIP = State.reset.SIP ∧
      t.REG = sources.map (fun p => ⟨p.1, p.2, []⟩) ∧
      (∀ k v, program[k]? = some v → (t.M.read k).toNat = v) ∧
      (∀ a, program.length ≤ a → t.M.read a = 0#8)
end

