-- ==== Sys2Proof/Laws/Memory.lean ====
section
/-! SUPPORT. Reading after writing, and that writing keeps the canonical form. -/

namespace Sys2Proof.Machine

@[simp] theorem Memory.read_nil (a : Nat) : Memory.read [] a = unlistedByte := rfl

theorem Memory.read_consCell (k : Nat) (v : Byte) (rest : Memory) (a : Nat)
    (h : ∀ c ∈ rest, k < c.1) :
    Memory.read (Memory.consCell k v rest) a = if k = a then v else Memory.read rest a := by
  unfold Memory.consCell
  split
  · rename_i hv
    split
    · rename_i hka
      subst hka hv
      induction rest with
      | nil => rfl
      | cons c rest ih =>
        obtain ⟨j, w⟩ := c
        have hj : k < j := h (j, w) (by simp)
        simp only [Memory.read, if_neg (Nat.ne_of_gt hj)]
        exact ih fun c hc => h c (by simp [hc])
    · rfl
  · rfl

/-- Reading a cell after a write: the written value at the written address, the old value everywhere else
(20_memory.md R43). -/
theorem Memory.read_write (m : Memory) (hm : Memory.wf m) (a : Nat) (v : Byte) (b : Nat) :
    (m.write a v).read b = if a = b then v else m.read b := by
  induction m with
  | nil => simp [Memory.write, Memory.read_consCell]
  | cons c rest ih =>
    obtain ⟨k, w⟩ := c
    obtain ⟨hp, hc⟩ := hm
    rw [List.pairwise_cons] at hp
    have hrest : Memory.wf rest := ⟨hp.2, fun c h => hc c (by simp [h])⟩
    unfold Memory.write
    split
    · rename_i hak
      rw [Memory.read_consCell]
      intro c hc'
      rcases List.mem_cons.1 hc' with rfl | hc'
      · exact hak
      · exact lt_trans hak (hp.1 c hc')
    · split
      · rename_i _ hak
        subst hak
        rw [Memory.read_consCell _ _ _ _ hp.1]
        by_cases hab : a = b <;> simp [Memory.read, hab]
      · rename_i _ hak
        simp only [Memory.read, ih hrest]
        by_cases hkb : k = b
        · subst hkb; simp [hak]
        · simp [hkb]

theorem Memory.read_write_same (m : Memory) (hm : Memory.wf m) (a : Nat) (v : Byte) :
    (m.write a v).read a = v := by
  simp [Memory.read_write m hm]

/-- A write leaves every other cell as it was, whatever the list (20_memory.md R43: it changes one cell only). -/
theorem Memory.read_write_other (m : Memory) (a : Nat) (v : Byte) (b : Nat) (h : b ≠ a) :
    (m.write a v).read b = m.read b := by
  have hcons : ∀ rest : Memory, (Memory.consCell a v rest).read b = rest.read b := by
    intro rest
    unfold Memory.consCell
    split
    · rfl
    · simp [Memory.read, Ne.symm h]
  induction m with
  | nil => exact hcons []
  | cons c rest ih =>
    obtain ⟨k, w⟩ := c
    unfold Memory.write
    split
    · exact hcons _
    · split
      · rename_i _ hak
        rw [hcons]
        simp [Memory.read, ← hak, Ne.symm h]
      · simp only [Memory.read, ih]

/-- Every entry after a write is an old entry or the written one. -/
theorem Memory.mem_write (m : Memory) (a : Nat) (v : Byte) (c : Host.Cell) (h : c ∈ m.write a v) :
    c ∈ m ∨ (c = (a, v) ∧ v ≠ unlistedByte) := by
  induction m with
  | nil =>
    unfold Memory.write Memory.consCell at h
    split at h <;> simp_all
  | cons d rest ih =>
    obtain ⟨k, w⟩ := d
    unfold Memory.write Memory.consCell at h
    split at h
    · split at h <;> simp_all; tauto
    · split at h
      · split at h <;> simp_all; tauto
      · rcases List.mem_cons.1 h with h | h
        · simp [h]
        · rcases ih h with h | h
          · simp [h]
          · exact .inr h

theorem Memory.wf_nil : Memory.wf [] := ⟨List.Pairwise.nil, by simp⟩

/-- A write to a cell keeps the canonical form. -/
theorem Memory.wf_write (m : Memory) (hm : Memory.wf m) (a : Nat) (ha : a < Config.memSize) (v : Byte) :
    Memory.wf (m.write a v) := by
  refine ⟨?_, fun c h => ?_⟩
  · obtain ⟨hp, -⟩ := hm
    induction m with
    | nil => unfold Memory.write Memory.consCell; split <;> simp
    | cons d rest ih =>
      obtain ⟨k, w⟩ := d
      rw [List.pairwise_cons] at hp
      unfold Memory.write Memory.consCell
      split
      · rename_i hak
        split
        · exact List.pairwise_cons.2 hp
        · refine List.pairwise_cons.2 ⟨fun c hc => ?_, List.pairwise_cons.2 hp⟩
          rcases List.mem_cons.1 hc with rfl | hc
          · exact hak
          · exact lt_trans hak (hp.1 c hc)
      · split
        · rename_i _ hak
          subst hak
          split
          · exact hp.2
          · exact List.pairwise_cons.2 hp
        · rename_i h1 h2
          refine List.pairwise_cons.2 ⟨fun c hc => ?_, ih hp.2⟩
          rcases Memory.mem_write rest a v c hc with hc | ⟨rfl, -⟩
          · exact hp.1 c hc
          · show k < a
            omega
  · rcases Memory.mem_write m a v c h with h | ⟨rfl, hv⟩
    · exact hm.2 c h
    · exact ⟨ha, hv⟩

end Sys2Proof.Machine
end

