-- ==== Sys2Proof/Laws/State.lean ====
section
/-! SUPPORT. One lemma per field per named update of the state, so that no later proof unfolds an update. -/

namespace Sys2Proof.Machine

/-! ## Updates of the core -/

@[simp] theorem storeSetAddressRegister_IP (w : Int) (c : CoreState) : (storeSetAddressRegister w c).IP = c.IP := rfl
@[simp] theorem storeSetAddressRegister_IR (w : Int) (c : CoreState) : (storeSetAddressRegister w c).IR = c.IR := rfl
@[simp] theorem storeSetAddressRegister_A (w : Int) (c : CoreState) : (storeSetAddressRegister w c).A = c.A := rfl
@[simp] theorem storeSetAddressRegister_X (w : Int) (c : CoreState) : (storeSetAddressRegister w c).X = c.X := rfl
@[simp] theorem storeSetAddressRegister_Y (w : Int) (c : CoreState) : (storeSetAddressRegister w c).Y = c.Y := rfl
@[simp] theorem storeSetAddressRegister_CF (w : Int) (c : CoreState) : (storeSetAddressRegister w c).CF = c.CF := rfl
@[simp] theorem storeSetAddressRegister_STEP (w : Int) (c : CoreState) : (storeSetAddressRegister w c).STEP = c.STEP := rfl
@[simp] theorem storeSetAddressRegister_SUB (w : Int) (c : CoreState) : (storeSetAddressRegister w c).SUB = c.SUB := rfl
@[simp] theorem storeSetAddressRegister_HALT (w : Int) (c : CoreState) : (storeSetAddressRegister w c).HALT = c.HALT := rfl
@[simp] theorem storeSetAddressRegister_SIP (w : Int) (c : CoreState) : (storeSetAddressRegister w c).SIP = c.SIP := rfl
@[simp] theorem storeSetAddressRegister_AR (w : Int) (c : CoreState) : (storeSetAddressRegister w c).AR = w := rfl
@[simp] theorem storeSetAddressRegister_DR (w : Int) (c : CoreState) : (storeSetAddressRegister w c).DR = c.DR := rfl
@[simp] theorem storeSetAddressRegister_M (w : Int) (c : CoreState) : (storeSetAddressRegister w c).M = c.M := rfl
@[simp] theorem storeSetAddressRegister_STASH (w : Int) (c : CoreState) : (storeSetAddressRegister w c).STASH = c.STASH := rfl
@[simp] theorem storeSetAddressRegister_STAGED (w : Int) (c : CoreState) : (storeSetAddressRegister w c).STAGED = c.STAGED := rfl

@[simp] theorem storeSetDataRegister_IP (b : Byte) (c : CoreState) : (storeSetDataRegister b c).IP = c.IP := rfl
@[simp] theorem storeSetDataRegister_IR (b : Byte) (c : CoreState) : (storeSetDataRegister b c).IR = c.IR := rfl
@[simp] theorem storeSetDataRegister_A (b : Byte) (c : CoreState) : (storeSetDataRegister b c).A = c.A := rfl
@[simp] theorem storeSetDataRegister_X (b : Byte) (c : CoreState) : (storeSetDataRegister b c).X = c.X := rfl
@[simp] theorem storeSetDataRegister_Y (b : Byte) (c : CoreState) : (storeSetDataRegister b c).Y = c.Y := rfl
@[simp] theorem storeSetDataRegister_CF (b : Byte) (c : CoreState) : (storeSetDataRegister b c).CF = c.CF := rfl
@[simp] theorem storeSetDataRegister_STEP (b : Byte) (c : CoreState) : (storeSetDataRegister b c).STEP = c.STEP := rfl
@[simp] theorem storeSetDataRegister_SUB (b : Byte) (c : CoreState) : (storeSetDataRegister b c).SUB = c.SUB := rfl
@[simp] theorem storeSetDataRegister_HALT (b : Byte) (c : CoreState) : (storeSetDataRegister b c).HALT = c.HALT := rfl
@[simp] theorem storeSetDataRegister_SIP (b : Byte) (c : CoreState) : (storeSetDataRegister b c).SIP = c.SIP := rfl
@[simp] theorem storeSetDataRegister_AR (b : Byte) (c : CoreState) : (storeSetDataRegister b c).AR = c.AR := rfl
@[simp] theorem storeSetDataRegister_DR (b : Byte) (c : CoreState) : (storeSetDataRegister b c).DR = b := rfl
@[simp] theorem storeSetDataRegister_M (b : Byte) (c : CoreState) : (storeSetDataRegister b c).M = c.M := rfl
@[simp] theorem storeSetDataRegister_STASH (b : Byte) (c : CoreState) : (storeSetDataRegister b c).STASH = c.STASH := rfl
@[simp] theorem storeSetDataRegister_STAGED (b : Byte) (c : CoreState) : (storeSetDataRegister b c).STAGED = c.STAGED := rfl

@[simp] theorem tuSetAddress_IP (w : Int) (c : CoreState) : (tuSetAddress w c).IP = c.IP := rfl
@[simp] theorem tuSetAddress_IR (w : Int) (c : CoreState) : (tuSetAddress w c).IR = c.IR := rfl
@[simp] theorem tuSetAddress_A (w : Int) (c : CoreState) : (tuSetAddress w c).A = c.A := rfl
@[simp] theorem tuSetAddress_X (w : Int) (c : CoreState) : (tuSetAddress w c).X = c.X := rfl
@[simp] theorem tuSetAddress_Y (w : Int) (c : CoreState) : (tuSetAddress w c).Y = c.Y := rfl
@[simp] theorem tuSetAddress_CF (w : Int) (c : CoreState) : (tuSetAddress w c).CF = c.CF := rfl
@[simp] theorem tuSetAddress_STEP (w : Int) (c : CoreState) : (tuSetAddress w c).STEP = c.STEP := rfl
@[simp] theorem tuSetAddress_SUB (w : Int) (c : CoreState) : (tuSetAddress w c).SUB = c.SUB := rfl
@[simp] theorem tuSetAddress_HALT (w : Int) (c : CoreState) : (tuSetAddress w c).HALT = c.HALT := rfl
@[simp] theorem tuSetAddress_SIP (w : Int) (c : CoreState) : (tuSetAddress w c).SIP = c.SIP := rfl
@[simp] theorem tuSetAddress_AR (w : Int) (c : CoreState) : (tuSetAddress w c).AR = w := rfl
@[simp] theorem tuSetAddress_DR (w : Int) (c : CoreState) : (tuSetAddress w c).DR = c.DR := rfl
@[simp] theorem tuSetAddress_M (w : Int) (c : CoreState) : (tuSetAddress w c).M = c.M := rfl
@[simp] theorem tuSetAddress_STASH (w : Int) (c : CoreState) : (tuSetAddress w c).STASH = c.STASH := rfl
@[simp] theorem tuSetAddress_STAGED (w : Int) (c : CoreState) : (tuSetAddress w c).STAGED = c.STAGED := rfl

@[simp] theorem tuStageWrite_IP (b : Byte) (c : CoreState) : (tuStageWrite b c).IP = c.IP := rfl
@[simp] theorem tuStageWrite_IR (b : Byte) (c : CoreState) : (tuStageWrite b c).IR = c.IR := rfl
@[simp] theorem tuStageWrite_A (b : Byte) (c : CoreState) : (tuStageWrite b c).A = c.A := rfl
@[simp] theorem tuStageWrite_X (b : Byte) (c : CoreState) : (tuStageWrite b c).X = c.X := rfl
@[simp] theorem tuStageWrite_Y (b : Byte) (c : CoreState) : (tuStageWrite b c).Y = c.Y := rfl
@[simp] theorem tuStageWrite_CF (b : Byte) (c : CoreState) : (tuStageWrite b c).CF = c.CF := rfl
@[simp] theorem tuStageWrite_STEP (b : Byte) (c : CoreState) : (tuStageWrite b c).STEP = c.STEP := rfl
@[simp] theorem tuStageWrite_SUB (b : Byte) (c : CoreState) : (tuStageWrite b c).SUB = c.SUB := rfl
@[simp] theorem tuStageWrite_HALT (b : Byte) (c : CoreState) : (tuStageWrite b c).HALT = c.HALT := rfl
@[simp] theorem tuStageWrite_SIP (b : Byte) (c : CoreState) : (tuStageWrite b c).SIP = c.SIP := rfl
@[simp] theorem tuStageWrite_AR (b : Byte) (c : CoreState) : (tuStageWrite b c).AR = c.AR := rfl
@[simp] theorem tuStageWrite_DR (b : Byte) (c : CoreState) : (tuStageWrite b c).DR = c.DR := rfl
@[simp] theorem tuStageWrite_M (b : Byte) (c : CoreState) : (tuStageWrite b c).M = c.M := rfl
@[simp] theorem tuStageWrite_STASH (b : Byte) (c : CoreState) : (tuStageWrite b c).STASH = c.STASH := rfl
@[simp] theorem tuStageWrite_STAGED (b : Byte) (c : CoreState) : (tuStageWrite b c).STAGED = b := rfl

@[simp] theorem storeReset_IP (c : CoreState) : (storeReset c).IP = c.IP := rfl
@[simp] theorem storeReset_IR (c : CoreState) : (storeReset c).IR = c.IR := rfl
@[simp] theorem storeReset_A (c : CoreState) : (storeReset c).A = c.A := rfl
@[simp] theorem storeReset_X (c : CoreState) : (storeReset c).X = c.X := rfl
@[simp] theorem storeReset_Y (c : CoreState) : (storeReset c).Y = c.Y := rfl
@[simp] theorem storeReset_CF (c : CoreState) : (storeReset c).CF = c.CF := rfl
@[simp] theorem storeReset_STEP (c : CoreState) : (storeReset c).STEP = c.STEP := rfl
@[simp] theorem storeReset_SUB (c : CoreState) : (storeReset c).SUB = c.SUB := rfl
@[simp] theorem storeReset_HALT (c : CoreState) : (storeReset c).HALT = c.HALT := rfl
@[simp] theorem storeReset_SIP (c : CoreState) : (storeReset c).SIP = c.SIP := rfl
@[simp] theorem storeReset_AR (c : CoreState) : (storeReset c).AR = 0 := rfl
@[simp] theorem storeReset_DR (c : CoreState) : (storeReset c).DR = 0#8 := rfl
@[simp] theorem storeReset_M (c : CoreState) : (storeReset c).M = [] := rfl
@[simp] theorem storeReset_STASH (c : CoreState) : (storeReset c).STASH = c.STASH := rfl
@[simp] theorem storeReset_STAGED (c : CoreState) : (storeReset c).STAGED = c.STAGED := rfl

/-! ## Updates around the core -/

@[simp] theorem setInterrupt_toCoreState (n : Nat) (s : State) : (setInterrupt n s).toCoreState = s.toCoreState := rfl
@[simp] theorem setInterrupt_PEND (n : Nat) (s : State) : (setInterrupt n s).PEND = some n := rfl
@[simp] theorem setInterrupt_REG (n : Nat) (s : State) : (setInterrupt n s).REG = s.REG := rfl
@[simp] theorem setInterrupt_BUF (n : Nat) (s : State) : (setInterrupt n s).BUF = s.BUF := rfl
@[simp] theorem setInterrupt_ARMED (n : Nat) (s : State) : (setInterrupt n s).ARMED = s.ARMED := rfl
@[simp] theorem setInterrupt_OUT (n : Nat) (s : State) : (setInterrupt n s).OUT = s.OUT := rfl
@[simp] theorem setInterrupt_FAULT (n : Nat) (s : State) : (setInterrupt n s).FAULT = s.FAULT := rfl
@[simp] theorem setInterrupt_ENV (n : Nat) (s : State) : (setInterrupt n s).ENV = s.ENV := rfl

@[simp] theorem raiseFault_toCoreState (r : FaultReason) (s : State) : (raiseFault r s).toCoreState = s.toCoreState := rfl
@[simp] theorem raiseFault_PEND (r : FaultReason) (s : State) : (raiseFault r s).PEND = s.PEND := rfl
@[simp] theorem raiseFault_REG (r : FaultReason) (s : State) : (raiseFault r s).REG = s.REG := rfl
@[simp] theorem raiseFault_BUF (r : FaultReason) (s : State) : (raiseFault r s).BUF = s.BUF := rfl
@[simp] theorem raiseFault_ARMED (r : FaultReason) (s : State) : (raiseFault r s).ARMED = s.ARMED := rfl
@[simp] theorem raiseFault_OUT (r : FaultReason) (s : State) : (raiseFault r s).OUT = s.OUT := rfl
@[simp] theorem raiseFault_FAULT (r : FaultReason) (s : State) : (raiseFault r s).FAULT = some r := rfl
@[simp] theorem raiseFault_ENV (r : FaultReason) (s : State) : (raiseFault r s).ENV = s.ENV := rfl

@[simp] theorem emitAll_toCoreState (es : List Event) (s : State) : (emitAll es s).toCoreState = s.toCoreState := rfl
@[simp] theorem emitAll_PEND (es : List Event) (s : State) : (emitAll es s).PEND = s.PEND := rfl
@[simp] theorem emitAll_REG (es : List Event) (s : State) : (emitAll es s).REG = s.REG := rfl
@[simp] theorem emitAll_BUF (es : List Event) (s : State) : (emitAll es s).BUF = s.BUF := rfl
@[simp] theorem emitAll_ARMED (es : List Event) (s : State) : (emitAll es s).ARMED = s.ARMED := rfl
@[simp] theorem emitAll_OUT (es : List Event) (s : State) : (emitAll es s).OUT = s.OUT ++ es := rfl
@[simp] theorem emitAll_FAULT (es : List Event) (s : State) : (emitAll es s).FAULT = s.FAULT := rfl
@[simp] theorem emitAll_ENV (es : List Event) (s : State) : (emitAll es s).ENV = s.ENV := rfl

@[simp] theorem clockStop_toCoreState (s : State) : (clockStop s).2.toCoreState = s.toCoreState := rfl
@[simp] theorem clockStop_PEND (s : State) : (clockStop s).2.PEND = s.PEND := rfl
@[simp] theorem clockStop_REG (s : State) : (clockStop s).2.REG = s.REG := rfl
@[simp] theorem clockStop_BUF (s : State) : (clockStop s).2.BUF = s.BUF := rfl
@[simp] theorem clockStop_ARMED (s : State) : (clockStop s).2.ARMED = false := rfl
@[simp] theorem clockStop_OUT (s : State) : (clockStop s).2.OUT = s.OUT := rfl
@[simp] theorem clockStop_FAULT (s : State) : (clockStop s).2.FAULT = s.FAULT := rfl
@[simp] theorem clockStop_ENV (s : State) : (clockStop s).2.ENV = s.ENV := rfl

@[simp] theorem clockStart_toCoreState (s : State) : (clockStart s).2.toCoreState = s.toCoreState := by
  unfold clockStart; split <;> rfl
@[simp] theorem clockStart_PEND (s : State) : (clockStart s).2.PEND = s.PEND := by
  unfold clockStart; split <;> rfl
@[simp] theorem clockStart_REG (s : State) : (clockStart s).2.REG = s.REG := by
  unfold clockStart; split <;> rfl
@[simp] theorem clockStart_BUF (s : State) : (clockStart s).2.BUF = s.BUF := by
  unfold clockStart; split <;> rfl
@[simp] theorem clockStart_ARMED (s : State) : (clockStart s).2.ARMED = true := by
  unfold clockStart; split <;> simp_all
@[simp] theorem clockStart_OUT (s : State) : (clockStart s).2.OUT = s.OUT := by
  unfold clockStart; split <;> rfl
@[simp] theorem clockStart_FAULT (s : State) : (clockStart s).2.FAULT = s.FAULT := by
  unfold clockStart; split <;> rfl
@[simp] theorem clockStart_ENV (s : State) : (clockStart s).2.ENV = s.ENV := by
  unfold clockStart; split <;> rfl

@[simp] theorem storePulse_eq (s : State) : storePulse s = s := rfl

end Sys2Proof.Machine
end

