-- ==== Sys2Proof/Laws/Ops.lean ====
section
/-! SUPPORT. What each shared operation of Machine/Ops.lean and Machine/Tick.lean can do, said once. -/

namespace Sys2Proof.Machine

/-! ## Res -/

@[simp] theorem Res.bind_ok {α β : Type} (a : α) (c : CoreState) (f : α → CoreState → Res β) :
    (Res.ok a c).bind f = f a c := rfl

@[simp] theorem Res.bind_raised {α β : Type} (r : FaultReason) (c : CoreState) (f : α → CoreState → Res β) :
    (Res.raised r c : Res α).bind f = .raised r c := rfl

/-- What a bind that ends well went through. -/
theorem Res.bind_eq_ok {α β : Type} (r : Res α) (f : α → CoreState → Res β) (b : β) (c' : CoreState) :
    r.bind f = .ok b c' ↔ ∃ a c, r = .ok a c ∧ f a c = .ok b c' := by
  cases r <;> simp [Res.bind]

/-! ## The store and the Translation Unit -/

theorem storeRead_ok (c : CoreState) (h : InRange c.AR) :
    storeRead c = .ok () { c with DR := c.M.read c.AR.toNat } := by
  simp [storeRead, h, storeSetDataRegister]

theorem storeRead_raised (c : CoreState) (h : ¬ InRange c.AR) :
    storeRead c = .raised (.addressOutOfRange c.AR) c := by
  simp only [storeRead, if_neg h]

theorem storeWrite_ok (c : CoreState) (h : InRange c.AR) :
    storeWrite c = .ok () { c with M := c.M.write c.AR.toNat c.DR } := by
  simp [storeWrite, h]

theorem storeWrite_raised (c : CoreState) (h : ¬ InRange c.AR) :
    storeWrite c = .raised (.addressOutOfRange c.AR) c := by
  simp only [storeWrite, if_neg h]

/-- `TU.readByte()` in range: the data register and the value are the addressed cell's. -/
theorem tuReadByte_ok (c : CoreState) (h : InRange c.AR) :
    tuReadByte c = .ok (c.M.read c.AR.toNat) { c with DR := c.M.read c.AR.toNat } := by
  simp [tuReadByte, storeRead_ok c h]

theorem tuReadByte_raised (c : CoreState) (h : ¬ InRange c.AR) :
    tuReadByte c = .raised (.addressOutOfRange c.AR) c := by
  simp [tuReadByte, storeRead_raised c h]

/-- `TU.writeByte()` in range. -/
theorem tuWriteByte_ok (c : CoreState) (h : InRange c.AR) :
    tuWriteByte c = .ok () { c with DR := c.STAGED, M := c.M.write c.AR.toNat c.STAGED } := by
  unfold tuWriteByte
  exact storeWrite_ok (storeSetDataRegister c.STAGED c) h

/-- `TU.writeByte()` out of range has set the data register. -/
theorem tuWriteByte_raised (c : CoreState) (h : ¬ InRange c.AR) :
    tuWriteByte c = .raised (.addressOutOfRange c.AR) { c with DR := c.STAGED } := by
  unfold tuWriteByte
  exact storeWrite_raised (storeSetDataRegister c.STAGED c) h

/-! ## Reading the stream -/

theorem deliverByte_ok (b : Byte) (c : CoreState) (h : InRange c.IP) :
    deliverByte b c = .ok b { c with AR := c.IP, DR := b, IP := c.IP + 1 } := by
  simp only [deliverByte, if_pos h]
  rfl

theorem deliverByte_raised (b : Byte) (c : CoreState) (h : ¬ InRange c.IP) :
    deliverByte b c = .raised (.addressOutOfRange c.IP) { c with AR := c.IP } := by
  simp only [deliverByte, if_neg h]
  rfl

/-- Fetching is delivering the byte that stands at `IP`. -/
theorem fetchByte_eq_deliver (c : CoreState) : fetchByte c = deliverByte (c.M.read c.IP.toNat) c := by
  by_cases h : InRange c.IP
  · rw [deliverByte_ok _ _ h]
    simp only [fetchByte, memRead, tuReadByte_ok (tuSetAddress c.IP c) h, Res.bind_ok]
    rfl
  · rw [deliverByte_raised _ _ h]
    simp only [fetchByte, memRead, tuReadByte_raised (tuSetAddress c.IP c) h, Res.bind_raised]
    rfl

theorem fetchByte_ok (c : CoreState) (h : InRange c.IP) :
    fetchByte c = .ok (c.M.read c.IP.toNat)
      { c with AR := c.IP, DR := c.M.read c.IP.toNat, IP := c.IP + 1 } := by
  rw [fetchByte_eq_deliver, deliverByte_ok _ _ h]

theorem fetchByte_raised (c : CoreState) (h : ¬ InRange c.IP) :
    fetchByte c = .raised (.addressOutOfRange c.IP) { c with AR := c.IP } := by
  rw [fetchByte_eq_deliver, deliverByte_raised _ _ h]

/-! ## The combiner -/

theorem tuCombine_first (b : Byte) (c : CoreState) (h : c.STASH = none) :
    tuCombine b c = (none, { c with STASH := some b }) := by
  simp [tuCombine, h]

theorem tuCombine_second (lo hi : Byte) (c : CoreState) (h : c.STASH = some lo) :
    tuCombine hi c = (some (combineBytes lo hi), { c with AR := combineBytes lo hi, STASH := none }) := by
  simp [tuCombine, h, storeSetAddressRegister]

theorem combineBytes_inRange (lo hi : Byte) : InRange (combineBytes lo hi) := by
  have h1 := lo.isLt
  have h2 := hi.isLt
  unfold combineBytes
  constructor <;> omega

/-- The two operand bytes of an address assemble to the address (30_encoding.md R75). -/
theorem combineBytes_addr (a : Addr) : combineBytes (addrLo a) (addrHi a) = addrWord a := by
  have h := a.isLt
  simp only [combineBytes, addrWord, addrLo, addrHi, BitVec.toNat_ofNat]
  omega

theorem addrWord_inRange (a : Addr) : InRange (addrWord a) := by
  have h := a.isLt
  constructor <;> simp only [addrWord] <;> omega

@[simp] theorem addrWord_toNat (a : Addr) : (addrWord a).toNat = a.toNat := by
  simp [addrWord]

theorem joinAddr_halves (a : Addr) : joinAddr (addrLo a) (addrHi a) = a := by
  have h := a.isLt
  apply BitVec.eq_of_toNat_eq
  simp only [joinAddr, addrLo, addrHi, BitVec.toNat_ofNat]
  omega

theorem addrLo_joinAddr (lo hi : Byte) : addrLo (joinAddr lo hi) = lo := by
  have h1 := lo.isLt
  have h2 := hi.isLt
  apply BitVec.eq_of_toNat_eq
  simp only [joinAddr, addrLo, BitVec.toNat_ofNat]
  omega

theorem addrHi_joinAddr (lo hi : Byte) : addrHi (joinAddr lo hi) = hi := by
  have h1 := lo.isLt
  have h2 := hi.isLt
  apply BitVec.eq_of_toNat_eq
  simp only [joinAddr, addrHi, BitVec.toNat_ofNat]
  omega

/-! ## The opcode map -/

@[simp] theorem opcodeOf_opcodeByte (o : Opcode) : opcodeOf (opcodeByte o) = some o := by
  cases o <;> rfl

/-- A byte that the map knows is the number of the opcode it gives. -/
theorem opcodeOf_eq_some (b : Byte) (o : Opcode) : opcodeOf b = some o ↔ b = opcodeByte o := by
  constructor
  · intro h
    have h' : (opcodeByte o == b) = true := List.find?_some (p := fun o => opcodeByte o == b) h
    exact (beq_iff_eq.1 h').symm
  · rintro rfl
    exact opcodeOf_opcodeByte o

theorem decodeClass_opcodeByte (o : Opcode) :
    decodeClass (opcodeByte o) =
      match o with
      | .ldaImm | .ldxImm | .ldyImm | .bneRel | .brk | .sys => .direct
      | .ldaAbs | .staAbs | .adcAbs | .incAbs | .cpxAbs => .absolute
      | .nop => .nop := by
  cases o <;> rfl

theorem decodeClass_unrecognized (b : Byte) (h : opcodeOf b = none) : decodeClass b = .unrecognized := by
  simp [decodeClass, h]

end Sys2Proof.Machine
end

