-- ==== Sys2Proof/Laws/Interrupts.lean ====
section
/-! SUPPORT. What the environment's moves, the controller's pulse, the interrupt check and the clock can do. The core is
in none of it (60_exceptions.md R173). -/

namespace Sys2Proof.Machine

/-! ## Moves of the environment -/

@[simp] theorem applyMove_toCoreState (s : State) (m : EnvMove) : (applyMove s m).toCoreState = s.toCoreState := by
  cases m <;> simp only [applyMove, registerSource, enqueuePayload, submitRequest, clockStart_toCoreState,
    clockStop_toCoreState] <;> split <;> rfl

@[simp] theorem applyMove_FAULT (s : State) (m : EnvMove) : (applyMove s m).FAULT = s.FAULT := by
  cases m <;> simp only [applyMove, registerSource, enqueuePayload, submitRequest, clockStart_FAULT,
    clockStop_FAULT] <;> split <;> rfl

@[simp] theorem applyMove_OUT (s : State) (m : EnvMove) : (applyMove s m).OUT = s.OUT := by
  cases m <;> simp only [applyMove, registerSource, enqueuePayload, submitRequest, clockStart_OUT,
    clockStop_OUT] <;> split <;> rfl

@[simp] theorem applyMove_PEND (s : State) (m : EnvMove) : (applyMove s m).PEND = s.PEND := by
  cases m <;> simp only [applyMove, registerSource, enqueuePayload, submitRequest, clockStart_PEND,
    clockStop_PEND] <;> split <;> rfl

@[simp] theorem applyMove_ENV (s : State) (m : EnvMove) : (applyMove s m).ENV = s.ENV := by
  cases m <;> simp only [applyMove, registerSource, enqueuePayload, submitRequest, clockStart_ENV,
    clockStop_ENV] <;> split <;> rfl

/-- Only `stop` disarms the clock. -/
theorem applyMove_ARMED_of_ne_stop (s : State) (m : EnvMove) (h : m ≠ .stop) (ha : s.ARMED = true) :
    (applyMove s m).ARMED = true := by
  cases m with
  | register name priority => exact ha
  | enqueue n b => simp only [applyMove, enqueuePayload]; split <;> exact ha
  | submit n => simp only [applyMove, submitRequest]; split <;> exact ha
  | start => simp [applyMove]
  | stop => exact absurd rfl h

/-- Only `start` arms the clock. -/
theorem applyMove_ARMED_of_ne_start (s : State) (m : EnvMove) (h : m ≠ .start) (ha : s.ARMED = false) :
    (applyMove s m).ARMED = false := by
  cases m with
  | register name priority => exact ha
  | enqueue n b => simp only [applyMove, enqueuePayload]; split <;> exact ha
  | submit n => simp only [applyMove, submitRequest]; split <;> exact ha
  | start => exact absurd rfl h
  | stop => rfl

/-- What a list of moves keeps: the core, the fault record, the output, the processor's slot, the schedule. -/
theorem applyMoves_kept (ms : List EnvMove) (s : State) :
    (applyMoves s ms).toCoreState = s.toCoreState ∧ (applyMoves s ms).FAULT = s.FAULT ∧
      (applyMoves s ms).OUT = s.OUT ∧ (applyMoves s ms).PEND = s.PEND ∧ (applyMoves s ms).ENV = s.ENV := by
  induction ms generalizing s with
  | nil => exact ⟨rfl, rfl, rfl, rfl, rfl⟩
  | cons m ms ih => simpa [applyMoves] using ih (applyMove s m)

theorem applyMoves_ARMED_of_noStop (ms : List EnvMove) (s : State) (h : EnvMove.stop ∉ ms) (ha : s.ARMED = true) :
    (applyMoves s ms).ARMED = true := by
  induction ms generalizing s with
  | nil => exact ha
  | cons m ms ih =>
    simp only [List.mem_cons, not_or] at h
    exact ih _ h.2 (applyMove_ARMED_of_ne_stop s m (Ne.symm h.1) ha)

theorem applyMoves_ARMED_of_noStart (ms : List EnvMove) (s : State) (h : EnvMove.start ∉ ms) (ha : s.ARMED = false) :
    (applyMoves s ms).ARMED = false := by
  induction ms generalizing s with
  | nil => exact ha
  | cons m ms ih =>
    simp only [List.mem_cons, not_or] at h
    exact ih _ h.2 (applyMove_ARMED_of_ne_start s m (Ne.symm h.1) ha)

/-! ## Boundaries -/

theorem boundary_kept (s : State) :
    (boundary s).toCoreState = s.toCoreState ∧ (boundary s).FAULT = s.FAULT ∧ (boundary s).OUT = s.OUT ∧
      (boundary s).PEND = s.PEND ∧ (boundary s).ENV = s.ENV.tail := by
  unfold boundary
  split
  · rename_i h; simp [h]
  · rename_i ms rest h
    simpa [h] using applyMoves_kept ms { s with ENV := rest }

@[simp] theorem boundary_toCoreState (s : State) : (boundary s).toCoreState = s.toCoreState := (boundary_kept s).1
@[simp] theorem boundary_FAULT (s : State) : (boundary s).FAULT = s.FAULT := (boundary_kept s).2.1
@[simp] theorem boundary_OUT (s : State) : (boundary s).OUT = s.OUT := (boundary_kept s).2.2.1
@[simp] theorem boundary_PEND (s : State) : (boundary s).PEND = s.PEND := (boundary_kept s).2.2.2.1
@[simp] theorem boundary_ENV (s : State) : (boundary s).ENV = s.ENV.tail := (boundary_kept s).2.2.2.2

theorem NoStop.tail {env : List (List EnvMove)} (h : NoStop env) : NoStop env.tail :=
  fun ms hm => h ms (List.mem_of_mem_tail hm)

theorem boundary_ARMED_of_noStop (s : State) (h : NoStop s.ENV) (ha : s.ARMED = true) :
    (boundary s).ARMED = true := by
  unfold boundary
  split
  · exact ha
  · rename_i ms rest he
    exact applyMoves_ARMED_of_noStop ms _ (h ms (by simp [he])) ha

/-- With a spent schedule a boundary does nothing. -/
theorem boundary_of_env_nil (s : State) (h : s.ENV = []) : boundary s = s := by
  unfold boundary; simp [h]

/-- What waiting keeps; the schedule only gets shorter. -/
theorem awaitArmed_kept (env : List (List EnvMove)) (s : State) (h : s.ENV = env) :
    (awaitArmed env s).toCoreState = s.toCoreState ∧ (awaitArmed env s).FAULT = s.FAULT ∧
      (awaitArmed env s).OUT = s.OUT ∧ (awaitArmed env s).PEND = s.PEND ∧
      (∃ k, (awaitArmed env s).ENV = env.drop k) := by
  induction env generalizing s with
  | nil => exact ⟨rfl, rfl, rfl, rfl, 0, h⟩
  | cons ms rest ih =>
    have hk := applyMoves_kept ms { s with ENV := rest }
    simp only [awaitArmed]
    split
    · exact ⟨hk.1, hk.2.1, hk.2.2.1, hk.2.2.2.1, 1, hk.2.2.2.2⟩
    · obtain ⟨h1, h2, h3, h4, k, h5⟩ := ih _ hk.2.2.2.2
      exact ⟨h1.trans hk.1, h2.trans hk.2.1, h3.trans hk.2.2.1, h4.trans hk.2.2.2.1, k + 1, by simpa using h5⟩

@[simp] theorem beforeTick_toCoreState (s : State) : (beforeTick s).toCoreState = s.toCoreState :=
  (awaitArmed_kept s.ENV s rfl).1
@[simp] theorem beforeTick_FAULT (s : State) : (beforeTick s).FAULT = s.FAULT := (awaitArmed_kept s.ENV s rfl).2.1
@[simp] theorem beforeTick_OUT (s : State) : (beforeTick s).OUT = s.OUT := (awaitArmed_kept s.ENV s rfl).2.2.1
@[simp] theorem beforeTick_PEND (s : State) : (beforeTick s).PEND = s.PEND := (awaitArmed_kept s.ENV s rfl).2.2.2.1

/-- An armed clock that nothing stops waits for one boundary only. -/
theorem beforeTick_of_noStop (s : State) (h : NoStop s.ENV) (ha : s.ARMED = true) :
    (beforeTick s).ARMED = true ∧ (beforeTick s).ENV = s.ENV.tail := by
  unfold beforeTick
  cases he : s.ENV with
  | nil => exact ⟨ha, he⟩
  | cons ms rest =>
    have hm := applyMoves_ARMED_of_noStop ms { s with ENV := rest } (h ms (by simp [he])) ha
    simp only [awaitArmed, hm, if_true]
    exact ⟨trivial, (applyMoves_kept ms { s with ENV := rest }).2.2.2.2⟩

/-- A machine that is not armed after the wait has spent its schedule. -/
theorem awaitArmed_spent (env : List (List EnvMove)) (s : State) (h : s.ENV = env)
    (ha : (awaitArmed env s).ARMED = false) : (awaitArmed env s).ENV = [] := by
  induction env generalizing s with
  | nil => exact h
  | cons ms rest ih =>
    simp only [awaitArmed] at ha ⊢
    split
    · rename_i h1
      simp [h1] at ha
    · rename_i h1
      simp only [h1] at ha
      exact ih _ (applyMoves_kept ms { s with ENV := rest }).2.2.2.2 (by simpa using ha)

theorem beforeTick_spent (s : State) (ha : (beforeTick s).ARMED = false) : (beforeTick s).ENV = [] :=
  awaitArmed_spent s.ENV s rfl ha

theorem beforeTick_of_env_nil (s : State) (h : s.ENV = []) : beforeTick s = s := by
  unfold beforeTick; simp [h, awaitArmed]

/-- A clock that nothing arms stays unarmed. -/
theorem beforeTick_ARMED_of_noStart (s : State) (h : NoStart s.ENV) (ha : s.ARMED = false) :
    (beforeTick s).ARMED = false := by
  unfold beforeTick
  generalize he : s.ENV = env at h
  clear he
  induction env generalizing s with
  | nil => exact ha
  | cons ms rest ih =>
    have hm := applyMoves_ARMED_of_noStart ms { s with ENV := rest } (h ms (by simp)) ha
    simp only [awaitArmed, hm]
    exact ih _ hm fun ms' h' => h ms' (by simp [h'])

/-! ## The controller's pulse -/

theorem controllerPulse_kept (s : State) :
    (controllerPulse s).toCoreState = s.toCoreState ∧ (controllerPulse s).FAULT = s.FAULT ∧
      (controllerPulse s).OUT = s.OUT ∧ (controllerPulse s).ENV = s.ENV ∧ (controllerPulse s).ARMED = s.ARMED ∧
      (controllerPulse s).REG = s.REG := by
  unfold controllerPulse
  split <;> exact ⟨rfl, rfl, rfl, rfl, rfl, rfl⟩

@[simp] theorem controllerPulse_toCoreState (s : State) : (controllerPulse s).toCoreState = s.toCoreState :=
  (controllerPulse_kept s).1
@[simp] theorem controllerPulse_FAULT (s : State) : (controllerPulse s).FAULT = s.FAULT := (controllerPulse_kept s).2.1
@[simp] theorem controllerPulse_OUT (s : State) : (controllerPulse s).OUT = s.OUT := (controllerPulse_kept s).2.2.1
@[simp] theorem controllerPulse_ENV (s : State) : (controllerPulse s).ENV = s.ENV := (controllerPulse_kept s).2.2.2.1
@[simp] theorem controllerPulse_ARMED (s : State) : (controllerPulse s).ARMED = s.ARMED :=
  (controllerPulse_kept s).2.2.2.2.1
@[simp] theorem controllerPulse_REG (s : State) : (controllerPulse s).REG = s.REG :=
  (controllerPulse_kept s).2.2.2.2.2

/-- What `takeFirst` finds: the first entry that passes, taken out of its place. -/
theorem takeFirst_eq_some (p : Nat → Bool) (buf : List Nat) (n : Nat) (rest : List Nat) :
    takeFirst p buf = some (n, rest) ↔
      ∃ pre post, buf = pre ++ n :: post ∧ rest = pre ++ post ∧ p n = true ∧ ∀ m ∈ pre, p m = false := by
  induction buf generalizing n rest with
  | nil => simp [takeFirst]
  | cons b buf ih =>
    by_cases hb : p b = true
    · simp only [takeFirst, hb, if_true, Option.some.injEq, Prod.mk.injEq]
      constructor
      · rintro ⟨rfl, rfl⟩
        exact ⟨[], buf, rfl, rfl, hb, by simp⟩
      · rintro ⟨pre, post, h1, h2, h3, h4⟩
        cases pre with
        | nil => simp_all
        | cons c pre =>
          obtain ⟨rfl, rfl⟩ := List.cons.inj h1
          simp [hb] at h4
    · have hb' : p b = false := by simpa using hb
      simp only [takeFirst, hb', Bool.false_eq_true, if_false]
      constructor
      · intro h
        cases ht : takeFirst p buf with
        | none => simp [ht] at h
        | some r =>
          obtain ⟨m, r'⟩ := r
          simp only [ht, Option.some.injEq, Prod.mk.injEq] at h
          obtain ⟨rfl, rfl⟩ := h
          obtain ⟨pre, post, h1, h2, h3, h4⟩ := (ih m r').1 ht
          exact ⟨b :: pre, post, by simp [h1], by simp [h2], h3, by simpa [hb'] using h4⟩
      · rintro ⟨pre, post, h1, h2, h3, h4⟩
        cases pre with
        | nil =>
          obtain ⟨rfl, rfl⟩ := List.cons.inj h1
          simp [hb'] at h3
        | cons c pre =>
          obtain ⟨rfl, hbuf⟩ := List.cons.inj h1
          have := (ih n (pre ++ post)).2 ⟨pre, post, hbuf, rfl, h3, fun m hm => h4 m (by simp [hm])⟩
          rw [this, h2]
          rfl

theorem takeFirst_eq_none (p : Nat → Bool) (buf : List Nat) :
    takeFirst p buf = none ↔ ∀ m ∈ buf, p m = false := by
  induction buf with
  | nil => simp [takeFirst]
  | cons b buf ih =>
    by_cases hb : p b = true
    · simp [takeFirst, hb]
    · have hb' : p b = false := by simpa using hb
      simp only [takeFirst, hb', Bool.false_eq_true, if_false]
      cases ht : takeFirst p buf with
      | none => simpa [hb', ht] using ih
      | some r => simpa [hb', ht] using ih

/-- The scan takes one entry out and leaves the rest in order. -/
theorem scanLevels_splits (reg : List Source) (buf : List Nat) (levels : List Priority) (n : Nat) (rest : List Nat)
    (h : scanLevels reg buf levels = some (n, rest)) :
    ∃ pre post, buf = pre ++ n :: post ∧ rest = pre ++ post := by
  induction levels with
  | nil => simp [scanLevels] at h
  | cons l levels ih =>
    unfold scanLevels at h
    split at h
    · rename_i found hf
      obtain rfl := Option.some.inj h
      obtain ⟨pre, post, h1, h2, -⟩ := (takeFirst_eq_some _ _ _ _).1 hf
      exact ⟨pre, post, h1, h2⟩
    · exact ih h

/-! ## The interrupt check and the clock -/

theorem interruptCheck_kept (s : State) :
    (interruptCheck s).toCoreState = s.toCoreState ∧ (interruptCheck s).FAULT = s.FAULT ∧
      (interruptCheck s).ENV = s.ENV ∧ (interruptCheck s).ARMED = s.ARMED ∧ (interruptCheck s).BUF = s.BUF ∧
      (interruptCheck s).programOut = s.programOut := by
  unfold interruptCheck
  split
  · exact ⟨rfl, rfl, rfl, rfl, rfl, rfl⟩
  · split
    · exact ⟨rfl, rfl, rfl, rfl, rfl, rfl⟩
    · split
      · exact ⟨rfl, rfl, rfl, rfl, rfl, rfl⟩
      · refine ⟨rfl, rfl, rfl, rfl, rfl, ?_⟩
        simp [State.programOut, emitAll, Event.ofProgram]

@[simp] theorem interruptCheck_toCoreState (s : State) : (interruptCheck s).toCoreState = s.toCoreState :=
  (interruptCheck_kept s).1
@[simp] theorem interruptCheck_FAULT (s : State) : (interruptCheck s).FAULT = s.FAULT := (interruptCheck_kept s).2.1
@[simp] theorem interruptCheck_ENV (s : State) : (interruptCheck s).ENV = s.ENV := (interruptCheck_kept s).2.2.1
@[simp] theorem interruptCheck_ARMED (s : State) : (interruptCheck s).ARMED = s.ARMED :=
  (interruptCheck_kept s).2.2.2.1
@[simp] theorem interruptCheck_BUF (s : State) : (interruptCheck s).BUF = s.BUF := (interruptCheck_kept s).2.2.2.2.1
@[simp] theorem interruptCheck_programOut (s : State) : (interruptCheck s).programOut = s.programOut :=
  (interruptCheck_kept s).2.2.2.2.2

theorem interruptCheck_of_noPend (s : State) (h : s.PEND = none) : interruptCheck s = s := by
  unfold interruptCheck; simp [h]

theorem clockCheck_kept (s : State) :
    (clockCheck s).toCoreState = s.toCoreState ∧ (clockCheck s).FAULT = s.FAULT ∧ (clockCheck s).OUT = s.OUT ∧
      (clockCheck s).ENV = s.ENV ∧ (clockCheck s).PEND = s.PEND ∧ (clockCheck s).REG = s.REG ∧
      (clockCheck s).BUF = s.BUF := by
  unfold clockCheck
  split <;> exact ⟨rfl, rfl, rfl, rfl, rfl, rfl, rfl⟩

@[simp] theorem clockCheck_toCoreState (s : State) : (clockCheck s).toCoreState = s.toCoreState := (clockCheck_kept s).1
@[simp] theorem clockCheck_FAULT (s : State) : (clockCheck s).FAULT = s.FAULT := (clockCheck_kept s).2.1
@[simp] theorem clockCheck_OUT (s : State) : (clockCheck s).OUT = s.OUT := (clockCheck_kept s).2.2.1
@[simp] theorem clockCheck_ENV (s : State) : (clockCheck s).ENV = s.ENV := (clockCheck_kept s).2.2.2.1
@[simp] theorem clockCheck_PEND (s : State) : (clockCheck s).PEND = s.PEND := (clockCheck_kept s).2.2.2.2.1
@[simp] theorem clockCheck_REG (s : State) : (clockCheck s).REG = s.REG := (clockCheck_kept s).2.2.2.2.2.1
@[simp] theorem clockCheck_BUF (s : State) : (clockCheck s).BUF = s.BUF := (clockCheck_kept s).2.2.2.2.2.2

/-- The halt check clears `ARMED` exactly when `HALT` is set. -/
theorem clockCheck_ARMED (s : State) : (clockCheck s).ARMED = if s.HALT then false else s.ARMED := by
  unfold clockCheck
  split <;> rfl

/-! ## What follows the processor's pulse -/

@[simp] theorem afterProcessor_toCoreState (s : State) : (afterProcessor s).toCoreState = s.toCoreState := by
  simp [afterProcessor]
@[simp] theorem afterProcessor_FAULT (s : State) : (afterProcessor s).FAULT = s.FAULT := by simp [afterProcessor]
@[simp] theorem afterProcessor_OUT (s : State) : (afterProcessor s).OUT = s.OUT := by simp [afterProcessor]
@[simp] theorem afterProcessor_programOut (s : State) : (afterProcessor s).programOut = s.programOut := by
  simp [State.programOut]

theorem afterProcessor_ENV (s : State) : (afterProcessor s).ENV = s.ENV.tail.tail.tail := by
  simp [afterProcessor]

theorem afterProcessor_noStop (s : State) (h : NoStop s.ENV) : NoStop (afterProcessor s).ENV := by
  rw [afterProcessor_ENV]
  exact h.tail.tail.tail

/-- The clock stays armed through a tick unless a move stops it or the processor has halted. -/
theorem afterProcessor_ARMED (s : State) (h : NoStop s.ENV) (ha : s.ARMED = true) :
    (afterProcessor s).ARMED = !s.HALT := by
  have h1 := boundary_ARMED_of_noStop s h ha
  have h2 := boundary_ARMED_of_noStop (boundary s) (by rw [boundary_ENV]; exact h.tail) h1
  have h3 := boundary_ARMED_of_noStop (controllerPulse (boundary (boundary s)))
    (by rw [controllerPulse_ENV, boundary_ENV, boundary_ENV]; exact h.tail.tail) (by simpa using h2)
  simp only [afterProcessor, storePulse_eq, clockCheck_ARMED, boundary_toCoreState, controllerPulse_toCoreState, h3]
  cases s.HALT <;> rfl

end Sys2Proof.Machine
end

