-- ==== Sys2Proof/Laws/PerInstr.lean ====
section
/-! SUPPORT. Statements made once per instruction: the length of the encoding, which the opcode byte alone decides
(30_encoding.md R70). -/

namespace Sys2Proof.Laws.EncodedLength

/-- The encoding starts with the opcode byte and has the instruction's length, one to three bytes. -/
def Statement (i : Instr) : Prop :=
  (encode i).head? = some i.opByte ∧ (encode i).length = i.length ∧ 1 ≤ i.length ∧ i.length ≤ 3

theorem ldaImm (imm : Byte) : Statement (.ldaImm imm) := ⟨rfl, rfl, (by decide : 1 ≤ 2), (by decide : 2 ≤ 3)⟩
theorem ldxImm (imm : Byte) : Statement (.ldxImm imm) := ⟨rfl, rfl, (by decide : 1 ≤ 2), (by decide : 2 ≤ 3)⟩
theorem ldyImm (imm : Byte) : Statement (.ldyImm imm) := ⟨rfl, rfl, (by decide : 1 ≤ 2), (by decide : 2 ≤ 3)⟩
theorem ldaAbs (addr : Addr) : Statement (.ldaAbs addr) := ⟨rfl, rfl, (by decide : 1 ≤ 3), (by decide : 3 ≤ 3)⟩
theorem staAbs (addr : Addr) : Statement (.staAbs addr) := ⟨rfl, rfl, (by decide : 1 ≤ 3), (by decide : 3 ≤ 3)⟩
theorem adcAbs (addr : Addr) : Statement (.adcAbs addr) := ⟨rfl, rfl, (by decide : 1 ≤ 3), (by decide : 3 ≤ 3)⟩
theorem incAbs (addr : Addr) : Statement (.incAbs addr) := ⟨rfl, rfl, (by decide : 1 ≤ 3), (by decide : 3 ≤ 3)⟩
theorem cpxAbs (addr : Addr) : Statement (.cpxAbs addr) := ⟨rfl, rfl, (by decide : 1 ≤ 3), (by decide : 3 ≤ 3)⟩
theorem bneRel (rel : Byte) : Statement (.bneRel rel) := ⟨rfl, rfl, (by decide : 1 ≤ 2), (by decide : 2 ≤ 3)⟩
theorem nop : Statement .nop := ⟨rfl, rfl, (by decide : 1 ≤ 1), (by decide : 1 ≤ 3)⟩
theorem brk : Statement .brk := ⟨rfl, rfl, (by decide : 1 ≤ 1), (by decide : 1 ≤ 3)⟩
theorem sys : Statement .sys := ⟨rfl, rfl, (by decide : 1 ≤ 1), (by decide : 1 ≤ 3)⟩
theorem unrecognized (op : Byte) : Statement (.unrecognized op) := ⟨rfl, rfl, (by decide : 1 ≤ 1), (by decide : 1 ≤ 3)⟩

end Sys2Proof.Laws.EncodedLength
end

