-- ==== Sys2Proof/Laws/Tick.lean ====
section
/-! SUPPORT. What one tick can do, said once: when it runs, when it pauses, when it raises; and what it leaves of the
core, which is what the stage handler leaves. -/

namespace Sys2Proof.Machine

/-! ## The processor's pulse -/

theorem pulseWith_ok (h : Handler) (s : State) (es : List Event) (c : CoreState)
    (hh : h s.toCoreState = .ok es c) :
    pulseWith h s = .done (interruptCheck (emitAll es { s with toCoreState := c })) := by
  simp [pulseWith, hh]

theorem pulseWith_raised (h : Handler) (s : State) (r : FaultReason) (c : CoreState)
    (hh : h s.toCoreState = .raised r c) :
    pulseWith h s = .raised r (raiseFault r { s with toCoreState := c }) := by
  simp [pulseWith, hh]

/-- Outside HALTED the processor's pulse runs the stage handler. -/
theorem processorPulse_eq (s : State) (h : s.STEP ≠ .halted) : processorPulse s = pulseWith stageHandler s := by
  simp [processorPulse, h]

/-- The outcome of a pulse depends on the handler through its value at this core only. -/
theorem pulseWith_congr (h k : Handler) (s : State) (e : h s.toCoreState = k s.toCoreState) :
    pulseWith h s = pulseWith k s := by
  simp [pulseWith, e]

/-! ## The tick -/

/-- The three ways a tick can go. -/
theorem tickAround_cases (pulse : State → Pulse) (s : State) :
    (∃ s', (beforeTick s).ARMED = true ∧ (beforeTick s).FAULT = none ∧ pulse (beforeTick s) = .done s' ∧
        tickAround pulse s = .ran (afterProcessor s')) ∨
      (∃ r s', (beforeTick s).ARMED = true ∧ (beforeTick s).FAULT = none ∧ pulse (beforeTick s) = .raised r s' ∧
        tickAround pulse s = .raised r s') ∨
      (((beforeTick s).ARMED = false ∨ (beforeTick s).FAULT ≠ none) ∧
        tickAround pulse s = .paused (beforeTick s)) := by
  unfold tickAround
  split
  · rename_i h
    cases hp : pulse (beforeTick s) with
    | done s' => exact .inl ⟨s', h.1, h.2, rfl, rfl⟩
    | raised r s' => exact .inr (.inl ⟨r, s', h.1, h.2, rfl, rfl⟩)
  · rename_i h
    refine .inr (.inr ⟨?_, rfl⟩)
    by_cases ha : (beforeTick s).ARMED = true
    · exact .inr fun hf => h ⟨ha, hf⟩
    · exact .inl (by simpa using ha)

/-- A tick whose handler ends: its core is the handler's, its events are added, and nothing faults. -/
theorem tickAround_pulseWith_ran (h : Handler) (s t : State) (ht : tickAround (pulseWith h) s = .ran t) :
    ∃ es, h s.toCoreState = .ok es t.toCoreState ∧ t.FAULT = none ∧ s.FAULT = none ∧
      t.programOut = s.programOut ++ es.filter Event.ofProgram := by
  rcases tickAround_cases (pulseWith h) s with ⟨s', -, hf, hp, he⟩ | ⟨r, s', -, -, -, he⟩ | ⟨-, he⟩
  · rw [he] at ht
    obtain rfl := TickResult.ran.inj ht
    cases hh : h s.toCoreState with
    | raised r c =>
      rw [pulseWith_raised h _ r c (by simpa using hh)] at hp
      cases hp
    | ok es c =>
      rw [pulseWith_ok h _ es c (by simpa using hh)] at hp
      obtain rfl := Pulse.done.inj hp
      refine ⟨es, by simp, ?_, by simpa using hf, ?_⟩
      · simpa using hf
      · rw [afterProcessor_programOut, interruptCheck_programOut]
        simp [State.programOut]
  · rw [he] at ht; cases ht
  · rw [he] at ht; cases ht

/-- A tick that raises: the handler raised, and the core is what the handler left. -/
theorem tickAround_pulseWith_raised (h : Handler) (s t : State) (r : FaultReason)
    (ht : tickAround (pulseWith h) s = .raised r t) :
    h s.toCoreState = .raised r t.toCoreState ∧ t.FAULT = some r ∧ t.programOut = s.programOut := by
  rcases tickAround_cases (pulseWith h) s with ⟨s', -, -, -, he⟩ | ⟨r', s', -, -, hp, he⟩ | ⟨-, he⟩
  · rw [he] at ht; cases ht
  · rw [he] at ht
    obtain ⟨rfl, rfl⟩ := TickResult.raised.inj ht
    cases hh : h s.toCoreState with
    | ok es c =>
      rw [pulseWith_ok h _ es c (by simpa using hh)] at hp
      cases hp
    | raised r2 c =>
      rw [pulseWith_raised h _ r2 c (by simpa using hh)] at hp
      obtain ⟨rfl, rfl⟩ := Pulse.raised.inj hp
      exact ⟨rfl, rfl, by simp [State.programOut]⟩
  · rw [he] at ht; cases ht

/-- A tick that does not happen keeps everything but what the environment's moves change. -/
theorem tickAround_paused (pulse : State → Pulse) (s t : State) (ht : tickAround pulse s = .paused t) :
    t = beforeTick s ∧ (t.ARMED = false ∨ s.FAULT ≠ none) := by
  rcases tickAround_cases pulse s with ⟨s', -, -, -, he⟩ | ⟨r, s', -, -, -, he⟩ | ⟨hc, he⟩
  · rw [he] at ht; cases ht
  · rw [he] at ht; cases ht
  · rw [he] at ht
    obtain rfl := TickResult.paused.inj ht
    exact ⟨rfl, by simpa using hc⟩

/-- A running machine's tick runs when its handler ends; the machine runs on unless the handler halted it. -/
theorem tickAround_running (h : Handler) (s : State) (hr : s.Running) (es : List Event) (c : CoreState)
    (hh : h s.toCoreState = .ok es c) :
    ∃ t, tickAround (pulseWith h) s = .ran t ∧ t.toCoreState = c ∧
      t.programOut = s.programOut ++ es.filter Event.ofProgram ∧ t.FAULT = none ∧ NoStop t.ENV ∧
      t.ARMED = !c.HALT := by
  obtain ⟨hb1, hb2⟩ := beforeTick_of_noStop s hr.noStop hr.armed
  have hf : (beforeTick s).FAULT = none := by simpa using hr.noFault
  rcases tickAround_cases (pulseWith h) s with ⟨s', -, -, hp, he⟩ | ⟨r, s', -, -, hp, he⟩ | ⟨hc, -⟩
  · obtain ⟨es', h1, h2, -, h4⟩ := tickAround_pulseWith_ran h s _ he
    rw [hh] at h1
    obtain ⟨rfl, rfl⟩ := Res.ok.inj h1
    rw [pulseWith_ok h _ es _ (by simpa using hh)] at hp
    have hp' := Pulse.done.inj hp
    have hs1 : NoStop s'.ENV := by
      rw [← hp']
      simpa [hb2] using hr.noStop.tail
    have hs2 : s'.ARMED = true := by
      rw [← hp']
      simpa using hb1
    exact ⟨_, he, rfl, h4, h2, afterProcessor_noStop s' hs1, by rw [afterProcessor_ARMED s' hs1 hs2]; simp⟩
  · rw [pulseWith_ok h _ es c (by simpa using hh)] at hp
    cases hp
  · rcases hc with hc | hc
    · rw [hb1] at hc; cases hc
    · exact absurd hf hc

/-- The same, for a handler that does not halt: the machine runs on. -/
theorem tickAround_runs_on (h : Handler) (s : State) (hr : s.Running) (es : List Event) (c : CoreState)
    (hh : h s.toCoreState = .ok es c) (hc : c.HALT = false) :
    ∃ t, tickAround (pulseWith h) s = .ran t ∧ t.toCoreState = c ∧
      t.programOut = s.programOut ++ es.filter Event.ofProgram ∧ t.Running := by
  obtain ⟨t, h1, h2, h3, h4, h5, h6⟩ := tickAround_running h s hr es c hh
  exact ⟨t, h1, h2, h3, by simpa [hc] using h6, h4, by rw [h2]; exact hc, h5⟩

/-- A running machine's tick raises what its handler raises. -/
theorem tickAround_running_raised (h : Handler) (s : State) (hr : s.Running) (r : FaultReason) (c : CoreState)
    (hh : h s.toCoreState = .raised r c) :
    ∃ t, tickAround (pulseWith h) s = .raised r t ∧ t.toCoreState = c ∧ t.programOut = s.programOut ∧
      t.FAULT = some r := by
  obtain ⟨hb1, -⟩ := beforeTick_of_noStop s hr.noStop hr.armed
  have hf : (beforeTick s).FAULT = none := by simpa using hr.noFault
  rcases tickAround_cases (pulseWith h) s with ⟨s', -, -, hp, -⟩ | ⟨r', s', -, -, hp, he⟩ | ⟨hc, -⟩
  · rw [pulseWith_raised h _ r c (by simpa using hh)] at hp
    cases hp
  · obtain ⟨h1, h2, h3⟩ := tickAround_pulseWith_raised h s s' r' he
    rw [hh] at h1
    obtain ⟨rfl, rfl⟩ := Res.raised.inj h1
    exact ⟨s', he, rfl, h3, h2⟩
  · rcases hc with hc | hc
    · rw [hb1] at hc; cases hc
    · exact absurd hf hc

/-! ## Sequences -/

@[simp] theorem TickResult.andThen_ran (s : State) (f : State → TickResult) : (TickResult.ran s).andThen f = f s := rfl
@[simp] theorem TickResult.andThen_paused (s : State) (f : State → TickResult) :
    (TickResult.paused s).andThen f = .paused s := rfl
@[simp] theorem TickResult.andThen_raised (r : FaultReason) (s : State) (f : State → TickResult) :
    (TickResult.raised r s).andThen f = .raised r s := rfl
@[simp] theorem TickResult.toOutcome_ran (s : State) : (TickResult.ran s).toOutcome = .next s := rfl
@[simp] theorem TickResult.toOutcome_paused (s : State) : (TickResult.paused s).toOutcome = .next s := rfl
@[simp] theorem TickResult.toOutcome_raised (r : FaultReason) (s : State) :
    (TickResult.raised r s).toOutcome = .fault (r.toFault s) := rfl

/-- An answer `next` is a tick sequence that ran or paused. -/
theorem TickResult.toOutcome_eq_next (r : TickResult) (t : State) :
    r.toOutcome = .next t ↔ r = .ran t ∨ r = .paused t := by
  cases r <;> simp

theorem TickResult.andThen_assoc (r : TickResult) (f g : State → TickResult) :
    (r.andThen f).andThen g = r.andThen fun s => (f s).andThen g := by
  cases r <;> rfl

@[simp] theorem runStages_nil (s : State) : runStages [] s = .ran s := rfl
theorem runStages_cons (h : Handler) (hs : List Handler) (s : State) :
    runStages (h :: hs) s = (tickAround (pulseWith h) s).andThen (runStages hs) := rfl

theorem runStages_append (hs ks : List Handler) (s : State) :
    runStages (hs ++ ks) s = (runStages hs s).andThen (runStages ks) := by
  induction hs generalizing s with
  | nil => rfl
  | cons h hs ih =>
    simp only [List.cons_append, runStages_cons, TickResult.andThen_assoc]
    congr 1
    funext s'
    exact ih s'

end Sys2Proof.Machine
end

