-- ==== Sys2Proof/Laws/Stages.lean ====
section
/-! SUPPORT. What one stage handler can do, said once: `StageMove` lists the ways a handler of the tick machine ends, and
`stageHandler_move` says there is no other. -/

namespace Sys2Proof.Machine

/-- The ways the current stage's handler can end without a fault (40_pipeline.md R91 to R98, with the instruction rules). -/
inductive StageMove (c : CoreState) : List Event → CoreState → Prop where
  | fetch (h : c.STEP = .fetch) (hr : InRange c.IP) :
      StageMove c [] { c with
        AR := c.IP, DR := c.M.read c.IP.toNat, IP := c.IP + 1, IR := c.M.read c.IP.toNat, SUB := 0, STEP := .decode }
  | direct (h : c.STEP = .decode) (hd : decodeClass c.IR = .direct) : StageMove c [] { c with STEP := .execute }
  | nop (h : c.STEP = .decode) (hd : decodeClass c.IR = .nop) : StageMove c [] { c with STEP := .fetch }
  | unrecognized (h : c.STEP = .decode) (hd : decodeClass c.IR = .unrecognized) :
      StageMove c [.unknownOpcode c.IR] { c with STEP := .fetch }
  | low (h : c.STEP = .decode) (hd : decodeClass c.IR = .absolute) (hs : c.SUB = 0) (ht : c.STASH = none)
      (hr : InRange c.IP) :
      StageMove c [] { c with
        AR := c.IP, DR := c.M.read c.IP.toNat, IP := c.IP + 1, STASH := some (c.M.read c.IP.toNat), SUB := 1 }
  | high (lo : Byte) (h : c.STEP = .decode) (hd : decodeClass c.IR = .absolute) (hs : c.SUB = 1)
      (ht : c.STASH = some lo) (hr : InRange c.IP) :
      StageMove c [] { c with
        AR := combineBytes lo (c.M.read c.IP.toNat), DR := c.M.read c.IP.toNat, IP := c.IP + 1, STASH := none,
        SUB := 0, STEP := .execute }
  | ldaImm (h : c.STEP = .execute) (ho : opcodeOf c.IR = some .ldaImm) (hr : InRange c.IP) :
      StageMove c [] { c with
        AR := c.IP, DR := c.M.read c.IP.toNat, IP := c.IP + 1, A := c.M.read c.IP.toNat, STEP := .fetch }
  | ldxImm (h : c.STEP = .execute) (ho : opcodeOf c.IR = some .ldxImm) (hr : InRange c.IP) :
      StageMove c [] { c with
        AR := c.IP, DR := c.M.read c.IP.toNat, IP := c.IP + 1, X := c.M.read c.IP.toNat, STEP := .fetch }
  | ldyImm (h : c.STEP = .execute) (ho : opcodeOf c.IR = some .ldyImm) (hr : InRange c.IP) :
      StageMove c [] { c with
        AR := c.IP, DR := c.M.read c.IP.toNat, IP := c.IP + 1, Y := c.M.read c.IP.toNat, STEP := .fetch }
  | bneRel (h : c.STEP = .execute) (ho : opcodeOf c.IR = some .bneRel) (hr : InRange c.IP) :
      StageMove c [] { c with
        AR := c.IP, DR := c.M.read c.IP.toNat,
        IP := if branchTaken c.CF then c.IP + 1 + sext8 (c.M.read c.IP.toNat) else c.IP + 1, STEP := .fetch }
  | firstRead (h : c.STEP = .execute)
      (ho : opcodeOf c.IR = some .ldaAbs ∨ opcodeOf c.IR = some .incAbs ∨ opcodeOf c.IR = some .cpxAbs)
      (hs : c.SUB = 0) (hr : InRange c.AR) :
      StageMove c [] { c with DR := c.M.read c.AR.toNat, SUB := 1 }
  | ldaAbs (h : c.STEP = .execute) (ho : opcodeOf c.IR = some .ldaAbs) (hs : c.SUB = 1) (hr : InRange c.AR) :
      StageMove c [] { c with DR := c.M.read c.AR.toNat, A := c.M.read c.AR.toNat, SUB := 0, STEP := .fetch }
  | staStage (h : c.STEP = .execute) (ho : opcodeOf c.IR = some .staAbs) (hs : c.SUB = 0) :
      StageMove c [] { c with STAGED := c.A, SUB := 1 }
  | staHand (h : c.STEP = .execute) (ho : opcodeOf c.IR = some .staAbs) (hs : c.SUB = 1) :
      StageMove c [] { c with SUB := 0, STEP := .writeback }
  | adcAbs (h : c.STEP = .execute) (ho : opcodeOf c.IR = some .adcAbs) (hr : InRange c.AR) :
      StageMove c [] { c with
        DR := c.M.read c.AR.toNat, A := addByte c.A (c.M.read c.AR.toNat), STEP := .fetch }
  | incAbs (h : c.STEP = .execute) (ho : opcodeOf c.IR = some .incAbs) (hs : c.SUB = 1) (hr : InRange c.AR) :
      StageMove c [] { c with
        DR := c.M.read c.AR.toNat, STAGED := incByte (c.M.read c.AR.toNat), SUB := 0, STEP := .writeback }
  | cpxAbs (h : c.STEP = .execute) (ho : opcodeOf c.IR = some .cpxAbs) (hs : c.SUB = 1) (hr : InRange c.AR) :
      StageMove c [] { c with
        DR := c.M.read c.AR.toNat, CF := compareFlag c.X (c.M.read c.AR.toNat), SUB := 0, STEP := .fetch }
  | brk (h : c.STEP = .execute) (ho : opcodeOf c.IR = some .brk) :
      StageMove c [.haltDump c.M] { c with HALT := true, STEP := .halted }
  | sysPrint (h : c.STEP = .execute) (ho : opcodeOf c.IR = some .sys) (hs : c.SUB = 0) (hx : c.X = 1#8) :
      StageMove c [.printHex c.Y] { c with STEP := .fetch }
  | sysStart (h : c.STEP = .execute) (ho : opcodeOf c.IR = some .sys) (hs : c.SUB = 0) (hx : c.X = 2#8) :
      StageMove c [] { c with SIP := c.IP, IP := zext c.Y, SUB := 1 }
  | sysOther (h : c.STEP = .execute) (ho : opcodeOf c.IR = some .sys) (hs : c.SUB = 0) (hx1 : c.X ≠ 1#8)
      (hx2 : c.X ≠ 2#8) : StageMove c [] { c with STEP := .fetch }
  | sysByte (h : c.STEP = .execute) (ho : opcodeOf c.IR = some .sys) (hs : c.SUB = 1) (hr : InRange c.IP)
      (hb : c.M.read c.IP.toNat ≠ 0#8) :
      StageMove c [.printChar (c.M.read c.IP.toNat)] { c with
        AR := c.IP, DR := c.M.read c.IP.toNat, IP := c.IP + 1 }
  | sysEnd (h : c.STEP = .execute) (ho : opcodeOf c.IR = some .sys) (hs : c.SUB = 1) (hr : InRange c.IP)
      (hb : c.M.read c.IP.toNat = 0#8) :
      StageMove c [] { c with AR := c.IP, DR := c.M.read c.IP.toNat, IP := c.SIP, SUB := 0, STEP := .fetch }
  | write (h : c.STEP = .writeback) (ho : opcodeOf c.IR = some .staAbs ∨ opcodeOf c.IR = some .incAbs)
      (hr : InRange c.AR) :
      StageMove c [] { c with DR := c.STAGED, M := c.M.write c.AR.toNat c.STAGED, STEP := .fetch }
  | unexpectedDecode (h : c.STEP = .decode) (hd : decodeClass c.IR = .absolute) (h0 : c.SUB ≠ 0) (h1 : c.SUB ≠ 1) :
      StageMove c [.unexpectedState] { c with SUB := 0, STEP := .fetch }
  | unexpectedExecute (h : c.STEP = .execute)
      (hu : opcodeOf c.IR = none ∨ opcodeOf c.IR = some .nop ∨
        ((opcodeOf c.IR = some .ldaAbs ∨ opcodeOf c.IR = some .staAbs ∨ opcodeOf c.IR = some .incAbs ∨
          opcodeOf c.IR = some .cpxAbs ∨ opcodeOf c.IR = some .sys) ∧ c.SUB ≠ 0 ∧ c.SUB ≠ 1)) :
      StageMove c [.unexpectedState] { c with SUB := 0, STEP := .fetch }
  | unexpectedWriteback (h : c.STEP = .writeback) (hs : opcodeOf c.IR ≠ some .staAbs)
      (hi : opcodeOf c.IR ≠ some .incAbs) : StageMove c [.unexpectedState] { c with SUB := 0, STEP := .fetch }
  | halted (h : c.STEP = .halted) : StageMove c [] c

/-! ## The readers -/

/-- What a stage that reads one byte of the stream does with a read that goes well. -/
theorem fetchByte_bind_ok (c : CoreState) (f : Byte → CoreState → Res (List Event)) (es : List Event) (c' : CoreState)
    (h : (fetchByte c).bind f = .ok es c') :
    InRange c.IP ∧ f (c.M.read c.IP.toNat) { c with AR := c.IP, DR := c.M.read c.IP.toNat, IP := c.IP + 1 } =
      .ok es c' := by
  by_cases hr : InRange c.IP
  · rw [fetchByte_ok c hr] at h
    exact ⟨hr, h⟩
  · rw [fetchByte_raised c hr] at h
    cases h

/-- What a stage that reads the addressed cell does with a read that goes well. -/
theorem tuReadByte_bind_ok (c : CoreState) (f : Byte → CoreState → Res (List Event)) (es : List Event)
    (c' : CoreState) (h : (tuReadByte c).bind f = .ok es c') :
    InRange c.AR ∧ f (c.M.read c.AR.toNat) { c with DR := c.M.read c.AR.toNat } = .ok es c' := by
  by_cases hr : InRange c.AR
  · rw [tuReadByte_ok c hr] at h
    exact ⟨hr, h⟩
  · rw [tuReadByte_raised c hr] at h
    cases h

/-- The three arms of a two-tick EXECUTE. -/
theorem twoTickStage_cases (first second : Handler) (c : CoreState) :
    (c.SUB = 0 ∧ twoTickStage first second c = first c) ∨ (c.SUB = 1 ∧ twoTickStage first second c = second c) ∨
      (c.SUB ≠ 0 ∧ c.SUB ≠ 1 ∧ twoTickStage first second c = unexpectedStage c) := by
  unfold twoTickStage
  by_cases h0 : c.SUB = 0
  · exact .inl ⟨h0, if_pos h0⟩
  · by_cases h1 : c.SUB = 1
    · exact .inr (.inl ⟨h1, by rw [if_neg h0, if_pos h1]⟩)
    · exact .inr (.inr ⟨h0, h1, by rw [if_neg h0, if_neg h1]⟩)

/-! ## There is no other way -/

theorem absoluteStage_move (c : CoreState) (h : c.STEP = .decode) (hd : decodeClass c.IR = .absolute)
    (es : List Event) (c' : CoreState) (he : absoluteStage fetchByte c = .ok es c') : StageMove c es c' := by
  unfold absoluteStage at he
  split at he
  · rename_i hs
    split at he
    · cases he
    · rename_i ht
      have ht : c.STASH = none := by simpa using ht
      obtain ⟨hr, he⟩ := fetchByte_bind_ok c _ es c' he
      rw [tuCombine_first _ { c with AR := c.IP, DR := c.M.read c.IP.toNat, IP := c.IP + 1 } ht] at he
      obtain ⟨rfl, rfl⟩ := Res.ok.inj he
      exact .low h hd hs ht hr
  · split at he
    · rename_i hs
      split at he
      · cases he
      · rename_i ht
        obtain ⟨lo, ht⟩ := Option.ne_none_iff_exists'.1 ht
        obtain ⟨hr, he⟩ := fetchByte_bind_ok c _ es c' he
        rw [tuCombine_second lo _ { c with AR := c.IP, DR := c.M.read c.IP.toNat, IP := c.IP + 1 } ht] at he
        obtain ⟨rfl, rfl⟩ := Res.ok.inj he
        exact .high lo h hd hs ht hr
    · rename_i h0 h1
      obtain ⟨rfl, rfl⟩ := Res.ok.inj he
      exact .unexpectedDecode h hd h0 h1

theorem decodeStage_move (c : CoreState) (h : c.STEP = .decode) (es : List Event) (c' : CoreState)
    (he : decodeStage c = .ok es c') : StageMove c es c' := by
  unfold decodeStage at he
  split at he
  · rename_i hd
    obtain ⟨rfl, rfl⟩ := Res.ok.inj he
    exact .direct h hd
  · rename_i hd
    exact absoluteStage_move c h hd es c' he
  · rename_i hd
    obtain ⟨rfl, rfl⟩ := Res.ok.inj he
    exact .nop h hd
  · rename_i hd
    obtain ⟨rfl, rfl⟩ := Res.ok.inj he
    exact .unrecognized h hd

theorem firstReadStage_move (c : CoreState) (h : c.STEP = .execute)
    (ho : opcodeOf c.IR = some .ldaAbs ∨ opcodeOf c.IR = some .incAbs ∨ opcodeOf c.IR = some .cpxAbs)
    (hs : c.SUB = 0) (es : List Event) (c' : CoreState) (he : firstReadStage c = .ok es c') : StageMove c es c' := by
  obtain ⟨hr, he⟩ := tuReadByte_bind_ok c _ es c' he
  obtain ⟨rfl, rfl⟩ := Res.ok.inj he
  exact .firstRead h ho hs hr

theorem sysStage_move (c : CoreState) (h : c.STEP = .execute) (ho : opcodeOf c.IR = some .sys) (es : List Event)
    (c' : CoreState) (he : sysStage c = .ok es c') : StageMove c es c' := by
  rcases twoTickStage_cases _ sysStringByteStage c with ⟨hs, e⟩ | ⟨hs, e⟩ | ⟨h0, h1, e⟩
  · rw [sysStage, e] at he
    split at he
    · rename_i hx
      obtain ⟨rfl, rfl⟩ := Res.ok.inj he
      exact .sysPrint h ho hs hx
    · rename_i hx1
      split at he
      · rename_i hx
        obtain ⟨rfl, rfl⟩ := Res.ok.inj he
        exact .sysStart h ho hs hx
      · rename_i hx2
        obtain ⟨rfl, rfl⟩ := Res.ok.inj he
        exact .sysOther h ho hs hx1 hx2
  · rw [sysStage, e] at he
    obtain ⟨hr, he⟩ := fetchByte_bind_ok c _ es c' he
    split at he
    · rename_i hb
      obtain ⟨rfl, rfl⟩ := Res.ok.inj he
      exact .sysEnd h ho hs hr hb
    · rename_i hb
      obtain ⟨rfl, rfl⟩ := Res.ok.inj he
      exact .sysByte h ho hs hr hb
  · rw [sysStage, e] at he
    obtain ⟨rfl, rfl⟩ := Res.ok.inj he
    exact .unexpectedExecute h (by simp [ho, h0, h1])

theorem executeStage_move (c : CoreState) (h : c.STEP = .execute) (es : List Event) (c' : CoreState)
    (he : executeStage c = .ok es c') : StageMove c es c' := by
  unfold executeStage at he
  split at he
  · rename_i ho
    obtain ⟨hr, he⟩ := fetchByte_bind_ok c _ es c' he
    obtain ⟨rfl, rfl⟩ := Res.ok.inj he
    exact .ldaImm h ho hr
  · rename_i ho
    obtain ⟨hr, he⟩ := fetchByte_bind_ok c _ es c' he
    obtain ⟨rfl, rfl⟩ := Res.ok.inj he
    exact .ldxImm h ho hr
  · rename_i ho
    obtain ⟨hr, he⟩ := fetchByte_bind_ok c _ es c' he
    obtain ⟨rfl, rfl⟩ := Res.ok.inj he
    exact .ldyImm h ho hr
  · rename_i ho
    rcases twoTickStage_cases firstReadStage
      (fun c => (tuReadByte c).bind fun v c => .ok [] { c with A := v, SUB := 0, STEP := .fetch }) c with
      ⟨hs, e⟩ | ⟨hs, e⟩ | ⟨h0, h1, e⟩ <;> rw [ldaAbsStage, e] at he
    · exact firstReadStage_move c h (.inl ho) hs es c' he
    · obtain ⟨hr, he⟩ := tuReadByte_bind_ok c _ es c' he
      obtain ⟨rfl, rfl⟩ := Res.ok.inj he
      exact .ldaAbs h ho hs hr
    · obtain ⟨rfl, rfl⟩ := Res.ok.inj he
      exact .unexpectedExecute h (by simp [ho, h0, h1])
  · rename_i ho
    rcases twoTickStage_cases (fun c => .ok [] { tuStageWrite c.A c with SUB := 1 })
      (fun c => .ok [] { c with SUB := 0, STEP := .writeback }) c with
      ⟨hs, e⟩ | ⟨hs, e⟩ | ⟨h0, h1, e⟩ <;> rw [staAbsStage, e] at he <;> obtain ⟨rfl, rfl⟩ := Res.ok.inj he
    · exact .staStage h ho hs
    · exact .staHand h ho hs
    · exact .unexpectedExecute h (by simp [ho, h0, h1])
  · rename_i ho
    obtain ⟨hr, he⟩ := tuReadByte_bind_ok c _ es c' he
    obtain ⟨rfl, rfl⟩ := Res.ok.inj he
    exact .adcAbs h ho hr
  · rename_i ho
    rcases twoTickStage_cases firstReadStage
      (fun c => (tuReadByte c).bind fun v c =>
        .ok [] { tuStageWrite (incByte v) c with SUB := 0, STEP := .writeback }) c with
      ⟨hs, e⟩ | ⟨hs, e⟩ | ⟨h0, h1, e⟩ <;> rw [incAbsStage, e] at he
    · exact firstReadStage_move c h (.inr (.inl ho)) hs es c' he
    · obtain ⟨hr, he⟩ := tuReadByte_bind_ok c _ es c' he
      obtain ⟨rfl, rfl⟩ := Res.ok.inj he
      exact .incAbs h ho hs hr
    · obtain ⟨rfl, rfl⟩ := Res.ok.inj he
      exact .unexpectedExecute h (by simp [ho, h0, h1])
  · rename_i ho
    rcases twoTickStage_cases firstReadStage
      (fun c => (tuReadByte c).bind fun v c =>
        .ok [] { c with CF := compareFlag c.X v, SUB := 0, STEP := .fetch }) c with
      ⟨hs, e⟩ | ⟨hs, e⟩ | ⟨h0, h1, e⟩ <;> rw [cpxAbsStage, e] at he
    · exact firstReadStage_move c h (.inr (.inr ho)) hs es c' he
    · obtain ⟨hr, he⟩ := tuReadByte_bind_ok c _ es c' he
      obtain ⟨rfl, rfl⟩ := Res.ok.inj he
      exact .cpxAbs h ho hs hr
    · obtain ⟨rfl, rfl⟩ := Res.ok.inj he
      exact .unexpectedExecute h (by simp [ho, h0, h1])
  · rename_i ho
    obtain ⟨hr, he⟩ := fetchByte_bind_ok c _ es c' he
    obtain ⟨rfl, rfl⟩ := Res.ok.inj he
    exact .bneRel h ho hr
  · rename_i ho
    obtain ⟨rfl, rfl⟩ := Res.ok.inj he
    exact .brk h ho
  · rename_i ho
    exact sysStage_move c h ho es c' he
  · rename_i ho
    obtain ⟨rfl, rfl⟩ := Res.ok.inj he
    exact .unexpectedExecute h (.inr (.inl ho))
  · rename_i ho
    obtain ⟨rfl, rfl⟩ := Res.ok.inj he
    exact .unexpectedExecute h (.inl ho)

theorem writeStage_move (c : CoreState) (h : c.STEP = .writeback)
    (ho : opcodeOf c.IR = some .staAbs ∨ opcodeOf c.IR = some .incAbs) (es : List Event) (c' : CoreState)
    (he : writeStage c = .ok es c') : StageMove c es c' := by
  unfold writeStage at he
  by_cases hr : InRange c.AR
  · rw [tuWriteByte_ok c hr] at he
    obtain ⟨rfl, rfl⟩ := Res.ok.inj he
    exact .write h ho hr
  · rw [tuWriteByte_raised c hr] at he
    cases he

theorem writebackStage_move (c : CoreState) (h : c.STEP = .writeback) (es : List Event) (c' : CoreState)
    (he : writebackStage c = .ok es c') : StageMove c es c' := by
  unfold writebackStage at he
  split at he
  · rename_i ho
    exact writeStage_move c h (.inl ho) es c' he
  · rename_i ho
    exact writeStage_move c h (.inr ho) es c' he
  · rename_i h1 h2
    obtain ⟨rfl, rfl⟩ := Res.ok.inj he
    exact .unexpectedWriteback h h1 h2

/-- A stage handler that ends without a fault made one of the listed moves. -/
theorem stageHandler_move (c : CoreState) (es : List Event) (c' : CoreState) (he : stageHandler c = .ok es c') :
    StageMove c es c' := by
  unfold stageHandler at he
  split at he
  · rename_i h
    obtain ⟨hr, he⟩ := fetchByte_bind_ok c _ es c' he
    obtain ⟨rfl, rfl⟩ := Res.ok.inj he
    exact .fetch h hr
  · rename_i h
    exact decodeStage_move c h es c' he
  · rename_i h
    exact executeStage_move c h es c' he
  · rename_i h
    exact writebackStage_move c h es c' he
  · rename_i h
    obtain ⟨rfl, rfl⟩ := Res.ok.inj he
    exact .halted h

end Sys2Proof.Machine
end

