-- ==== Sys2Proof/Laws/Runs.lean ====
section
/-! SUPPORT. Sequences of ticks: what a list of handlers keeps, how the tick machine and a list of handlers meet, and
that the ticks to a boundary are bounded, so that the fuel of `runToBoundary` never runs out. -/

namespace Sys2Proof.Machine

/-! ## One tick under another handler -/

theorem tickAround_congr (p q : State → Pulse) (s : State) (h : p (beforeTick s) = q (beforeTick s)) :
    tickAround p s = tickAround q s := by
  unfold tickAround
  rw [h]

/-- A tick looks at its handler at the present core only. -/
theorem tickAround_pulseWith_congr (h k : Handler) (s : State) (e : h s.toCoreState = k s.toCoreState) :
    tickAround (pulseWith h) s = tickAround (pulseWith k) s :=
  tickAround_congr _ _ s (pulseWith_congr h k _ (by simpa using e))

/-- Outside HALTED the machine's tick is the tick around the stage handler. -/
theorem tickAround_processorPulse (s : State) (h : s.STEP ≠ .halted) :
    tickAround processorPulse s = tickAround (pulseWith stageHandler) s :=
  tickAround_congr _ _ s (processorPulse_eq _ (by simpa using h))

theorem tick_eq (s : State) (h : s.STEP ≠ .halted) : tick s = tickAround (pulseWith stageHandler) s :=
  tickAround_processorPulse s h

/-- The machine's tick where the handler of the current stage is known to be `h`. -/
theorem tickAround_processorPulse_eq (s : State) (h : Handler) (hs : s.STEP ≠ .halted)
    (e : stageHandler s.toCoreState = h s.toCoreState) :
    tickAround processorPulse s = tickAround (pulseWith h) s := by
  rw [tickAround_processorPulse s hs, tickAround_pulseWith_congr _ _ s e]

/-- What the machine's tick leaves of the core when it runs: one stage move, or nothing in HALTED. -/
theorem tick_move (s t : State) (h : tickAround processorPulse s = .ran t) :
    ∃ es, StageMove s.toCoreState es t.toCoreState ∧ t.FAULT = none ∧ s.FAULT = none ∧
      t.programOut = s.programOut ++ es.filter Event.ofProgram := by
  by_cases hs : s.STEP = .halted
  · rcases tickAround_cases processorPulse s with ⟨s', -, hf, hp, he⟩ | ⟨r, s', -, -, -, he⟩ | ⟨-, he⟩
    · rw [he] at h
      obtain rfl := TickResult.ran.inj h
      have hp' : Pulse.done (beforeTick s) = .done s' := by
        rw [← hp, processorPulse, if_pos (by simpa using hs)]
      obtain rfl := Pulse.done.inj hp'
      refine ⟨[], ?_, by simpa using hf, by simpa using hf, by simp [State.programOut]⟩
      simpa using StageMove.halted hs
    · rw [he] at h; cases h
    · rw [he] at h; cases h
  · rw [tickAround_processorPulse s hs] at h
    obtain ⟨es, h1, h2, h3, h4⟩ := tickAround_pulseWith_ran stageHandler s t h
    exact ⟨es, stageHandler_move _ _ _ h1, h2, h3, h4⟩

/-! ## What a list of handlers keeps -/

/-- A relation that every handler of a list respects, and that holds across pauses, holds across the list. -/
theorem runStages_keeps (R : CoreState → CoreState → Prop) (refl : ∀ c, R c c)
    (trans : ∀ a b c, R a b → R b c → R a c) (hs : List Handler)
    (keeps : ∀ h ∈ hs, ∀ c es c', h c = .ok es c' → R c c') (s t : State)
    (h : runStages hs s = .ran t ∨ runStages hs s = .paused t) : R s.toCoreState t.toCoreState := by
  induction hs generalizing s with
  | nil =>
    rcases h with h | h
    · obtain rfl := TickResult.ran.inj h
      exact refl _
    · cases h
  | cons k hs ih =>
    rw [runStages_cons] at h
    cases hk : tickAround (pulseWith k) s with
    | ran s1 =>
      rw [hk] at h
      obtain ⟨es, he, -⟩ := tickAround_pulseWith_ran k s s1 hk
      exact trans _ _ _ (keeps k (by simp) _ _ _ he) (ih (fun h hh => keeps h (by simp [hh])) s1 h)
    | paused s1 =>
      rw [hk] at h
      obtain ⟨rfl, -⟩ := tickAround_paused _ s s1 hk
      rcases h with h | h
      · cases h
      · obtain rfl := TickResult.paused.inj h
        simpa using refl s.toCoreState
    | raised r s1 =>
      rw [hk] at h
      rcases h with h | h <;> cases h

/-- The same for the ticks to a boundary. -/
theorem runToBoundary_keeps (R : CoreState → CoreState → Prop) (refl : ∀ c, R c c)
    (trans : ∀ a b c, R a b → R b c → R a c) (k : Handler)
    (keeps : ∀ c es c', k c = .ok es c' → R c c') (fuel : Nat) (s t : State)
    (h : runToBoundary (pulseWith k) fuel s = .ran t ∨ runToBoundary (pulseWith k) fuel s = .paused t) :
    R s.toCoreState t.toCoreState := by
  induction fuel generalizing s with
  | zero =>
    rcases h with h | h
    · obtain rfl := TickResult.ran.inj h
      exact refl _
    · cases h
  | succ fuel ih =>
    rw [runToBoundary] at h
    cases hk : tickAround (pulseWith k) s with
    | ran s1 =>
      rw [hk] at h
      obtain ⟨es, he, -⟩ := tickAround_pulseWith_ran k s s1 hk
      simp only [TickResult.andThen_ran] at h
      split at h
      · rcases h with h | h
        · obtain rfl := TickResult.ran.inj h
          exact keeps _ _ _ he
        · cases h
      · exact trans _ _ _ (keeps _ _ _ he) (ih s1 h)
    | paused s1 =>
      rw [hk] at h
      obtain ⟨rfl, -⟩ := tickAround_paused _ s s1 hk
      rcases h with h | h
      · cases h
      · obtain rfl := TickResult.paused.inj h
        simpa using refl s.toCoreState
    | raised r s1 =>
      rw [hk] at h
      rcases h with h | h <;> cases h

/-! ## A list of handlers and the tick machine -/

/-- A handler list and the tick machine take the same ticks when the machine's stage is the list's head and, after it,
the rest of the list is what the machine goes on with. -/
theorem runStages_cons_eq_runToBoundary (h : Handler) (hs : List Handler) (fuel : Nat) (s : State)
    (hne : s.STEP ≠ .halted) (e : stageHandler s.toCoreState = h s.toCoreState)
    (rest : ∀ es t, h s.toCoreState = .ok es t.toCoreState →
      (AtBoundary t.toCoreState ∧ hs = []) ∨
        (¬ AtBoundary t.toCoreState ∧ runStages hs t = runToBoundary processorPulse fuel t)) :
    runStages (h :: hs) s = runToBoundary processorPulse (fuel + 1) s := by
  rw [runStages_cons, runToBoundary, tickAround_processorPulse_eq s h hne e]
  cases hk : tickAround (pulseWith h) s with
  | ran t =>
    obtain ⟨es, he, -⟩ := tickAround_pulseWith_ran h s t hk
    rcases rest es t he with ⟨hb, rfl⟩ | ⟨hb, hr⟩
    · simp [hb]
    · simp only [TickResult.andThen_ran, if_neg hb, hr]
  | paused t => rfl
  | raised r t => rfl

/-! ## The ticks to a boundary are bounded -/

/-- An upper bound on the ticks from a core to its instruction's boundary (40_pipeline.md R101). -/
def ticksLeft (c : CoreState) : Nat :=
  match c.STEP with
  | .fetch => 65541
  | .decode => if c.SUB = 0 then 65540 else 65539
  | .execute =>
    if opcodeOf c.IR = some .sys then
      if c.SUB = 1 then (if InRange c.IP then (65536 - c.IP).toNat else 0) + 1 else 65538
    else if c.SUB = 0 then 3 else 2
  | .writeback => 1
  | .halted => 1

theorem ticksLeft_pos (c : CoreState) : 0 < ticksLeft c := by
  unfold ticksLeft
  split
  · decide
  · split <;> decide
  · split
    · split
      · omega
      · decide
    · split <;> decide
  · decide
  · decide

theorem ticksLeft_execute_le (c : CoreState) (h : c.STEP = .execute) : ticksLeft c ≤ 65538 := by
  simp only [ticksLeft, h]
  split
  · split
    · split
      · rename_i hr
        obtain ⟨h1, h2⟩ := hr
        omega
      · omega
    · omega
  · split <;> omega

theorem ticksLeft_le_fuel (c : CoreState) : ticksLeft c ≤ Config.tickFuel := by
  cases h : c.STEP with
  | execute => exact (ticksLeft_execute_le c h).trans (by decide)
  | decode => simp only [ticksLeft, h]; split <;> decide
  | fetch => simp only [ticksLeft, h]; decide
  | writeback => simp only [ticksLeft, h]; decide
  | halted => simp only [ticksLeft, h]; decide

/-- Every move ends the instruction or comes nearer to its end. -/
theorem StageMove.ticksLeft_lt {c c' : CoreState} {es : List Event} (m : StageMove c es c') :
    AtBoundary c' ∨ ticksLeft c' < ticksLeft c := by
  have hex : ∀ d : CoreState, d.STEP = .execute → ticksLeft d < 65539 := fun d hd =>
    Nat.lt_succ_of_le (ticksLeft_execute_le d hd)
  cases m with
  | fetch h hr => exact .inr (by simp [ticksLeft, h])
  | direct h hd =>
    refine .inr (lt_of_lt_of_le (hex _ rfl) ?_)
    simp only [ticksLeft, h]
    split <;> omega
  | low h hd hs ht hr => exact .inr (by simp [ticksLeft, h, hs])
  | high lo h hd hs ht hr =>
    refine .inr (lt_of_lt_of_le (hex _ rfl) ?_)
    simp only [ticksLeft, h]
    split <;> omega
  | firstRead h ho hs hr =>
    right
    rcases ho with ho | ho | ho <;> simp [ticksLeft, h, ho, hs]
  | staStage h ho hs => exact .inr (by simp [ticksLeft, h, ho, hs])
  | staHand h ho hs => exact .inr (by simp [ticksLeft, h, ho, hs])
  | incAbs h ho hs hr => exact .inr (by simp [ticksLeft, h, ho, hs])
  | sysStart h ho hs hx =>
    right
    have h0 : 0 ≤ zext c.Y := Int.natCast_nonneg _
    have hle : (if InRange (zext c.Y) then (65536 - zext c.Y).toNat else 0) ≤ 65536 := by split <;> omega
    simp only [ticksLeft, h, ho, hs, if_true, show (0 : Fin 4) ≠ 1 by decide, if_false]
    omega
  | sysByte h ho hs hr hb =>
    right
    simp only [ticksLeft, h, ho, hs, if_true, if_pos hr]
    obtain ⟨h1, h2⟩ := hr
    split
    · omega
    · omega
  | nop h hd => exact .inl (.inl rfl)
  | unrecognized h hd => exact .inl (.inl rfl)
  | ldaImm h ho hr => exact .inl (.inl rfl)
  | ldxImm h ho hr => exact .inl (.inl rfl)
  | ldyImm h ho hr => exact .inl (.inl rfl)
  | bneRel h ho hr => exact .inl (.inl rfl)
  | ldaAbs h ho hs hr => exact .inl (.inl rfl)
  | adcAbs h ho hr => exact .inl (.inl rfl)
  | cpxAbs h ho hs hr => exact .inl (.inl rfl)
  | brk h ho => exact .inl (.inr rfl)
  | sysPrint h ho hs hx => exact .inl (.inl rfl)
  | sysOther h ho hs hx1 hx2 => exact .inl (.inl rfl)
  | sysEnd h ho hs hr hb => exact .inl (.inl rfl)
  | write h ho hr => exact .inl (.inl rfl)
  | unexpectedDecode h hd h0 h1 => exact .inl (.inl rfl)
  | unexpectedExecute h hu => exact .inl (.inl rfl)
  | unexpectedWriteback h hs hi => exact .inl (.inl rfl)
  | halted h => exact .inl (.inr h)

/-- Enough fuel is as good as more: the ticks to a boundary do not depend on it. -/
theorem runToBoundary_fuel (n m : Nat) (s : State) (hn : ticksLeft s.toCoreState ≤ n)
    (hm : ticksLeft s.toCoreState ≤ m) :
    runToBoundary processorPulse n s = runToBoundary processorPulse m s := by
  induction n generalizing m s with
  | zero => exact absurd (ticksLeft_pos s.toCoreState) (by omega)
  | succ n ih =>
    cases m with
    | zero => exact absurd (ticksLeft_pos s.toCoreState) (by omega)
    | succ m =>
      rw [runToBoundary, runToBoundary]
      cases hk : tickAround processorPulse s with
      | ran t =>
        simp only [TickResult.andThen_ran]
        split
        · rfl
        · rename_i hb
          obtain ⟨es, mv, -⟩ := tick_move s t hk
          have hlt := mv.ticksLeft_lt.resolve_left hb
          exact ih m t (by omega) (by omega)
      | paused t => rfl
      | raised r t => rfl

/-- The ticks of an instruction that run to their end end at a boundary. -/
theorem runToBoundary_atBoundary (n : Nat) (s t : State) (hn : ticksLeft s.toCoreState ≤ n)
    (h : runToBoundary processorPulse n s = .ran t) : AtBoundary t.toCoreState := by
  induction n generalizing s with
  | zero => exact absurd (ticksLeft_pos s.toCoreState) (by omega)
  | succ n ih =>
    rw [runToBoundary] at h
    cases hk : tickAround processorPulse s with
    | ran s1 =>
      rw [hk, TickResult.andThen_ran] at h
      split at h
      · rename_i hb
        obtain rfl := TickResult.ran.inj h
        exact hb
      · rename_i hb
        obtain ⟨es, mv, -⟩ := tick_move s s1 hk
        have hlt := mv.ticksLeft_lt.resolve_left hb
        exact ih s1 (by omega) h
    | paused s1 => rw [hk] at h; cases h
    | raised r s1 => rw [hk] at h; cases h

/-! ## What every part of a tick respects -/

/-- The parts a tick is made of, for a relation between states. -/
structure TickParts (R : State → State → Prop) : Prop where
  refl : ∀ s, R s s
  trans : ∀ a b c, R a b → R b c → R a c
  move : ∀ s m, R s (applyMove s m)
  env : ∀ (s : State) e, R s { s with ENV := e }
  check : ∀ s, R s (interruptCheck s)
  controller : ∀ s, R s (controllerPulse s)
  clock : ∀ s, R s (clockStop s).2

variable {R : State → State → Prop}

theorem TickParts.applyMoves (h : TickParts R) (ms : List EnvMove) (s : State) : R s (applyMoves s ms) := by
  induction ms generalizing s with
  | nil => exact h.refl s
  | cons m ms ih => exact h.trans _ _ _ (h.move s m) (ih _)

theorem TickParts.boundary (h : TickParts R) (s : State) : R s (boundary s) := by
  unfold Machine.boundary
  split
  · exact h.refl s
  · exact h.trans _ _ _ (h.env s _) (h.applyMoves _ _)

theorem TickParts.beforeTick (h : TickParts R) (s : State) : R s (beforeTick s) := by
  unfold Machine.beforeTick
  generalize s.ENV = e
  induction e generalizing s with
  | nil => exact h.refl s
  | cons ms rest ih =>
    have h1 := h.trans _ _ _ (h.env s rest) (h.applyMoves ms _)
    simp only [awaitArmed]
    split
    · exact h1
    · exact h.trans _ _ _ h1 (ih _)

theorem TickParts.afterProcessor (h : TickParts R) (s : State) : R s (afterProcessor s) := by
  unfold Machine.afterProcessor
  refine h.trans _ _ _ (h.boundary s) (h.trans _ _ _ (h.boundary _) ?_)
  refine h.trans _ _ _ (h.controller _) (h.trans _ _ _ (h.boundary _) ?_)
  unfold clockCheck
  split
  · exact h.clock _
  · exact h.refl _

/-- A relation that every part of a tick respects holds across a tick of the machine that runs. -/
theorem TickParts.tick (h : TickParts R)
    (stage : ∀ (s : State) es c, StageMove s.toCoreState es c → R s (emitAll es { s with toCoreState := c }))
    (s t : State) (ht : tickAround processorPulse s = .ran t) : R s t := by
  rcases tickAround_cases processorPulse s with ⟨s', -, hf, hp, he⟩ | ⟨r, s', -, -, -, he⟩ | ⟨-, he⟩
  · rw [he] at ht
    obtain rfl := TickResult.ran.inj ht
    refine h.trans _ _ _ (h.beforeTick s) (h.trans _ _ _ ?_ (h.afterProcessor s'))
    unfold processorPulse at hp
    split at hp
    · obtain rfl := Pulse.done.inj hp
      exact h.refl _
    · unfold pulseWith at hp
      split at hp
      · rename_i es c hh
        obtain rfl := Pulse.done.inj hp
        exact h.trans _ _ _ (stage _ es c (stageHandler_move _ _ _ hh)) (h.check _)
      · cases hp
  · rw [he] at ht; cases ht
  · rw [he] at ht; cases ht

/-- The same across the ticks to a boundary, paused or not. -/
theorem TickParts.run (h : TickParts R)
    (stage : ∀ (s : State) es c, StageMove s.toCoreState es c → R s (emitAll es { s with toCoreState := c }))
    (n : Nat) (s t : State) 
    (ht : runToBoundary processorPulse n s = .ran t ∨ runToBoundary processorPulse n s = .paused t) : R s t := by
  induction n generalizing s with
  | zero =>
    rcases ht with ht | ht
    · obtain rfl := TickResult.ran.inj ht; exact h.refl _
    · cases ht
  | succ n ih =>
    rw [runToBoundary] at ht
    cases hk : tickAround processorPulse s with
    | ran s1 =>
      have h1 := h.tick stage s s1 hk
      rw [hk, TickResult.andThen_ran] at ht
      split at ht
      · rcases ht with ht | ht
        · obtain rfl := TickResult.ran.inj ht; exact h1
        · cases ht
      · exact h.trans _ _ _ h1 (ih s1 ht)
    | paused s1 =>
      rw [hk] at ht
      rcases ht with ht | ht
      · cases ht
      · obtain rfl := TickResult.paused.inj ht
        obtain ⟨rfl, -⟩ := tickAround_paused _ _ _ hk
        exact h.beforeTick s
    | raised r s1 =>
      rw [hk] at ht
      rcases ht with ht | ht <;> cases ht

/-! ## Handler lists on the core alone -/

/-- A list of handlers on the core alone, one after the other. -/
def coreRun : List Handler → CoreState → Res (List Event)
  | [], c => .ok [] c
  | h :: hs, c => (h c).bind fun es c => (coreRun hs c).bind fun es' c => .ok (es ++ es') c

/-- Every core but the last of a handler list has not halted. -/
def coreRunsOn : List Handler → CoreState → Prop
  | [], _ => True
  | h :: hs, c =>
    match h c with
    | .ok _ c' => hs = [] ∨ (c'.HALT = false ∧ coreRunsOn hs c')
    | .raised _ _ => True

/-- A running machine takes the ticks of a handler list as the handlers on the core alone do. -/
theorem runStages_running (hs : List Handler) (s : State) (hr : s.Running) (es : List Event) (c : CoreState)
    (hn : hs ≠ []) (ho : coreRunsOn hs s.toCoreState) (h : coreRun hs s.toCoreState = .ok es c) :
    ∃ t, runStages hs s = .ran t ∧ t.toCoreState = c ∧
      t.programOut = s.programOut ++ es.filter Event.ofProgram ∧ t.FAULT = none ∧ NoStop t.ENV ∧
      t.ARMED = !c.HALT := by
  induction hs generalizing s es with
  | nil => exact absurd rfl hn
  | cons k hs ih =>
    rw [coreRun] at h
    cases hk : k s.toCoreState with
    | raised r c1 => rw [hk] at h; cases h
    | ok e1 c1 =>
      rw [hk] at h
      change (coreRun hs c1).bind _ = _ at h
      cases hq : coreRun hs c1 with
      | raised r c2 => rw [hq] at h; cases h
      | ok e2 c2 =>
        rw [hq] at h
        obtain ⟨rfl, rfl⟩ := Res.ok.inj h
        simp only [coreRunsOn, hk] at ho
        rcases ho with rfl | ⟨hh, ho⟩
        · obtain ⟨rfl, rfl⟩ := Res.ok.inj hq
          obtain ⟨t, h1, h2⟩ := tickAround_running k s hr e1 c1 hk
          exact ⟨t, by rw [runStages_cons, h1]; rfl, by simpa using h2⟩
        · by_cases hne : hs = []
          · subst hne
            obtain ⟨rfl, rfl⟩ := Res.ok.inj hq
            obtain ⟨t, h1, h2⟩ := tickAround_running k s hr e1 c1 hk
            exact ⟨t, by rw [runStages_cons, h1]; rfl, by simpa using h2⟩
          · obtain ⟨t, h1, h2, h3, h4⟩ := tickAround_runs_on k s hr e1 c1 hk hh
            subst h2
            obtain ⟨u, g1, g2, g3, g4⟩ := ih t h4 e2 hne ho hq
            exact ⟨u, by rw [runStages_cons, h1]; exact g1, g2, by rw [g3, h3]; simp, g4⟩

end Sys2Proof.Machine
end

