-- ==== Sys2Proof/Tests/Slice0.lean ====
section
/-! SUPPORT. The model's own tests: the well-formedness smoke test, decoding of words written out from the spec's
encodings, one step per instruction with the results of 95_test_vectors.md, and for every statement with hypotheses a
concrete state and operands that meet them. -/

namespace Sys2Proof.Tests

open Sys2Proof.Machine Sys2Proof.Claims

/-! ## Helpers -/

/-- The reset state with a memory and an instruction pointer, the clock armed. -/
def placed (ip : Int) (m : Memory) : State := { State.reset with IP := ip, M := m, ARMED := true }

/-- A view of the state a step leads to. -/
def seen {α : Type} (f : State → α) (r : Host.Outcome State Fault Refusal) : Option α :=
  match r with
  | .next t => some (f t)
  | .fault _ => none
  | .refused _ => none

/-- The state a step leads to, or a stand-in. -/
def nextOf (r : Host.Outcome State Fault Refusal) : State := (seen id r).getD State.reset

/-- The state a step faults in, or a stand-in. -/
def faultedOf (r : Host.Outcome State Fault Refusal) : State :=
  match r with
  | .fault (.addressOutOfRange _ t) => t
  | .fault (.protocolMisuse t) => t
  | .next t => t
  | .refused _ => State.reset

/-- Whether a step answers a next state. -/
def goesOn (r : Host.Outcome State Fault Refusal) : Bool := (seen id r).isSome

/-- The address a step faults on. -/
def faultAddress (r : Host.Outcome State Fault Refusal) : Option Int :=
  match r with
  | .fault (.addressOutOfRange a _) => some a
  | _ => none

/-- Whether a step faults on a misused combiner. -/
def misuses (r : Host.Outcome State Fault Refusal) : Bool :=
  match r with
  | .fault (.protocolMisuse _) => true
  | _ => false

theorem next_of (r : Host.Outcome State Fault Refusal) (h : goesOn r = true) : r = .next (nextOf r) := by
  cases r with
  | next t => rfl
  | fault e => cases h
  | refused e => cases h

theorem fault_of (r : Host.Outcome State Fault Refusal) (a : Int) (h : faultAddress r = some a) :
    r = .fault (.addressOutOfRange a (faultedOf r)) := by
  rcases r with t | ⟨b, t⟩ | e
  · cases h
  · obtain rfl := Option.some.inj h
    rfl
  · cases h
  · cases h

theorem misuse_of (r : Host.Outcome State Fault Refusal) (h : misuses r = true) :
    r = .fault (.protocolMisuse (faultedOf r)) := by
  rcases r with t | ⟨b, t⟩ | e
  · cases h
  · cases h
  · rfl
  · cases h

/-- The state a tick leads to. -/
def tickedOf (r : TickResult) : State :=
  match r with
  | .ran t => t
  | .paused t => t
  | .raised _ t => t

/-- The core and the events a handler leaves. -/
def stagedOf (r : Res (List Event)) : List Event × CoreState :=
  match r with
  | .ok es c => (es, c)
  | .raised _ c => ([], c)

theorem noStop_nil : NoStop [] := fun _ h => nomatch h
theorem noStart_nil : NoStart [] := fun _ h => nomatch h

theorem placed_running (ip : Int) (m : Memory) : (placed ip m).Running := ⟨rfl, rfl, rfl, noStop_nil⟩

theorem placed_inv (ip : Int) (m : Memory) (h : Memory.wf m) : (placed ip m).Inv :=
  ⟨rfl, h, show (-255 : Int) ≤ 0 ∧ (0 : Int) ≤ 255 by decide, show false = true ↔ Stage.fetch = .halted by decide,
    (fun _ hn => nomatch hn), (fun _ hn => nomatch hn), ⟨rfl, rfl⟩⟩

/-! ## Well-formedness: the one check, and terms it refuses -/

theorem smoke_unrecognized_ldaImm : ¬ (Instr.unrecognized 0xA9#8).WellFormed := by decide
theorem smoke_unrecognized_brk : ¬ (Instr.unrecognized 0x00#8).WellFormed := by decide
theorem smoke_unrecognized_gap : (Instr.unrecognized 0x01#8).WellFormed := by decide

/-! ## Decoding: words written out bit by bit, operand bytes above the opcode byte (30_encoding.md R71 to R78) -/

/-- LDA # 5: opcode 1010 1001, operand 0000 0101. -/
theorem test_decode_ldaImm : decodeTableWord 16 0b0000010110101001 = some (.ldaImm 5#8) := by decide
/-- LDX # 127: opcode 1010 0010. -/
theorem test_decode_ldxImm : decodeTableWord 16 0b0111111110100010 = some (.ldxImm 127#8) := by decide
/-- LDY # 16: opcode 1010 0000. -/
theorem test_decode_ldyImm : decodeTableWord 16 0b0001000010100000 = some (.ldyImm 16#8) := by decide
/-- LDA 0x1234: opcode 1010 1101, low byte 0011 0100, high byte 0001 0010. -/
theorem test_decode_ldaAbs : decodeTableWord 24 0b000100100011010010101101 = some (.ldaAbs 0x1234#16) := by decide
/-- STA 0x0010: opcode 1000 1101. -/
theorem test_decode_staAbs : decodeTableWord 24 0b000000000001000010001101 = some (.staAbs 0x0010#16) := by decide
/-- ADC 0x0040: opcode 0110 1101. -/
theorem test_decode_adcAbs : decodeTableWord 24 0b000000000100000001101101 = some (.adcAbs 0x0040#16) := by decide
/-- INC 0x0020: opcode 1110 1110. -/
theorem test_decode_incAbs : decodeTableWord 24 0b000000000010000011101110 = some (.incAbs 0x0020#16) := by decide
/-- CPX 0xFFFE: opcode 1110 1100. -/
theorem test_decode_cpxAbs : decodeTableWord 24 0b111111111111111011101100 = some (.cpxAbs 0xFFFE#16) := by decide
/-- BNE -8: opcode 1101 0000, operand 1111 1000. -/
theorem test_decode_bneRel : decodeTableWord 16 0b1111100011010000 = some (.bneRel 0xF8#8) := by decide
/-- NOP: 1110 1010. -/
theorem test_decode_nop : decodeTableWord 8 0b11101010 = some .nop := by decide
/-- BRK: 0000 0000. -/
theorem test_decode_brk : decodeTableWord 8 0b00000000 = some .brk := by decide
/-- SYS: 1111 1111. -/
theorem test_decode_sys : decodeTableWord 8 0b11111111 = some .sys := by decide
/-- 0000 0010 is no opcode. -/
theorem test_decode_unrecognized : decodeTableWord 8 0b00000010 = some (.unrecognized 2#8) := by decide

/-- An operand the table gives no bits is zeros. -/
theorem test_decode_short_word : decodeTableWord 8 0xAD = some (.ldaAbs 0#16) := by decide
theorem test_decode_empty : decode [] = .error .noOpcode := by decide
theorem test_decode_cut_short : decode [0xAD#8, 0x34#8] = .error (.missingOperand .ldaAbs) := by decide
theorem test_encode_ldaAbs : encode (.ldaAbs 0x1234#16) = [0xAD#8, 0x34#8, 0x12#8] := by decide

/-! ## One step of each instruction (95_test_vectors.md Parts 1 and 2) -/

/-- 95_test_vectors.md 2.1. -/
theorem test_ldaImm :
    seen (fun t => (t.A, t.IP, t.AR, t.DR, t.CF)) (step (placed 0 [(0, 0xA9#8), (1, 0x80#8)])) =
      some (0x80#8, 2, 1, 0x80#8, 0) := by decide
/-- 95_test_vectors.md 2.1. -/
theorem test_ldxImm :
    seen (fun t => (t.X, t.A, t.Y, t.IP)) (step (placed 0 [(0, 0xA2#8), (1, 0x7F#8)])) =
      some (0x7F#8, 0#8, 0#8, 2) := by decide
/-- 95_test_vectors.md 2.1. -/
theorem test_ldyImm :
    seen (fun t => (t.Y, t.A, t.X, t.IP)) (step (placed 0 [(0, 0xA0#8), (1, 0x10#8)])) =
      some (0x10#8, 0#8, 0#8, 2) := by decide
/-- 95_test_vectors.md 2.2. -/
theorem test_ldaAbs :
    seen (fun t => (t.A, t.IP, t.AR, t.DR, t.STASH))
      (step (placed 0 [(0, 0xAD#8), (1, 0x34#8), (2, 0x12#8), (0x1234, 0x77#8)])) =
      some (0x77#8, 3, 0x1234, 0x77#8, none) := by decide
/-- 95_test_vectors.md 2.2: `AD 01 00` reads its own low operand byte. -/
theorem test_ldaAbs_own_byte :
    seen (fun t => t.A) (step (placed 0 [(0, 0xAD#8), (1, 0x01#8)])) = some 0x01#8 := by decide
/-- 95_test_vectors.md 2.2. -/
theorem test_staAbs :
    seen (fun t => (t.M.read 0x10, t.A, t.DR, t.STAGED, t.IP))
      (step { placed 0 [(0, 0x8D#8), (1, 0x10#8)] with A := 0x2A#8 }) =
      some (0x2A#8, 0x2A#8, 0x2A#8, 0x2A#8, 3) := by decide
/-- 95_test_vectors.md 2.2: `8D FF FF` writes the last cell without a fault. -/
theorem test_staAbs_last_cell :
    seen (fun t => t.M.read 65535)
      (step { placed 0 [(0, 0x8D#8), (1, 0xFF#8), (2, 0xFF#8)] with A := 7#8 }) = some 7#8 := by decide
/-- 95_test_vectors.md 2.3: 0xFF + 0x01 is 0x00, no flag. -/
theorem test_adcAbs_wraps :
    seen (fun t => (t.A, t.CF, t.AR))
      (step { placed 0 [(0, 0x6D#8), (1, 0x40#8), (0x40, 0x01#8)] with A := 0xFF#8 }) =
      some (0x00#8, 0, 0x40) := by decide
/-- 95_test_vectors.md 2.3: 0x7F + 0x01 is 0x80. -/
theorem test_adcAbs_sign :
    seen (fun t => t.A) (step { placed 0 [(0, 0x6D#8), (1, 0x40#8), (0x40, 0x01#8)] with A := 0x7F#8 }) =
      some 0x80#8 := by decide
/-- 95_test_vectors.md 2.4. -/
theorem test_incAbs :
    seen (fun t => (t.M.read 0x20, t.DR, t.STAGED, t.A, t.CF))
      (step (placed 0 [(0, 0xEE#8), (1, 0x20#8), (0x20, 0x7F#8)])) =
      some (0x80#8, 0x80#8, 0x80#8, 0#8, 0) := by decide
/-- 95_test_vectors.md 2.4: 0xFF wraps to 0x00. -/
theorem test_incAbs_wraps :
    seen (fun t => t.M.read 0x20) (step (placed 0 [(0, 0xEE#8), (1, 0x20#8), (0x20, 0xFF#8)])) =
      some 0x00#8 := by decide
/-- 95_test_vectors.md 2.5. -/
theorem test_cpxAbs_negative :
    seen (fun t => (t.CF, t.X)) (step (placed 0 [(0, 0xEC#8), (1, 0x20#8), (0x20, 0xFF#8)])) =
      some (-255, 0#8) := by decide
/-- 95_test_vectors.md 2.5: unsigned, 0x80 is above 0x7F. -/
theorem test_cpxAbs_unsigned :
    seen (fun t => t.CF) (step { placed 0 [(0, 0xEC#8), (1, 0x20#8), (0x20, 0x7F#8)] with X := 0x80#8 }) =
      some 1 := by decide
/-- 95_test_vectors.md 2.6: farthest backward. -/
theorem test_bneRel_taken :
    seen (fun t => (t.IP, t.AR, t.DR)) (step { placed 200 [(200, 0xD0#8), (201, 0x80#8)] with CF := 1 }) =
      some (74, 201, 0x80#8) := by decide
/-- 95_test_vectors.md 2.6: not taken. -/
theorem test_bneRel_not_taken :
    seen (fun t => t.IP) (step (placed 8 [(8, 0xD0#8), (9, 0xF8#8)])) = some 10 := by decide
/-- 95_test_vectors.md 2.7. -/
theorem test_nop :
    seen (fun t => (t.IP, t.IR, t.STEP, t.OUT)) (step (placed 0 [(0, 0xEA#8)])) =
      some (1, 0xEA#8, .fetch, []) := by decide
/-- 95_test_vectors.md 2.7, the empty memory: one HaltDump, the clock stopped. -/
theorem test_brk :
    seen (fun t => (t.IP, t.STEP, t.HALT, t.ARMED, t.OUT)) (step (placed 0 [])) =
      some (1, .halted, true, false, [.haltDump []]) := by decide
/-- 95_test_vectors.md 2.7: BRK at 65535 halts without a fault. -/
theorem test_brk_last_cell :
    seen (fun t => (t.IP, t.STEP)) (step (placed 65535 [])) = some (65536, .halted) := by decide
/-- 95_test_vectors.md 2.7. -/
theorem test_unrecognized :
    seen (fun t => (t.IP, t.IR, t.STEP, t.OUT)) (step (placed 0 [(0, 0x02#8)])) =
      some (1, 0x02#8, .fetch, [.unknownOpcode 0x02#8]) := by decide
/-- 95_test_vectors.md 2.8, row 1. -/
theorem test_sys_hex :
    seen (fun t => (t.IP, t.OUT)) (step { placed 0 [(0, 0xFF#8)] with X := 1#8, Y := 0x2A#8 }) =
      some (1, [.printHex 0x2A#8]) := by decide
/-- 95_test_vectors.md 2.8, row 3, with the opcode at 9. -/
theorem test_sys_string :
    seen (fun t => (t.IP, t.SIP, t.AR, t.DR, t.OUT))
      (step { placed 9 [(9, 0xFF#8), (16, 0x48#8), (17, 0x49#8)] with X := 2#8, Y := 16#8 }) =
      some (10, 10, 18, 0#8, [.printChar 0x48#8, .printChar 0x49#8]) := by decide

/-- 95_test_vectors.md F1: the operand lies past the last cell. -/
theorem test_fault_operand :
    (faultedOf (step { placed 65535 [(65535, 0xA9#8)] with A := 0x11#8 })).toCoreState =
      { State.reset.toCoreState with
        IP := 65536, IR := 0xA9#8, A := 0x11#8, AR := 65536, DR := 0xA9#8, STEP := .execute,
        M := [(65535, 0xA9#8)] } := by decide
/-- 95_test_vectors.md F5: protocol misuse, before anything is read. -/
theorem test_protocol_misuse :
    seen id (step { placed 0 [] with STEP := .decode, IR := 0xAD#8, STASH := some 0x99#8 }) = none ∧
    (faultedOf (step { placed 0 [] with STEP := .decode, IR := 0xAD#8, STASH := some 0x99#8 })).FAULT =
      some .protocolMisuse := by decide
/-- 95_test_vectors.md F6: WRITEBACK with an opcode that has no business there. -/
theorem test_unexpected_state :
    seen (fun t => (t.STEP, t.SUB, t.OUT, t.M)) (step { placed 0 [] with STEP := .writeback, IR := 0xA9#8 }) =
      some (.fetch, 0, [.unexpectedState], []) := by decide

/-- 95_test_vectors.md IC2: deliveries of four levels, the first of seven. -/
def fourLevels : State :=
  { State.reset with
    REG := [⟨"a", .none, []⟩, ⟨"b", .regular, []⟩, ⟨"c", .high, []⟩, ⟨"d", .veryHigh, []⟩]
    BUF := [0, 1, 2, 3, 1, 2] }
/-- 95_test_vectors.md IC2, the seven pulses. -/
theorem test_controller :
    (controllerPulse fourLevels).PEND = some 3 ∧ (controllerPulse fourLevels).BUF = [0, 1, 2, 1, 2] ∧
    (controllerPulse { fourLevels with BUF := [0, 1, 2, 1, 2] }).BUF = [0, 1, 1, 2] ∧
    (controllerPulse { fourLevels with BUF := [0, 1, 1, 2] }).BUF = [0, 1, 1] ∧
    (controllerPulse { fourLevels with BUF := [0, 1, 1] }).BUF = [0, 1] ∧
    (controllerPulse { fourLevels with BUF := [0] }).PEND = some 0 ∧
    controllerPulse { fourLevels with BUF := [] } = { fourLevels with BUF := [] } := by decide

/-- 95_test_vectors.md 2.10: a flash that runs past the last cell. -/
theorem test_flash_past_end :
    (faultedOf (flashProgram 65535 [1, 2] State.reset)).toCoreState =
      { State.reset.toCoreState with AR := 65536, DR := 2#8, STAGED := 2#8, M := [(65535, 1#8)] } := by decide
/-- 95_test_vectors.md 2.10: the dump of the first scenario's program. -/
theorem test_dump :
    dump { State.reset.toCoreState with M := [(0, 0xA9#8), (1, 0x05#8)] } 0 2 =
      ["0000 | A9".toList, "0001 | 05".toList, "0002 | 00".toList] := by decide
/-- A word placed at the next fetch is the instruction that the next step runs. -/
theorem test_withFetchWord :
    seen (fun t => t.A) (step (State.reset.withFetchWord 16 0x05A9)) = some 5#8 := by decide

/-! ## Witnesses: every hypothesis of every statement is met by something -/

/-- A core with its address register at `a`. -/
def coreAt (a : Int) : CoreState := { State.reset.toCoreState with AR := a, IP := a, DR := 7#8 }

/-- One registered source with a queue of one byte, one request in the buffer. -/
def oneSource : State := { placed 0 [] with REG := [⟨"keys", .high, [0x61#8]⟩], BUF := [0] }

theorem witness_DecodeOfEncodeIsIdentity :
    (Instr.unrecognized 0xFE#8).WellFormed ∧ (Instr.staAbs 0xFFFF#16).WellFormed := by decide

theorem witness_DecodedBytesAreTheEncoding :
    decode [0x8D#8, 0xFF#8, 0xFF#8, 0x00#8] = .ok (.staAbs 0xFFFF#16, [0x00#8]) := by decide

theorem witness_store_ranges :
    InRange (coreAt 0).AR ∧ InRange (coreAt 65535).AR ∧ ¬ InRange (coreAt 65536).AR ∧ ¬ InRange (coreAt (-1)).AR ∧
    Memory.wf (coreAt 65535).M := by decide

theorem witness_StoreReadCopiesCellOrRaises :
    InRange (coreAt 65535).AR ∧ ¬ InRange (coreAt 65536).AR ∧ ¬ InRange (coreAt (-1)).AR := by decide

theorem witness_StoreWriteChangesOneCellOrRaises :
    (InRange (coreAt 65535).AR ∧ Memory.wf (coreAt 65535).M ∧ ((65534 : Nat) : Int) ≠ (coreAt 65535).AR) ∧
    ¬ InRange (coreAt 65536).AR := by decide

theorem witness_WriteThenReadGivesTheByteBack :
    Memory.wf (coreAt 0).M ∧ InRange (coreAt 0).AR ∧ InRange (coreAt 65535).AR := by decide

theorem witness_CombinerStashesThenAssembles :
    (coreAt 0).STASH = none ∧ ({ coreAt 0 with STASH := some 0xFF#8 } : CoreState).STASH = some 0xFF#8 := by decide

theorem witness_WriteByteWritesTheStagedByte :
    InRange (coreAt 0).AR ∧ ¬ InRange (coreAt (-1)).AR := by decide

theorem witness_CompositeAccessesGoThroughTheRegisterPair :
    InRange 65535 ∧ Memory.wf (coreAt 0).M ∧ ((0 : Nat) : Int) ≠ 65535 ∧ ¬ InRange 65536 := by decide

theorem witness_FetchByteReadsAtIPAndAdvances :
    InRange (coreAt 65535).IP ∧ ¬ InRange (coreAt 65536).IP ∧ ¬ InRange (coreAt (-126)).IP := by decide

theorem witness_EqualCellsAreEqualMemories :
    Memory.wf [(65535, 1#8)] ∧ Memory.wf (Memory.write [] 65535 1#8) ∧
    ∀ a < 65536, Memory.read [(65535, 1#8)] a = Memory.read (Memory.write [] 65535 1#8) a :=
  ⟨by decide, by decide, fun _ _ => rfl⟩

theorem witness_InterruptCheckDrainsOneByte :
    (∃ s : State, s.PEND = some 0 ∧ s.REG[0]? = some ⟨"keys", .high, [0x61#8]⟩) ∧ State.reset.PEND = none ∧
    ∃ s : State, s.PEND = some 0 ∧ s.REG[0]? = some ⟨"keys", .high, []⟩ :=
  ⟨⟨{ oneSource with PEND := some 0 }, rfl, rfl⟩, rfl,
    ⟨{ oneSource with PEND := some 0, REG := [⟨"keys", .high, []⟩] }, rfl, rfl⟩⟩

theorem witness_ControllerDeliversEarliestHighest :
    (∀ n ∈ fourLevels.BUF, n < fourLevels.REG.length) ∧ fourLevels.BUF ≠ [] ∧
    (∀ n ∈ State.reset.BUF, n < State.reset.REG.length) ∧ State.reset.BUF = [] := by decide

theorem witness_SourcesRegisterSubmitEnqueue :
    0 < oneSource.REG.length ∧ oneSource.REG[0]? = some ⟨"keys", .high, [0x61#8]⟩ ∧ oneSource.REG.length ≤ 1 := by
  decide

theorem witness_ClockStartsOnceAndStops : State.reset.ARMED = false ∧ (placed 0 []).ARMED = true := by decide

theorem witness_HaltedTickDeliversAndStops :
    ∃ s : State, s.STEP = .halted ∧ s.HALT = true ∧ s.ARMED = true ∧ s.FAULT = none ∧ s.ENV = [] :=
  ⟨{ oneSource with STEP := .halted, HALT := true }, rfl, rfl, rfl, rfl, rfl⟩

theorem witness_OneDeliveryPerTick : oneSource.ENV = [] ∧ tick oneSource = .ran (tickedOf (tick oneSource)) := by decide

/-- A NOP's two ticks. -/
def oneSourceNop : State := { oneSource with M := [(0, 0xEA#8)] }

theorem witness_DeliveredRequestIsServicedNextTick :
    oneSourceNop.ENV = [] ∧ oneSourceNop.PEND = none ∧
    scanLevels oneSourceNop.REG oneSourceNop.BUF scanOrder = some (0, []) ∧
    oneSourceNop.REG[0]? = some ⟨"keys", .high, [0x61#8]⟩ ∧
    tick oneSourceNop = .ran (tickedOf (tick oneSourceNop)) ∧ (tickedOf (tick oneSourceNop)).STEP ≠ .halted ∧
    tick (tickedOf (tick oneSourceNop)) = .ran (tickedOf (tick (tickedOf (tick oneSourceNop)))) := by decide

/-- A machine in a DECODE with the stash wrongly full. -/
def misused : State := { placed 0 [] with STEP := .decode, IR := 0xAD#8, STASH := some 0x99#8 }

theorem misused_running : misused.Running := ⟨rfl, rfl, rfl, noStop_nil⟩

theorem witness_InterruptsLeaveTheCoreAlone :
    (oneSource.Running ∧ (placed 0 []).Running ∧ oneSource.toCoreState = (placed 0 []).toCoreState ∧
      step oneSource = .next (nextOf (step oneSource))) ∧
    ((placed (-126) []).Running ∧
      step (placed (-126) []) = .fault (.addressOutOfRange (-126) (faultedOf (step (placed (-126) []))))) ∧
    (misused.Running ∧ step misused = .fault (.protocolMisuse (faultedOf (step misused)))) :=
  ⟨⟨⟨rfl, rfl, rfl, noStop_nil⟩, placed_running _ _, rfl, next_of _ (by decide)⟩,
    ⟨placed_running _ _, fault_of _ _ (by decide)⟩, misused_running, misuse_of _ (by decide)⟩

theorem witness_RegistryIsAppendOnly :
    step oneSource = .next (nextOf (step oneSource)) ∧ oneSource.REG[0]? = some ⟨"keys", .high, [0x61#8]⟩ :=
  ⟨next_of _ (by decide), rfl⟩

theorem witness_OutputIsAppendOnly : step (placed 0 []) = .next (nextOf (step (placed 0 []))) := next_of _ (by decide)

theorem witness_StepKeepsSoundness :
    (placed 0 []).Inv ∧ step (placed 0 []) = .next (nextOf (step (placed 0 []))) :=
  ⟨placed_inv _ _ Memory.wf_nil, next_of _ (by decide)⟩

theorem witness_StepKeepsPointerBounds :
    (placed 0 []).Inv ∧ (placed 0 []).PointerInv ∧ step (placed 0 []) = .next (nextOf (step (placed 0 []))) :=
  ⟨placed_inv _ _ Memory.wf_nil, show (-126 : Int) ≤ 0 ∧ (0 : Int) ≤ 65663 by decide,
    next_of _ (by decide)⟩

theorem witness_UnarmedClockFiresNoTick :
    (State.reset.ARMED = false ∧ State.reset.FAULT = none ∧ NoStart State.reset.ENV) ∧
    ∃ s : State, s.ARMED = false ∧ s.FAULT = none ∧ NoStart s.ENV ∧ s.ENV ≠ [] :=
  ⟨⟨rfl, rfl, noStart_nil⟩, { oneSource with ARMED := false, ENV := [[.submit 0, .enqueue 0 1#8], [.stop]] }, rfl, rfl,
    by intro ms hm; fin_cases hm <;> decide, by decide⟩

theorem witness_StepRunsTheDecodedInstruction :
    (placed 65535 []).FAULT = none ∧ (placed 65535 []).STEP = .fetch ∧
    decode (streamFrom (placed 65535 []).M 3 (placed 65535 []).IP) = .ok (.brk, []) := by decide

theorem witness_StepIsTheRunOfItsTicks : misused.FAULT = none := by decide

theorem witness_FaultEndsTheRun :
    ∃ s : State, s.FAULT = some (.addressOutOfRange 65536) := ⟨{ placed 0 [] with FAULT := some _ }, rfl⟩

theorem witness_FetchOutsideTheStoreFaults :
    ((placed 65536 []).Running ∧ ¬ InRange (placed 65536 []).IP ∧ (placed 65536 []).STEP = .fetch) ∧
    ((placed (-1) []).Running ∧ ¬ InRange (placed (-1) []).IP) :=
  ⟨⟨placed_running _ _, by decide, rfl⟩, placed_running _ _, by decide⟩

theorem witness_StepEndsAtABoundary :
    step (placed 0 []) = .next (nextOf (step (placed 0 []))) ∧
    step State.reset = .next (nextOf (step State.reset)) := ⟨next_of _ (by decide), next_of _ (by decide)⟩

theorem witness_StageTransitionTable_halted :
    ∃ s : State, s.STEP = .halted ∧ stageHandler s.toCoreState = .ok [] s.toCoreState :=
  ⟨{ oneSource with STEP := .halted, HALT := true }, rfl, rfl⟩

theorem witness_HaltedCoreNeverChanges :
    ∃ s : State, s.STEP = .halted ∧ s.FAULT = none := ⟨{ oneSource with STEP := .halted, HALT := true }, rfl, rfl⟩

/-- A core at a stage, with an opcode in `IR`. -/
def staged (st : Stage) (ir : Byte) (sub : Fin 4) (x : Byte) (stash : Option Byte) : CoreState :=
  { State.reset.toCoreState with STEP := st, IR := ir, SUB := sub, X := x, STASH := stash }

/-- Every row of the transition table is met by a core whose handler ends. -/
theorem witness_StageTransitionTable :
    ∀ c ∈ [staged .fetch 0 0 0 none, staged .decode 0xA9#8 0 0 none, staged .decode 0xAD#8 0 0 none,
        staged .decode 0xAD#8 1 0 (some 1#8), staged .decode 0xEA#8 0 0 none, staged .decode 0x02#8 0 0 none,
        staged .execute 0xA9#8 0 0 none, staged .execute 0x6D#8 0 0 none, staged .execute 0xD0#8 0 0 none,
        staged .execute 0xAD#8 0 0 none, staged .execute 0xEC#8 1 0 none, staged .execute 0x8D#8 0 0 none,
        staged .execute 0xEE#8 1 0 none, staged .execute 0x00#8 0 0 none, staged .execute 0xFF#8 0 2#8 none,
        staged .execute 0xFF#8 0 1#8 none, staged .execute 0xFF#8 1 2#8 none, staged .writeback 0x8D#8 0 0 none,
        { staged .execute 0xFF#8 1 2#8 none with M := [(0, 0x48#8)] }],
      stageHandler c = .ok (stagedOf (stageHandler c)).1 (stagedOf (stageHandler c)).2 := by decide

theorem witness_AbsoluteDecodeCollectsTwoHalves :
    (∃ c : CoreState, c.SUB = 0 ∧ c.STASH ≠ none) ∧
    (∃ c : CoreState, c.SUB = 0 ∧ c.STASH = none ∧ c.IP = 65535 ∧ InRange c.IP) ∧
    (∃ c : CoreState, c.SUB = 1 ∧ c.STASH = none) ∧
    (∃ c : CoreState, c.SUB = 1 ∧ c.STASH = some 1#8 ∧ InRange c.IP) ∧
    (∃ c : CoreState, ¬ InRange c.IP ∧ c.SUB = 0 ∧ c.STASH = none) ∧
    (∃ c : CoreState, ¬ InRange c.IP ∧ c.SUB = 1 ∧ c.STASH ≠ none) ∧
    (∃ c : CoreState, c.SUB ≠ 0 ∧ c.SUB ≠ 1) :=
  ⟨⟨staged .decode 0xAD#8 0 0 (some 1#8), rfl, by decide⟩, ⟨coreAt 65535, rfl, rfl, rfl, by decide⟩,
    ⟨staged .decode 0xAD#8 1 0 none, rfl, rfl⟩, ⟨staged .decode 0xAD#8 1 0 (some 1#8), rfl, rfl, by decide⟩,
    ⟨coreAt 65536, by decide, rfl, rfl⟩,
    ⟨{ coreAt 65536 with SUB := 1, STASH := some 1#8 }, by decide, rfl, by decide⟩,
    ⟨staged .decode 0xAD#8 2 0 none, by decide, by decide⟩⟩

/-- CPX against a cell that differs. -/
def comparing : State := placed 0 [(0, 0xEC#8), (1, 0x20#8), (0x20, 0xFF#8)]

theorem witness_OnlyCpxWritesTheFlag :
    step comparing = .next (nextOf (step comparing)) ∧ (nextOf (step comparing)).CF ≠ comparing.CF :=
  ⟨next_of _ (by decide), by decide⟩

/-- INC of a cell. -/
def incrementing : State := placed 0 [(0, 0xEE#8), (1, 0x20#8)]

theorem witness_OnlyStaAndIncWriteMemory :
    step incrementing = .next (nextOf (step incrementing)) ∧
    (nextOf (step incrementing)).M.read 0x20 ≠ incrementing.M.read 0x20 := ⟨next_of _ (by decide), by decide⟩

theorem witness_NoMisuseFromSoundStates :
    incrementing.Inv ∧ step incrementing = .next (nextOf (step incrementing)) :=
  ⟨placed_inv _ _ (by decide), next_of _ (by decide)⟩

/-- A LDA abs whose clock is stopped after its first tick. -/
def pausing (ip : Int) (m : Memory) (stash : Option Byte) : State :=
  { placed ip m with STASH := stash, ENV := [[], [], [], [.stop]] }

/-- The same without the stop. -/
def unpaused (ip : Int) (m : Memory) (stash : Option Byte) : State := { placed ip m with STASH := stash }

theorem unpaused_running (ip : Int) (m : Memory) (stash : Option Byte) : (unpaused ip m stash).Running :=
  ⟨rfl, rfl, rfl, noStop_nil⟩

/-- The premises but the last, for any memory, pointer and stash. -/
theorem witness_pausing (ip : Int) (m : Memory) (stash : Option Byte) :
    (pausing ip m stash).toCoreState = (unpaused ip m stash).toCoreState ∧ (pausing ip m stash).FAULT = none :=
  ⟨rfl, rfl⟩

/-- A program whose LDA abs ends; one that runs past the last cell; one that finds the stash full. -/
theorem witness_PausedInstructionResumes :
    (step (pausing 0 [(0, 0xAD#8), (1, 0x34#8)] none) =
        .next (nextOf (step (pausing 0 [(0, 0xAD#8), (1, 0x34#8)] none))) ∧
      ¬ AtBoundary (nextOf (step (pausing 0 [(0, 0xAD#8), (1, 0x34#8)] none))).toCoreState ∧
      step (unpaused 0 [(0, 0xAD#8), (1, 0x34#8)] none) =
        .next (nextOf (step (unpaused 0 [(0, 0xAD#8), (1, 0x34#8)] none)))) ∧
    (step (pausing 65535 [(65535, 0xAD#8)] none) = .next (nextOf (step (pausing 65535 [(65535, 0xAD#8)] none))) ∧
      ¬ AtBoundary (nextOf (step (pausing 65535 [(65535, 0xAD#8)] none))).toCoreState ∧
      step (unpaused 65535 [(65535, 0xAD#8)] none) =
        .fault (.addressOutOfRange 65536 (faultedOf (step (unpaused 65535 [(65535, 0xAD#8)] none))))) ∧
    (step (pausing 0 [(0, 0xAD#8)] (some 1#8)) = .next (nextOf (step (pausing 0 [(0, 0xAD#8)] (some 1#8)))) ∧
      ¬ AtBoundary (nextOf (step (pausing 0 [(0, 0xAD#8)] (some 1#8)))).toCoreState ∧
      step (unpaused 0 [(0, 0xAD#8)] (some 1#8)) =
        .fault (.protocolMisuse (faultedOf (step (unpaused 0 [(0, 0xAD#8)] (some 1#8)))))) :=
  ⟨⟨next_of _ (by decide), by decide, next_of _ (by decide)⟩, ⟨next_of _ (by decide), by decide, fault_of _ _ (by decide)⟩,
    next_of _ (by decide), by decide, misuse_of _ (by decide)⟩

theorem witness_NonStoringInstructionsFrame :
    ∀ i ∈ [Instr.ldaImm 1#8, .ldxImm 1#8, .ldyImm 1#8, .ldaAbs 5#16, .adcAbs 5#16, .cpxAbs 5#16, .bneRel 1#8, .nop,
        .brk, .sys, .unrecognized 2#8],
      exec i (placed 0 []) = .next (nextOf (exec i (placed 0 []))) := by
  refine fun i hi => next_of _ ?_
  revert i
  decide

theorem witness_StoringInstructionsFrame :
    ∀ i ∈ [Instr.staAbs 0xFFFF#16, .incAbs 0xFFFF#16],
      exec i (placed 0 []) = .next (nextOf (exec i (placed 0 []))) := by
  refine fun i hi => next_of _ ?_
  revert i
  decide

theorem witness_QuietInstructionsLeaveInterruptsAlone :
    (placed 0 []).Running ∧ (placed 0 []).Quiet ∧ exec .nop (placed 0 []) = .next (nextOf (exec .nop (placed 0 []))) ∧
    exec .brk (placed 0 []) = .next (nextOf (exec .brk (placed 0 []))) :=
  ⟨placed_running _ _, ⟨rfl, rfl, rfl⟩, next_of _ (by decide), next_of _ (by decide)⟩

/-! ### Instructions: running at both ends of the range, standing at the bytes, standing past the end -/

theorem witness_two_byte_ranges :
    ((placed 0 []).Running ∧ 0 ≤ (placed 0 []).IP ∧ (placed 0 []).IP ≤ 65534) ∧
    ((placed 65534 []).Running ∧ 0 ≤ (placed 65534 []).IP ∧ (placed 65534 []).IP ≤ 65534) ∧
    ((placed 65535 []).Running ∧ (placed 65535 []).IP = 65535) :=
  ⟨⟨placed_running _ _, by decide⟩, ⟨placed_running _ _, by decide⟩, placed_running _ _, rfl⟩

theorem witness_three_byte_ranges :
    ((placed 0 []).Running ∧ (placed 0 []).STASH = none ∧ 0 ≤ (placed 0 []).IP ∧ (placed 0 []).IP ≤ 65533) ∧
    ((placed 65533 []).Running ∧ 0 ≤ (placed 65533 []).IP ∧ (placed 65533 []).IP ≤ 65533) ∧
    ((placed 65534 []).Running ∧ (placed 65534 []).STASH = none ∧ (placed 65534 []).IP = 65534) ∧
    ((placed 65535 []).Running ∧ (placed 65535 []).STASH = none ∧ (placed 65535 []).IP = 65535) :=
  ⟨⟨placed_running _ _, by decide⟩, ⟨placed_running _ _, by decide⟩, ⟨placed_running _ _, rfl, rfl⟩,
    placed_running _ _, rfl, rfl⟩

theorem witness_one_byte_ranges :
    ((placed 0 []).Running ∧ InRange (placed 0 []).IP) ∧ ((placed 65535 []).Running ∧ InRange (placed 65535 []).IP) :=
  ⟨⟨placed_running _ _, by decide⟩, placed_running _ _, by decide⟩

theorem witness_LdaImmLoadsTheConstant :
    FetchesBytes (placed 65534 [(65534, 0xA9#8), (65535, 5#8)]) [0xA9#8, 5#8] := ⟨placed_running _ _, rfl, by decide⟩
theorem witness_LdxImmLoadsTheConstant :
    FetchesBytes (placed 0 [(0, 0xA2#8), (1, 5#8)]) [0xA2#8, 5#8] := ⟨placed_running _ _, rfl, by decide⟩
theorem witness_LdyImmLoadsTheConstant :
    FetchesBytes (placed 0 [(0, 0xA0#8), (1, 5#8)]) [0xA0#8, 5#8] := ⟨placed_running _ _, rfl, by decide⟩

/-- The bytes of an absolute instruction on address 0x1234, at the last place with three cells. -/
def absoluteAtEnd (op : Byte) : State := placed 65533 [(65533, op), (65534, 0x34#8), (65535, 0x12#8)]

theorem witness_absolute (op : Byte) :
    (absoluteAtEnd op).STASH = none ∧
    FetchesBytes (absoluteAtEnd op) [op, addrLo 0x1234#16, addrHi 0x1234#16] := ⟨rfl, placed_running _ _, rfl, rfl⟩

theorem witness_LdaAbsLoadsTheCell : FetchesBytes (absoluteAtEnd 0xAD#8) [0xAD#8, 0x34#8, 0x12#8] :=
  (witness_absolute 0xAD#8).2
theorem witness_StaAbsStoresTheAccumulator : FetchesBytes (absoluteAtEnd 0x8D#8) [0x8D#8, 0x34#8, 0x12#8] :=
  (witness_absolute 0x8D#8).2
theorem witness_AdcAbsAddsWithoutCarry : FetchesBytes (absoluteAtEnd 0x6D#8) [0x6D#8, 0x34#8, 0x12#8] :=
  (witness_absolute 0x6D#8).2
theorem witness_IncAbsIncrementsTheCell : FetchesBytes (absoluteAtEnd 0xEE#8) [0xEE#8, 0x34#8, 0x12#8] :=
  (witness_absolute 0xEE#8).2
theorem witness_CpxAbsSetsTheSignedDifference : FetchesBytes (absoluteAtEnd 0xEC#8) [0xEC#8, 0x34#8, 0x12#8] :=
  (witness_absolute 0xEC#8).2

theorem witness_BneRelBranchesOnNonZeroFlag :
    ∃ s : State, s.CF ≠ 0 ∧ FetchesBytes s [0xD0#8, 0x80#8] ∧
      (-126 : Int) = if s.CF ≠ 0 then s.IP + 2 + (if (0x80#8 : Byte).toNat < 128 then (((0x80#8 : Byte).toNat : Nat) : Int)
        else ((0x80#8 : Byte).toNat : Int) - 256) else s.IP + 2 :=
  ⟨{ placed 0 [(0, 0xD0#8), (1, 0x80#8)] with CF := 1 }, by decide, ⟨⟨rfl, rfl, rfl, noStop_nil⟩, rfl, by decide⟩,
    by decide⟩

theorem witness_NopOnlyAdvances : FetchesBytes (placed 65535 [(65535, 0xEA#8)]) [0xEA#8] :=
  ⟨placed_running _ _, rfl, by decide⟩
theorem witness_BrkHaltsAndStopsTheClock : FetchesBytes (placed 65535 []) [0x00#8] :=
  ⟨placed_running _ _, rfl, by decide⟩
theorem witness_UnrecognizedOpcodeIsALoggedNop :
    opcodeOf 0xFE#8 = none ∧ FetchesBytes (placed 0 [(0, 0xFE#8)]) [0xFE#8] :=
  ⟨by decide, placed_running _ _, rfl, by decide⟩

/-- A SYS at 0, in a mode, with an argument. -/
def calling (x y : Byte) (m : Memory) : State := { placed 0 ((0, 0xFF#8) :: m) with X := x, Y := y }

theorem calling_running (x y : Byte) (m : Memory) : (calling x y m).Running := ⟨rfl, rfl, rfl, noStop_nil⟩

theorem witness_SysModeOnePrintsY :
    (calling 1#8 0x2A#8 []).X = 1#8 ∧ FetchesBytes (calling 1#8 0x2A#8 []) [0xFF#8] :=
  ⟨rfl, calling_running _ _ _, rfl, by decide⟩
theorem witness_SysOtherModesDoNothing :
    (calling 0#8 0#8 []).X ≠ 1#8 ∧ (calling 0#8 0#8 []).X ≠ 2#8 ∧ FetchesBytes (calling 0#8 0#8 []) [0xFF#8] :=
  ⟨by decide, by decide, calling_running _ _ _, rfl, by decide⟩

/-- Cells `a` to `a + n - 1`, each holding one. -/
def filled (a : Nat) : Nat → Memory
  | 0 => []
  | n + 1 => (a, 1#8) :: filled (a + 1) n

theorem read_filled (n a b : Nat) (h1 : a ≤ b) (h2 : b < a + n) : (filled a n).read b = 1#8 := by
  induction n generalizing a with
  | zero => omega
  | succ n ih =>
    simp only [filled, Memory.read]
    split
    · rfl
    · exact ih (a + 1) (by omega) (by omega)

theorem streamFrom_ones (m : Memory) (n a : Nat) (h : a + n ≤ 65536) (hm : ∀ b, a ≤ b → b < a + n → m.read b = 1#8) :
    streamFrom m n (a : Int) = List.replicate n 1#8 := by
  induction n generalizing a with
  | zero => rfl
  | succ n ih =>
    have hr : InRange (a : Int) := ⟨by omega, by omega⟩
    have h1 := ih (a + 1) (by omega) fun b hb hb' => hm b (by omega) (by omega)
    simp only [streamFrom, if_pos hr, List.replicate_succ, Int.toNat_natCast, hm a le_rfl (by omega)]
    rw [← h1]
    rfl

/-- A string with its terminator, in the last cells a string can start in, and the empty string. -/
theorem witness_SysModeTwoPrintsTheString :
    ((calling 2#8 0xFF#8 [(255, 0x41#8), (256, 0x42#8)]).X = 2#8 ∧ (∀ b ∈ [0x41#8, 0x42#8], b ≠ 0#8) ∧
      InRange (calling 2#8 0xFF#8 [(255, 0x41#8), (256, 0x42#8)]).IP ∧
      streamFrom (calling 2#8 0xFF#8 [(255, 0x41#8), (256, 0x42#8)]).M 3 (zext 0xFF#8) =
        [0x41#8, 0x42#8] ++ [0#8]) ∧
    streamFrom (calling 2#8 0x10#8 []).M 1 (zext 0x10#8) = [] ++ [0#8] ∧
    FetchesBytes (calling 2#8 0x10#8 []) [0xFF#8] :=
  ⟨by decide, by decide, calling_running _ _ _, rfl, by decide⟩

/-- A string without a terminator: every cell from 255 on is non-zero. -/
theorem witness_SysModeTwoPrintsTheString_unterminated :
    (calling 2#8 0xFF#8 (filled 255 65281)).X = 2#8 ∧ (calling 2#8 0xFF#8 (filled 255 65281)).Running ∧
    InRange (calling 2#8 0xFF#8 (filled 255 65281)).IP ∧ (∀ b ∈ List.replicate 65281 1#8, b ≠ 0#8) ∧
    zext 0xFF#8 + ((List.replicate 65281 1#8).length : Int) = 65536 ∧
    streamFrom (calling 2#8 0xFF#8 (filled 255 65281)).M (List.replicate 65281 1#8).length (zext 0xFF#8) =
      List.replicate 65281 1#8 := by
  refine ⟨rfl, calling_running _ _ _, ⟨by decide, by decide⟩, ?_, by rw [List.length_replicate]; rfl, ?_⟩
  · intro b hb
    rw [List.eq_of_mem_replicate hb]
    decide
  · rw [List.length_replicate]
    refine streamFrom_ones ((0, 0xFF#8) :: filled 255 65281) 65281 255 (by decide) fun b hb hb' => ?_
    rw [Memory.read, if_neg (by omega)]
    exact read_filled 65281 255 b hb hb'

theorem witness_FlashWritesConsecutiveCells :
    (Memory.wf (placed 0 []).M ∧ (placed 0 []).ARMED = true) ∧
    (State.reset.ARMED = false ∧ ∃ v ∈ [1, 256], 255 < v) ∧
    (∀ v ∈ [1, 255], v ≤ 255) ∧ 65534 + [1, 255].length ≤ 65536 ∧ 65535 ≤ 65535 ∧ 65536 < 65535 + [1, 255].length ∧
    [1, 255] ≠ [] ∧ ¬ InRange 65536 ∧ ¬ InRange (-1) := by
  decide

theorem witness_BootLoadsAndArms : [0xA9, 5, 0].length ≤ 65536 ∧ ∀ v ∈ [0xA9, 5, 0], v ≤ 255 := by decide

end Sys2Proof.Tests
end

section
/-! SUPPORT. The family of 10_state.md: a step is the run of its ticks, what a step can change, and the two invariants. -/

namespace Sys2Proof.Machine

/-! ## What the decoder consumed -/

theorem decodeOneByte_eq_ok {op : Opcode} {mk : Byte → Instr} {b : Byte} {bs rest : List Byte} {i : Instr}
    (hmk : ∀ v, (mk v).WellFormed ∧ encode (mk v) = [opcodeByte op, v]) (ho : opcodeOf b = some op)
    (h : decodeOneByte op mk bs = .ok (i, rest)) : i.WellFormed ∧ b :: bs = encode i ++ rest := by
  obtain rfl := (opcodeOf_eq_some b op).1 ho
  match bs, h with
  | v :: _, h =>
    cases h
    exact ⟨(hmk v).1, by rw [(hmk v).2]; rfl⟩

theorem decodeTwoBytes_eq_ok {op : Opcode} {mk : Addr → Instr} {b : Byte} {bs rest : List Byte} {i : Instr}
    (hmk : ∀ a, (mk a).WellFormed ∧ encode (mk a) = [opcodeByte op, addrLo a, addrHi a])
    (ho : opcodeOf b = some op) (h : decodeTwoBytes op mk bs = .ok (i, rest)) :
    i.WellFormed ∧ b :: bs = encode i ++ rest := by
  obtain rfl := (opcodeOf_eq_some b op).1 ho
  match bs, h with
  | lo :: hi :: _, h =>
    cases h
    exact ⟨(hmk _).1, by rw [(hmk _).2, addrLo_joinAddr, addrHi_joinAddr]; rfl⟩

theorem decode_eq_ok {bs rest : List Byte} {i : Instr} (h : decode bs = .ok (i, rest)) :
    i.WellFormed ∧ bs = encode i ++ rest := by
  cases bs with
  | nil => cases h
  | cons b bs =>
    simp only [decode] at h
    split at h
    case h_1 ho | h_2 ho | h_3 ho | h_9 ho => exact decodeOneByte_eq_ok (fun _ => ⟨trivial, rfl⟩) ho h
    case h_4 ho | h_5 ho | h_6 ho | h_7 ho | h_8 ho => exact decodeTwoBytes_eq_ok (fun _ => ⟨trivial, rfl⟩) ho h
    case h_10 ho | h_11 ho | h_12 ho =>
      cases h
      exact ⟨trivial, by rw [(opcodeOf_eq_some b _).1 ho]; rfl⟩
    case h_13 ho =>
      cases h
      exact ⟨ho, rfl⟩


/-- The cells from address `a` on hold these bytes. -/
def BytesAt (m : Memory) : Int → List Byte → Prop
  | _, [] => True
  | a, b :: bs => m.read a.toNat = b ∧ BytesAt m (a + 1) bs

theorem bytesAt_of_streamFrom (m : Memory) (bs rest : List Byte) (n : Nat) (a : Int)
    (h : streamFrom m n a = bs ++ rest) : BytesAt m a bs := by
  induction bs generalizing n a with
  | nil => trivial
  | cons b bs ih =>
    cases n with
    | zero => cases h
    | succ n =>
      rw [streamFrom] at h
      split at h
      · obtain ⟨hb, htl⟩ := List.cons.inj h
        exact ⟨hb, ih n (a + 1) htl⟩
      · cases h

/-- The instruction at `IP` is well formed, and its encoding is what the cells from `IP` on hold. -/
theorem instrAtIP_eq_some {c : CoreState} {i : Instr} (h : instrAtIP c = some i) :
    i.WellFormed ∧ BytesAt c.M c.IP (encode i) := by
  unfold instrAtIP decodeInstr at h
  split at h
  · rename_i j rest hd
    obtain rfl := Option.some.inj h
    obtain ⟨hw, hb⟩ := decode_eq_ok hd
    exact ⟨hw, bytesAt_of_streamFrom _ _ _ _ _ hb⟩
  · cases h

/-! ## A step is the run of its ticks -/

/-- What is left of the instruction in progress, after a tick. -/
def resume (s : State) : TickResult := if AtBoundary s.toCoreState then .ran s else finishInstr s

theorem resume_of_atBoundary {s : State} (h : AtBoundary s.toCoreState) : resume s = .ran s := if_pos h

theorem resume_of_not_atBoundary {s : State} (h : ¬ AtBoundary s.toCoreState) : resume s = finishInstr s := if_neg h

theorem runToBoundary_eq_tick (n : Nat) (s : State) (hn : ticksLeft s.toCoreState ≤ n + 1) :
    runToBoundary processorPulse (n + 1) s = (tick s).andThen resume := by
  rw [runToBoundary, tick]
  cases hk : tickAround processorPulse s with
  | paused t => rfl
  | raised r t => rfl
  | ran t =>
    simp only [TickResult.andThen_ran, resume]
    split
    · rfl
    · rename_i hb
      obtain ⟨es, mv, -⟩ := tick_move s t hk
      have hlt := mv.ticksLeft_lt.resolve_left hb
      exact runToBoundary_fuel _ _ t (by omega) (ticksLeft_le_fuel _)

theorem finishInstr_eq_tick (s : State) : finishInstr s = (tick s).andThen resume :=
  runToBoundary_eq_tick 65544 s (ticksLeft_le_fuel _)

/-- From every state whose core satisfies `p`, running `f` is finishing the instruction in progress. -/
def Finishes (p : CoreState → Prop) (f : State → TickResult) : Prop :=
  ∀ s : State, p s.toCoreState → f s = finishInstr s

/-- One tick of handler `h`, the machine's own there, and then `f`. -/
theorem finishes_tick {p : CoreState → Prop} {h : Handler} {f : State → TickResult}
    (hne : ∀ c, p c → c.STEP ≠ .halted) (he : ∀ c, p c → stageHandler c = h c)
    (hf : ∀ c es, ∀ t : State, p c → h c = .ok es t.toCoreState → f t = resume t) :
    Finishes p fun s => (tickAround (pulseWith h) s).andThen f := by
  intro s hs
  beta_reduce
  rw [finishInstr_eq_tick, tick, tickAround_processorPulse_eq s h (hne _ hs) (he _ hs)]
  cases hk : tickAround (pulseWith h) s with
  | paused t => rfl
  | raised r t => rfl
  | ran t =>
    obtain ⟨es, hh, -⟩ := tickAround_pulseWith_ran h s t hk
    exact hf _ es t hs hh

/-- A tick inside the instruction, after which `q` holds. -/
theorem finishes_cons {p q : CoreState → Prop} {h : Handler} {f : State → TickResult}
    (hne : ∀ c, p c → c.STEP ≠ .halted) (he : ∀ c, p c → stageHandler c = h c)
    (hq : ∀ c es c', p c → h c = .ok es c' → ¬ AtBoundary c' ∧ q c') (hf : Finishes q f) :
    Finishes p fun s => (tickAround (pulseWith h) s).andThen f := by
  refine finishes_tick hne he fun c es t hc hh => ?_
  obtain ⟨hb, hqt⟩ := hq c es _ hc hh
  rw [resume_of_not_atBoundary hb, hf t hqt]

/-- The last tick of an instruction. -/
theorem finishes_last {p : CoreState → Prop} {h : Handler}
    (hne : ∀ c, p c → c.STEP ≠ .halted) (he : ∀ c, p c → stageHandler c = h c)
    (hb : ∀ c es c', p c → h c = .ok es c' → AtBoundary c') : Finishes p (runStages [h]) :=
  finishes_tick hne he fun c es _ hc hh => (resume_of_atBoundary (hb c es _ hc hh)).symm

/-! ### The stages of an instruction whose bytes stand at `IP` -/

/-- The core stands in this stage and sub-cycle of the instruction with opcode byte `op`, before these operand bytes. -/
structure Stands (stage : Stage) (sub : Fin 4) (op : Byte) (bs : List Byte) (c : CoreState) : Prop where
  step : c.STEP = stage
  sub : c.SUB = sub
  ir : c.IR = op
  bytes : BytesAt c.M c.IP bs

/-- A stage that is delivered its byte goes on with the byte. -/
theorem deliverByte_bind_ok {b : Byte} {c : CoreState} {f : Byte → CoreState → Res (List Event)} {es : List Event}
    {c' : CoreState} (h : (deliverByte b c).bind f = .ok es c') :
    f b { c with AR := c.IP, DR := b, IP := c.IP + 1 } = .ok es c' := by
  by_cases hr : InRange c.IP
  · rwa [deliverByte_ok _ _ hr] at h
  · rw [deliverByte_raised _ _ hr] at h
    cases h

theorem fetchByte_eq_of_bytesAt {c : CoreState} {b : Byte} {bs : List Byte} (h : BytesAt c.M c.IP (b :: bs)) :
    fetchByte c = deliverByte b c := by
  rw [fetchByte_eq_deliver, h.1]

theorem finishes_fetch {op : Byte} {bs : List Byte} {f : State → TickResult} (hf : Finishes (Stands .decode 0 op bs) f) :
    Finishes (fun c => c.STEP = .fetch ∧ BytesAt c.M c.IP (op :: bs))
      fun s => (tickAround (pulseWith (fetchTick op)) s).andThen f := by
  refine finishes_cons (fun c hc => by simp [hc.1]) (fun c hc => ?_) (fun c es c' hc hh => ?_) hf
  · simp only [stageHandler, hc.1, fetchTick, fetchStage, fetchByte_eq_of_bytesAt hc.2]
  · obtain ⟨rfl, rfl⟩ := Res.ok.inj (deliverByte_bind_ok hh)
    exact ⟨by simp [AtBoundary], rfl, rfl, rfl, hc.2.2⟩

theorem finishes_direct {op : Byte} {bs : List Byte} {f : State → TickResult} (hd : decodeClass op = .direct)
    (hf : Finishes (Stands .execute 0 op bs) f) :
    Finishes (Stands .decode 0 op bs) fun s => (tickAround (pulseWith directStage) s).andThen f := by
  refine finishes_cons (fun c hc => by simp [hc.step]) (fun c hc => ?_) (fun c es c' hc hh => ?_) hf
  · simp only [stageHandler, hc.step, decodeStage, hc.ir, hd]
  · obtain ⟨rfl, rfl⟩ := Res.ok.inj hh
    exact ⟨by simp [AtBoundary], rfl, hc.sub, hc.ir, hc.bytes⟩

theorem stageHandler_absolute {sub : Fin 4} {op b : Byte} {bs : List Byte} {c : CoreState}
    (hd : decodeClass op = .absolute) (h : Stands .decode sub op (b :: bs) c) :
    stageHandler c = absoluteStage (deliverByte b) c := by
  simp only [stageHandler, h.step, decodeStage, h.ir, hd, absoluteStage, fetchByte_eq_of_bytesAt h.bytes]

theorem finishes_absolute {op lo hi : Byte} {bs : List Byte} {f : State → TickResult} (hd : decodeClass op = .absolute)
    (hf : Finishes (Stands .execute 0 op bs) f) :
    Finishes (Stands .decode 0 op (lo :: hi :: bs)) fun s =>
      (tickAround (pulseWith (absoluteStage (deliverByte lo))) s).andThen fun s =>
        (tickAround (pulseWith (absoluteStage (deliverByte hi))) s).andThen f := by
  refine finishes_cons (q := Stands .decode 1 op (hi :: bs)) (fun c hc => by simp [hc.step])
    (fun c hc => stageHandler_absolute hd hc) (fun c es c' hc hh => ?_)
    (finishes_cons (fun c hc => by simp [hc.step]) (fun c hc => stageHandler_absolute hd hc)
      (fun c es c' hc hh => ?_) hf)
  · rw [absoluteStage, if_pos hc.sub] at hh
    split at hh
    · cases hh
    · rename_i ht
      have hh := deliverByte_bind_ok hh
      rw [tuCombine_first _ _ (by simpa using ht)] at hh
      obtain ⟨rfl, rfl⟩ := Res.ok.inj hh
      exact ⟨by simp [AtBoundary, hc.step], hc.step, rfl, hc.ir, hc.bytes.2⟩
  · rw [absoluteStage, if_neg (by simp [hc.sub]), if_pos hc.sub] at hh
    split at hh
    · cases hh
    · rename_i ht
      obtain ⟨low, ht⟩ := Option.ne_none_iff_exists'.1 ht
      have hh := deliverByte_bind_ok hh
      rw [tuCombine_second low _ _ (by simpa using ht)] at hh
      obtain ⟨rfl, rfl⟩ := Res.ok.inj hh
      exact ⟨by simp [AtBoundary], rfl, rfl, hc.ir, hc.bytes.2⟩

/-! ### The ticks of each form -/

theorem Stands.stageHandler_eq {sub : Fin 4} {op : Opcode} {bs : List Byte} {c : CoreState}
    (h : Stands .execute sub (opcodeByte op) bs c) :
    stageHandler c = executeStage c ∧ opcodeOf c.IR = some op :=
  ⟨by simp only [stageHandler, h.step], by rw [h.ir, opcodeOf_opcodeByte]⟩

/-- The three ticks of an instruction with one operand byte. -/
theorem finishes_oneOperand (op : Opcode) (b : Byte) (stage : ByteSource → Handler)
    (f : Byte → CoreState → Res (List Event)) (hstage : ∀ next c, stage next c = (next c).bind f)
    (hd : decodeClass (opcodeByte op) = .direct)
    (he : ∀ c, opcodeOf c.IR = some op → executeStage c = stage fetchByte c)
    (hb : ∀ v c es c', f v c = .ok es c' → AtBoundary c') :
    Finishes (fun c => c.STEP = .fetch ∧ BytesAt c.M c.IP [opcodeByte op, b])
      (runStages (directTicks op ++ [stage (deliverByte b)])) := by
  refine finishes_fetch (finishes_direct hd (finishes_last (fun c h => by simp [h.step]) (fun c h => ?_)
    fun c es c' _ hh => ?_))
  · rw [h.stageHandler_eq.1, he c h.stageHandler_eq.2, hstage, hstage, fetchByte_eq_of_bytesAt h.bytes]
  · rw [hstage] at hh
    exact hb b _ es c' (deliverByte_bind_ok hh)

/-- The first tick of a two-tick EXECUTE. -/
theorem finishes_firstTick {op : Opcode} {first second : Handler} {f : State → TickResult}
    (he : ∀ c, opcodeOf c.IR = some op → executeStage c = twoTickStage first second c)
    (h1 : ∀ c es c', first c = .ok es c' → c'.STEP = c.STEP ∧ c'.SUB = 1 ∧ c'.IR = c.IR)
    (hf : Finishes (Stands .execute 1 (opcodeByte op) []) f) :
    Finishes (Stands .execute 0 (opcodeByte op) []) fun s =>
      (tickAround (pulseWith (twoTickStage first second)) s).andThen f := by
  refine finishes_cons (fun c h => by simp [h.step]) (fun c h => ?_) (fun c es c' h hh => ?_) hf
  · rw [h.stageHandler_eq.1, he c h.stageHandler_eq.2]
  · rw [twoTickStage, if_pos h.sub] at hh
    obtain ⟨hstep, hsub, hir⟩ := h1 c es c' hh
    exact ⟨by simp [AtBoundary, hstep, h.step], hstep.trans h.step, hsub, hir.trans h.ir, trivial⟩

theorem firstReadStage_stays (c : CoreState) (es : List Event) (c' : CoreState) (h : firstReadStage c = .ok es c') :
    c'.STEP = c.STEP ∧ c'.SUB = 1 ∧ c'.IR = c.IR := by
  obtain ⟨-, h⟩ := tuReadByte_bind_ok c _ es c' h
  obtain ⟨rfl, rfl⟩ := Res.ok.inj h
  exact ⟨rfl, rfl, rfl⟩

/-- The second tick of a two-tick EXECUTE that ends the instruction. -/
theorem finishes_secondTick {op : Opcode} {first second : Handler}
    (he : ∀ c, opcodeOf c.IR = some op → executeStage c = twoTickStage first second c)
    (h2 : ∀ c es c', second c = .ok es c' → AtBoundary c') :
    Finishes (Stands .execute 1 (opcodeByte op) []) (runStages [twoTickStage first second]) := by
  refine finishes_last (fun c h => by simp [h.step]) (fun c h => ?_) (fun c es c' h hh => ?_)
  · rw [h.stageHandler_eq.1, he c h.stageHandler_eq.2]
  · rw [twoTickStage, if_neg (by simp [h.sub]), if_pos h.sub] at hh
    exact h2 c es c' hh

/-- The second tick of a two-tick EXECUTE that hands over to WRITEBACK, and the write. -/
theorem finishes_writeback {op : Opcode} {first second : Handler} (hop : op = .staAbs ∨ op = .incAbs)
    (he : ∀ c, opcodeOf c.IR = some op → executeStage c = twoTickStage first second c)
    (h2 : ∀ c es c', second c = .ok es c' → c'.STEP = .writeback ∧ c'.SUB = 0 ∧ c'.IR = c.IR) :
    Finishes (Stands .execute 1 (opcodeByte op) []) (runStages [twoTickStage first second, writeStage]) := by
  refine finishes_cons (q := Stands .writeback 0 (opcodeByte op) []) (fun c h => by simp [h.step]) (fun c h => ?_)
    (fun c es c' h hh => ?_)
    (finishes_last (fun c h => by simp [h.step]) (fun c h => ?_) (fun c es c' h hh => ?_))
  · rw [h.stageHandler_eq.1, he c h.stageHandler_eq.2]
  · rw [twoTickStage, if_neg (by simp [h.sub]), if_pos h.sub] at hh
    obtain ⟨hstep, hsub, hir⟩ := h2 c es c' hh
    exact ⟨by simp [AtBoundary, hstep], hstep, hsub, hir.trans h.ir, trivial⟩
  · rcases hop with rfl | rfl <;>
      simp only [stageHandler, h.step, writebackStage, h.ir, opcodeOf_opcodeByte]
  · obtain ⟨_, _, -, hh⟩ := (Res.bind_eq_ok _ _ _ _).1 hh
    obtain ⟨rfl, rfl⟩ := Res.ok.inj hh
    exact .inl rfl

/-- A tick of SYS ends the instruction or stays in its EXECUTE. -/
theorem sysStage_stays {c c' : CoreState} {es : List Event} (hs : c.STEP = .execute) (h : sysStage c = .ok es c') :
    AtBoundary c' ∨ (c'.STEP = .execute ∧ c'.IR = c.IR) := by
  rcases twoTickStage_cases _ sysStringByteStage c with ⟨-, e⟩ | ⟨-, e⟩ | ⟨-, -, e⟩ <;> rw [sysStage, e] at h
  · split_ifs at h <;> obtain ⟨rfl, rfl⟩ := Res.ok.inj h
    · exact .inl (.inl rfl)
    · exact .inr ⟨hs, rfl⟩
    · exact .inl (.inl rfl)
  · obtain ⟨-, h⟩ := fetchByte_bind_ok c _ es c' h
    split_ifs at h <;> obtain ⟨rfl, rfl⟩ := Res.ok.inj h
    · exact .inl (.inl rfl)
    · exact .inr ⟨hs, rfl⟩
  · obtain ⟨rfl, rfl⟩ := Res.ok.inj h
    exact .inl (.inl rfl)

/-- The ticks of SYS from EXECUTE on are the tick machine's, whatever the mode and the string. -/
theorem runToBoundary_sysStage (n : Nat) (s : State) (hs : s.STEP = .execute) (ho : opcodeOf s.IR = some .sys) :
    runToBoundary (pulseWith sysStage) n s = runToBoundary processorPulse n s := by
  induction n generalizing s with
  | zero => rfl
  | succ n ih =>
    have he : stageHandler s.toCoreState = sysStage s.toCoreState := by
      simp only [stageHandler, hs, executeStage, ho]
    rw [runToBoundary, runToBoundary, tickAround_processorPulse_eq s sysStage (by simp [hs]) he]
    cases hk : tickAround (pulseWith sysStage) s with
    | paused t => rfl
    | raised r t => rfl
    | ran t =>
      simp only [TickResult.andThen_ran]
      split
      · rfl
      · rename_i hb
        obtain ⟨es, hh, -⟩ := tickAround_pulseWith_ran sysStage s t hk
        obtain ⟨hstep, hir⟩ := (sysStage_stays hs hh).resolve_left hb
        exact ih t hstep (by rw [hir, ho])

theorem atBoundary_of_ok {es es' : List Event} {c c' : CoreState} (h : Res.ok es c = .ok es' c') (hb : AtBoundary c) :
    AtBoundary c' := by
  obtain ⟨-, rfl⟩ := Res.ok.inj h
  exact hb

/-- Where the encoding of an instruction stands at `IP`, its meaning is the run of the machine's own ticks. -/
theorem exec_eq_finishInstr {i : Instr} (hw : i.WellFormed) (s : State) (hs : s.STEP = .fetch)
    (hb : BytesAt s.M s.IP (encode i)) : exec i s = (finishInstr s).toOutcome := by
  have toFetch : ∀ {f : State → TickResult},
      Finishes (fun c => c.STEP = .fetch ∧ BytesAt c.M c.IP (encode i)) f →
        (f s).toOutcome = (finishInstr s).toOutcome := fun hf => by rw [hf s ⟨hs, hb⟩]
  cases i with
  | ldaImm imm =>
    exact toFetch (finishes_oneOperand .ldaImm imm ldaImmStage _ (fun _ _ => rfl) rfl
      (fun c h => by simp only [executeStage, h]) fun _ _ _ _ h => atBoundary_of_ok h (.inl rfl))
  | ldxImm imm =>
    exact toFetch (finishes_oneOperand .ldxImm imm ldxImmStage _ (fun _ _ => rfl) rfl
      (fun c h => by simp only [executeStage, h]) fun _ _ _ _ h => atBoundary_of_ok h (.inl rfl))
  | ldyImm imm =>
    exact toFetch (finishes_oneOperand .ldyImm imm ldyImmStage _ (fun _ _ => rfl) rfl
      (fun c h => by simp only [executeStage, h]) fun _ _ _ _ h => atBoundary_of_ok h (.inl rfl))
  | bneRel rel =>
    exact toFetch (finishes_oneOperand .bneRel rel bneRelStage _ (fun _ _ => rfl) rfl
      (fun c h => by simp only [executeStage, h]) fun _ _ _ _ h => atBoundary_of_ok h (.inl rfl))
  | ldaAbs addr =>
    have he : ∀ c, opcodeOf c.IR = some .ldaAbs → executeStage c = ldaAbsStage c :=
      fun c h => by simp only [executeStage, h]
    exact toFetch (finishes_fetch (finishes_absolute rfl (finishes_firstTick he firstReadStage_stays
      (finishes_secondTick he fun c es c' h => atBoundary_of_ok (tuReadByte_bind_ok c _ es c' h).2 (.inl rfl)))))
  | cpxAbs addr =>
    have he : ∀ c, opcodeOf c.IR = some .cpxAbs → executeStage c = cpxAbsStage c :=
      fun c h => by simp only [executeStage, h]
    exact toFetch (finishes_fetch (finishes_absolute rfl (finishes_firstTick he firstReadStage_stays
      (finishes_secondTick he fun c es c' h => atBoundary_of_ok (tuReadByte_bind_ok c _ es c' h).2 (.inl rfl)))))
  | incAbs addr =>
    have he : ∀ c, opcodeOf c.IR = some .incAbs → executeStage c = incAbsStage c :=
      fun c h => by simp only [executeStage, h]
    refine toFetch (finishes_fetch (finishes_absolute rfl (finishes_firstTick he firstReadStage_stays
      (finishes_writeback (.inr rfl) he fun c es c' h => ?_))))
    obtain ⟨-, h⟩ := tuReadByte_bind_ok c _ es c' h
    obtain ⟨rfl, rfl⟩ := Res.ok.inj h
    exact ⟨rfl, rfl, rfl⟩
  | staAbs addr =>
    have he : ∀ c, opcodeOf c.IR = some .staAbs → executeStage c = staAbsStage c :=
      fun c h => by simp only [executeStage, h]
    refine toFetch (finishes_fetch (finishes_absolute rfl (finishes_firstTick he (fun c es c' h => ?_)
      (finishes_writeback (.inl rfl) he fun c es c' h => ?_))))
    · obtain ⟨rfl, rfl⟩ := Res.ok.inj h
      exact ⟨rfl, rfl, rfl⟩
    · obtain ⟨rfl, rfl⟩ := Res.ok.inj h
      exact ⟨rfl, rfl, rfl⟩
  | adcAbs addr =>
    refine toFetch (finishes_fetch (op := opcodeByte .adcAbs) (finishes_absolute rfl
      (finishes_last (fun c h => by simp [h.step]) (fun c h => ?_)
        fun c es c' _ h => atBoundary_of_ok (tuReadByte_bind_ok c _ es c' h).2 (.inl rfl))))
    rw [h.stageHandler_eq.1]
    simp only [executeStage, h.stageHandler_eq.2]
  | brk =>
    refine toFetch (finishes_fetch (op := opcodeByte .brk) (finishes_direct rfl
      (finishes_last (fun c h => by simp [h.step]) (fun c h => ?_)
        fun _ _ _ _ h => atBoundary_of_ok h (.inr rfl))))
    rw [h.stageHandler_eq.1]
    simp only [executeStage, h.stageHandler_eq.2]
  | nop =>
    refine toFetch (finishes_fetch (finishes_last (fun c h => by simp [h.step]) (fun c h => ?_)
      fun _ _ _ _ h => atBoundary_of_ok h (.inl rfl)))
    simp only [stageHandler, h.step, decodeStage, h.ir]
    rfl
  | unrecognized op =>
    refine toFetch (finishes_fetch (op := op) (finishes_last (fun c h => by simp [h.step]) (fun c h => ?_)
      fun _ _ _ _ h => atBoundary_of_ok h (.inl rfl)))
    simp only [stageHandler, h.step, decodeStage, h.ir, decodeClass_unrecognized op hw]
  | sys =>
    have hsys : Finishes (Stands .execute 0 (opcodeByte .sys) [])
        (runToBoundary (pulseWith sysStage) Config.tickFuel) := fun s h =>
      runToBoundary_sysStage _ s h.step (by rw [h.ir, opcodeOf_opcodeByte])
    simp only [exec, execSys, directTicks, runStages_cons, TickResult.andThen_assoc, runStages_nil,
      TickResult.andThen_ran]
    exact toFetch (finishes_fetch (finishes_direct rfl hsys))

/-- A step from a state without a fault is the run of the machine's own ticks (40_pipeline.md R102). -/
theorem step_eq_finishInstr (s : State) (hf : s.FAULT = none) : step s = (finishInstr s).toOutcome := by
  unfold step
  rw [hf]
  dsimp only
  split
  · rename_i hs
    split
    · rename_i i hi
      obtain ⟨hw, hb⟩ := instrAtIP_eq_some hi
      exact exec_eq_finishInstr hw s hs hb
    · rfl
  · rfl

/-! ## What a step that answers next went through -/

/-- A step that answers next met no fault, and its ticks ran to their end or paused. -/
theorem step_eq_next {s t : State} (h : step s = .next t) :
    s.FAULT = none ∧ (finishInstr s = .ran t ∨ finishInstr s = .paused t) := by
  cases hf : s.FAULT with
  | some r =>
    rw [step, hf] at h
    cases h
  | none =>
    rw [step_eq_finishInstr s hf, TickResult.toOutcome_eq_next] at h
    exact ⟨rfl, h⟩

/-- A relation that every part of a tick respects holds across a step. -/
theorem TickParts.step {R : State → State → Prop} (h : TickParts R)
    (stage : ∀ (s : State) es c, StageMove s.toCoreState es c → R s (emitAll es { s with toCoreState := c }))
    {s t : State} (ht : step s = .next t) : R s t :=
  h.run stage _ s t (step_eq_next ht).2

/-- A part of the core that no move inside an instruction changes is what it was, or a step's last move changed it. -/
theorem step_changes_at_last_move {α : Type} (f : CoreState → α)
    (inside : ∀ c es c', StageMove c es c' → ¬ AtBoundary c' → f c' = f c) {s t : State} (h : step s = .next t) :
    f t.toCoreState = f s.toCoreState ∨ ∃ c es, f c = f s.toCoreState ∧ StageMove c es t.toCoreState := by
  have hrun := (step_eq_next h).2
  unfold finishInstr at hrun
  generalize Config.tickFuel = n at hrun
  clear h
  induction n generalizing s with
  | zero =>
    rcases hrun with h | h
    · obtain rfl := TickResult.ran.inj h
      exact .inl rfl
    · cases h
  | succ n ih =>
    rw [runToBoundary] at hrun
    cases hk : tickAround processorPulse s with
    | raised r u =>
      rw [hk] at hrun
      rcases hrun with h | h <;> cases h
    | paused u =>
      rw [hk] at hrun
      rcases hrun with h | h
      · cases h
      · obtain rfl := TickResult.paused.inj h
        obtain ⟨rfl, -⟩ := tickAround_paused _ _ _ hk
        exact .inl (by rw [beforeTick_toCoreState])
    | ran u =>
      obtain ⟨es, mv, -⟩ := tick_move s u hk
      rw [hk, TickResult.andThen_ran] at hrun
      split at hrun
      · rcases hrun with h | h
        · obtain rfl := TickResult.ran.inj h
          exact .inr ⟨_, es, rfl, mv⟩
        · cases h
      · rename_i hb
        rw [← inside _ es _ mv hb]
        exact ih hrun

/-! ## The registry and the output only grow -/

/-- Every source of the one state is in the other, under its number, with its name and its priority. -/
def KeepsSources (s t : State) : Prop :=
  ∀ (n : Nat) (src : Source), s.REG[n]? = some src →
    ∃ src', t.REG[n]? = some src' ∧ src'.name = src.name ∧ src'.priority = src.priority

theorem KeepsSources.of_eq {s t : State} (h : t.REG = s.REG) : KeepsSources s t :=
  fun _ src hn => ⟨src, by rw [h, hn], rfl, rfl⟩

/-- A new queue for one source keeps every source. -/
theorem KeepsSources.of_set {s t : State} {n : Nat} {src : Source} {q : List Byte} (hn : s.REG[n]? = some src)
    (h : t.REG = s.REG.set n { src with queue := q }) : KeepsSources s t := by
  intro m src' hm
  by_cases hnm : n = m
  · subst hnm
    obtain rfl := Option.some.inj (hn.symm.trans hm)
    obtain ⟨hlt, -⟩ := List.getElem?_eq_some_iff.1 hn
    exact ⟨{ src with queue := q }, by rw [h, List.getElem?_set_self hlt], rfl, rfl⟩
  · exact ⟨src', by rw [h, List.getElem?_set_ne hnm, hm], rfl, rfl⟩

theorem applyMove_keepsSources (s : State) (m : EnvMove) : KeepsSources s (applyMove s m) := by
  cases m with
  | register name priority =>
    intro n src hn
    obtain ⟨hlt, -⟩ := List.getElem?_eq_some_iff.1 hn
    exact ⟨src, by rw [applyMove, registerSource, List.getElem?_append_left hlt, hn], rfl, rfl⟩
  | enqueue n b =>
    simp only [applyMove, enqueuePayload]
    split
    · rename_i src hn
      exact .of_set hn rfl
    · exact .of_eq rfl
  | submit n =>
    simp only [applyMove, submitRequest]
    split <;> exact .of_eq rfl
  | start => exact .of_eq (by simp [applyMove])
  | stop => exact .of_eq rfl

/-- The check does nothing, or takes the head of the queue of the pending source, logs it and empties the slot. -/
theorem interruptCheck_cases (s : State) :
    interruptCheck s = s ∨ ∃ n src b q, s.PEND = some n ∧ s.REG[n]? = some src ∧ src.queue = b :: q ∧
      interruptCheck s =
        { emitAll [.irqServiced n b] s with REG := s.REG.set n { src with queue := q }, PEND := none } := by
  unfold interruptCheck
  split
  · exact .inl rfl
  · rename_i n hp
    split
    · exact .inl rfl
    · rename_i src hn
      split
      · exact .inl rfl
      · rename_i b q hq
        exact .inr ⟨n, src, b, q, hp, hn, hq, rfl⟩

theorem keepsSources_tickParts : TickParts KeepsSources where
  refl s := .of_eq rfl
  trans a b c hab hbc n src hn := by
    obtain ⟨src', hn', hname, hprio⟩ := hab n src hn
    obtain ⟨src'', hn'', hname', hprio'⟩ := hbc n src' hn'
    exact ⟨src'', hn'', hname'.trans hname, hprio'.trans hprio⟩
  move := applyMove_keepsSources
  env s e := .of_eq rfl
  check s := by
    rcases interruptCheck_cases s with h | ⟨n, src, b, q, -, hn, -, h⟩ <;> rw [h]
    · exact .of_eq rfl
    · exact .of_set hn rfl
  controller s := .of_eq (controllerPulse_REG s)
  clock s := .of_eq (clockStop_REG s)

/-- The output of the other state starts with this one's. -/
def ExtendsOutput (s t : State) : Prop := ∃ es, t.OUT = s.OUT ++ es

theorem ExtendsOutput.of_eq {s t : State} (h : t.OUT = s.OUT) : ExtendsOutput s t := ⟨[], by simp [h]⟩

theorem extendsOutput_tickParts : TickParts ExtendsOutput where
  refl s := .of_eq rfl
  trans a b c hab hbc := by
    obtain ⟨es, h⟩ := hab
    obtain ⟨es', h'⟩ := hbc
    exact ⟨es ++ es', by rw [h', h, List.append_assoc]⟩
  move s m := .of_eq (applyMove_OUT s m)
  env s e := .of_eq rfl
  check s := by
    rcases interruptCheck_cases s with h | ⟨n, src, b, q, -, -, -, h⟩ <;> rw [h]
    · exact .of_eq rfl
    · exact ⟨[.irqServiced n b], rfl⟩
  controller s := .of_eq (controllerPulse_OUT s)
  clock s := .of_eq (clockStop_OUT s)

/-! ## Who writes the flag and the cells -/

/-- A move changes the flag only as CPX's last tick. -/
theorem StageMove.flag_cases {c c' : CoreState} {es : List Event} (mv : StageMove c es c') :
    c'.CF = c.CF ∨ (AtBoundary c' ∧ opcodeOf c'.IR = some .cpxAbs) := by
  cases mv
  case cpxAbs h ho hs hr => exact .inr ⟨.inl rfl, ho⟩
  all_goals exact .inl rfl

/-- A move changes the cells only as the write of STA or INC, at the address register. -/
theorem StageMove.memory_cases {c c' : CoreState} {es : List Event} (mv : StageMove c es c') :
    c'.M = c.M ∨ (AtBoundary c' ∧ (opcodeOf c'.IR = some .staAbs ∨ opcodeOf c'.IR = some .incAbs) ∧
      InRange c'.AR ∧ c'.M = c.M.write c'.AR.toNat c.STAGED) := by
  cases mv
  case write h ho hr => exact .inr ⟨.inl rfl, ho, hr, rfl⟩
  all_goals exact .inl rfl

/-! ## The stage conditions -/

theorem stageInv_fetch {c : CoreState} (h : c.STEP = .fetch) : c.StageInv ↔ c.SUB = 0 ∧ c.STASH = none := by
  simp only [CoreState.StageInv, h]

theorem stageInv_decode {c : CoreState} (h : c.STEP = .decode) :
    c.StageInv ↔
      (c.SUB = 0 ∧ c.STASH = none) ∨ (c.SUB = 1 ∧ c.STASH ≠ none ∧ decodeClass c.IR = .absolute) := by
  simp only [CoreState.StageInv, h]

theorem stageInv_execute {c : CoreState} (h : c.STEP = .execute) :
    c.StageInv ↔ c.STASH = none ∧
      ((decodeClass c.IR = .direct ∧ (c.SUB = 0 ∨ (c.SUB = 1 ∧ opcodeOf c.IR = some .sys))) ∨
        (decodeClass c.IR = .absolute ∧ InRange c.AR ∧
          (c.SUB = 0 ∨ (c.SUB = 1 ∧ opcodeOf c.IR ≠ some .adcAbs)))) := by
  simp only [CoreState.StageInv, h]

theorem stageInv_writeback {c : CoreState} (h : c.STEP = .writeback) :
    c.StageInv ↔ c.STASH = none ∧ c.SUB = 0 ∧ InRange c.AR ∧
      (opcodeOf c.IR = some .staAbs ∨ opcodeOf c.IR = some .incAbs) := by
  simp only [CoreState.StageInv, h]

theorem stageInv_halted {c : CoreState} (h : c.STEP = .halted) : c.StageInv ↔ c.STASH = none ∧ c.SUB = 0 := by
  simp only [CoreState.StageInv, h]

theorem decodeClass_of_opcodeOf {b : Byte} {op : Opcode} (h : opcodeOf b = some op) :
    decodeClass b = decodeClass (opcodeByte op) := by
  rw [(opcodeOf_eq_some b op).1 h]

/-- A sound DECODE of a class that is not absolute has collected nothing. -/
theorem CoreState.StageInv.decode_first {c : CoreState} (inv : c.StageInv) (h : c.STEP = .decode)
    (hd : decodeClass c.IR ≠ .absolute) : c.SUB = 0 ∧ c.STASH = none :=
  ((stageInv_decode h).1 inv).resolve_right fun ⟨_, _, ha⟩ => hd ha

/-- A sound EXECUTE of a direct instruction: `SUB` is 0 but in the string walk of SYS. -/
theorem CoreState.StageInv.execute_direct {c : CoreState} {op : Opcode} (inv : c.StageInv) (h : c.STEP = .execute)
    (ho : opcodeOf c.IR = some op) (hd : decodeClass (opcodeByte op) = .direct) :
    c.STASH = none ∧ (c.SUB = 0 ∨ (c.SUB = 1 ∧ op = .sys)) := by
  obtain ⟨ht, ⟨-, hs⟩ | ⟨ha, -⟩⟩ := (stageInv_execute h).1 inv
  · exact ⟨ht, hs.imp_right fun hs => ⟨hs.1, Option.some.inj (ho.symm.trans hs.2)⟩⟩
  · rw [decodeClass_of_opcodeOf ho, hd] at ha
    cases ha

/-- A sound EXECUTE of a direct instruction other than SYS. -/
theorem CoreState.StageInv.execute_single {c : CoreState} {op : Opcode} (inv : c.StageInv) (h : c.STEP = .execute)
    (ho : opcodeOf c.IR = some op) (hd : decodeClass (opcodeByte op) = .direct) (hne : op ≠ .sys) :
    c.SUB = 0 ∧ c.STASH = none := by
  obtain ⟨ht, hs⟩ := inv.execute_direct h ho hd
  exact ⟨hs.resolve_right fun hs => hne hs.2, ht⟩

/-- A sound EXECUTE of an absolute instruction has a cell's address in `AR`. -/
theorem CoreState.StageInv.execute_absolute {c : CoreState} {op : Opcode} (inv : c.StageInv) (h : c.STEP = .execute)
    (ho : opcodeOf c.IR = some op) (hd : decodeClass (opcodeByte op) = .absolute) :
    c.STASH = none ∧ InRange c.AR ∧ (c.SUB = 0 ∨ (c.SUB = 1 ∧ op ≠ .adcAbs)) := by
  obtain ⟨ht, ⟨ha, -⟩ | ⟨-, hr, hs⟩⟩ := (stageInv_execute h).1 inv
  · rw [decodeClass_of_opcodeOf ho, hd] at ha
    cases ha
  · exact ⟨ht, hr, hs.imp_right fun hs => ⟨hs.1, fun he => hs.2 (by rw [ho, he])⟩⟩

/-- After the first EXECUTE tick of an absolute instruction of two. -/
theorem CoreState.StageInv.execute_second {c c' : CoreState} {op : Opcode} (inv : c.StageInv) (h : c.STEP = .execute)
    (ho : opcodeOf c.IR = some op) (hd : decodeClass (opcodeByte op) = .absolute) (hne : op ≠ .adcAbs)
    (hstep : c'.STEP = c.STEP) (hir : c'.IR = c.IR) (hsub : c'.SUB = 1) (har : c'.AR = c.AR)
    (hstash : c'.STASH = c.STASH) : c'.StageInv := by
  obtain ⟨ht, hr, -⟩ := inv.execute_absolute h ho hd
  rw [stageInv_execute (hstep.trans h), hir, hsub, har, hstash, ho]
  exact ⟨ht, .inr ⟨(decodeClass_of_opcodeOf ho).trans hd, hr, .inr ⟨rfl, fun he => hne (Option.some.inj he)⟩⟩⟩

/-- A sound EXECUTE meets no opcode and no sub-cycle that it has no arm for (40_pipeline.md R103). -/
theorem CoreState.StageInv.execute_expected {c : CoreState} (inv : c.StageInv) (h : c.STEP = .execute) :
    ¬ (opcodeOf c.IR = none ∨ opcodeOf c.IR = some .nop ∨
      ((opcodeOf c.IR = some .ldaAbs ∨ opcodeOf c.IR = some .staAbs ∨ opcodeOf c.IR = some .incAbs ∨
        opcodeOf c.IR = some .cpxAbs ∨ opcodeOf c.IR = some .sys) ∧ c.SUB ≠ 0 ∧ c.SUB ≠ 1)) := by
  obtain ⟨-, hc⟩ := (stageInv_execute h).1 inv
  rintro (ho | ho | ⟨-, h0, h1⟩)
  · rw [decodeClass_unrecognized _ ho] at hc
    simp at hc
  · rw [decodeClass_of_opcodeOf ho, decodeClass_opcodeByte] at hc
    simp at hc
  · rcases hc with ⟨-, hs | ⟨hs, -⟩⟩ | ⟨-, -, hs | ⟨hs, -⟩⟩
    · exact h0 hs
    · exact h1 hs
    · exact h0 hs
    · exact h1 hs

/-- Every move keeps the stage conditions. -/
theorem StageMove.keeps_stageInv {c c' : CoreState} {es : List Event} (mv : StageMove c es c') (inv : c.StageInv) :
    c'.StageInv := by
  cases mv with
  | fetch h hr => exact (stageInv_decode rfl).2 (.inl ⟨rfl, ((stageInv_fetch h).1 inv).2⟩)
  | direct h hd =>
    obtain ⟨hs, ht⟩ := inv.decode_first h (by simp [hd])
    exact (stageInv_execute rfl).2 ⟨ht, .inl ⟨hd, .inl hs⟩⟩
  | nop h hd => exact (stageInv_fetch rfl).2 (inv.decode_first h (by simp [hd]))
  | unrecognized h hd => exact (stageInv_fetch rfl).2 (inv.decode_first h (by simp [hd]))
  | low h hd hs ht hr => exact (stageInv_decode (by exact h)).2 (.inr ⟨rfl, by simp, hd⟩)
  | high lo h hd hs ht hr =>
    exact (stageInv_execute rfl).2 ⟨rfl, .inr ⟨hd, combineBytes_inRange _ _, .inl rfl⟩⟩
  | ldaImm h ho hr => exact (stageInv_fetch rfl).2 (inv.execute_single h ho rfl (by decide))
  | ldxImm h ho hr => exact (stageInv_fetch rfl).2 (inv.execute_single h ho rfl (by decide))
  | ldyImm h ho hr => exact (stageInv_fetch rfl).2 (inv.execute_single h ho rfl (by decide))
  | bneRel h ho hr => exact (stageInv_fetch rfl).2 (inv.execute_single h ho rfl (by decide))
  | brk h ho => exact (stageInv_halted rfl).2 (inv.execute_single h ho rfl (by decide)).symm
  | firstRead h ho hs hr =>
    rcases ho with ho | ho | ho <;> exact inv.execute_second h ho rfl (by decide) rfl rfl rfl rfl rfl
  | staStage h ho hs => exact inv.execute_second h ho rfl (by decide) rfl rfl rfl rfl rfl
  | ldaAbs h ho hs hr => exact (stageInv_fetch rfl).2 ⟨rfl, (inv.execute_absolute h ho rfl).1⟩
  | cpxAbs h ho hs hr => exact (stageInv_fetch rfl).2 ⟨rfl, (inv.execute_absolute h ho rfl).1⟩
  | adcAbs h ho hr =>
    obtain ⟨ht, -, hs⟩ := inv.execute_absolute h ho rfl
    exact (stageInv_fetch rfl).2 ⟨hs.resolve_right fun hs => hs.2 rfl, ht⟩
  | staHand h ho hs =>
    obtain ⟨ht, hr, -⟩ := inv.execute_absolute h ho rfl
    exact (stageInv_writeback rfl).2 ⟨ht, rfl, hr, .inl ho⟩
  | incAbs h ho hs hr =>
    exact (stageInv_writeback rfl).2 ⟨(inv.execute_absolute h ho rfl).1, rfl, hr, .inr ho⟩
  | sysPrint h ho hs hx => exact (stageInv_fetch rfl).2 ⟨hs, (inv.execute_direct h ho rfl).1⟩
  | sysOther h ho hs hx1 hx2 => exact (stageInv_fetch rfl).2 ⟨hs, (inv.execute_direct h ho rfl).1⟩
  | sysEnd h ho hs hr hb => exact (stageInv_fetch rfl).2 ⟨rfl, (inv.execute_direct h ho rfl).1⟩
  | sysStart h ho hs hx =>
    exact (stageInv_execute (by exact h)).2
      ⟨(inv.execute_direct h ho rfl).1, .inl ⟨decodeClass_of_opcodeOf ho, .inr ⟨rfl, ho⟩⟩⟩
  | sysByte h ho hs hr hb =>
    exact (stageInv_execute (by exact h)).2
      ⟨(inv.execute_direct h ho rfl).1, .inl ⟨decodeClass_of_opcodeOf ho, .inr ⟨hs, ho⟩⟩⟩
  | write h ho hr =>
    obtain ⟨ht, hs, -⟩ := (stageInv_writeback h).1 inv
    exact (stageInv_fetch rfl).2 ⟨hs, ht⟩
  | unexpectedDecode h hd h0 h1 =>
    rcases (stageInv_decode h).1 inv with ⟨hs, -⟩ | ⟨hs, -⟩
    · exact absurd hs h0
    · exact absurd hs h1
  | unexpectedExecute h hu => exact absurd hu (inv.execute_expected h)
  | unexpectedWriteback h hs hi =>
    obtain ⟨-, -, -, ho⟩ := (stageInv_writeback h).1 inv
    exact absurd ho (not_or.2 ⟨hs, hi⟩)
  | halted h => exact inv

/-! ## The core's part of soundness -/

theorem compareFlag_bounds (x v : Byte) : -255 ≤ compareFlag x v ∧ compareFlag x v ≤ 255 := by
  have hx := x.isLt
  have hv := v.isLt
  unfold compareFlag
  omega

theorem StageMove.keeps_flag {c c' : CoreState} {es : List Event} (mv : StageMove c es c')
    (h : -255 ≤ c.CF ∧ c.CF ≤ 255) : -255 ≤ c'.CF ∧ c'.CF ≤ 255 := by
  cases mv
  case cpxAbs => exact compareFlag_bounds _ _
  all_goals exact h

theorem StageMove.keeps_memory {c c' : CoreState} {es : List Event} (mv : StageMove c es c') (h : Memory.wf c.M) :
    Memory.wf c'.M := by
  rcases mv.memory_cases with heq | ⟨-, -, ⟨h0, h1⟩, hw⟩
  · rwa [heq]
  · rw [hw]
    exact Memory.wf_write _ h _ (by unfold Config.memSize; omega) _

/-- Only BRK halts, and it sets `HALT` as it does. -/
theorem StageMove.keeps_halt {c c' : CoreState} {es : List Event} (mv : StageMove c es c')
    (h : c.HALT = true ↔ c.STEP = .halted) : c'.HALT = true ↔ c'.STEP = .halted := by
  cases mv
  case brk => exact iff_of_true rfl rfl
  case halted => exact h
  all_goals simp_all

/-! ## Soundness through a tick -/

/-- Soundness speaks of the core, the fault record and the registered numbers only. -/
theorem State.Inv.of_core_eq {s t : State} (inv : s.Inv) (hc : t.toCoreState = s.toCoreState)
    (hf : t.FAULT = s.FAULT) (hp : ∀ n, t.PEND = some n → n < t.REG.length) (hb : ∀ n ∈ t.BUF, n < t.REG.length) :
    t.Inv where
  noFault := hf.trans inv.noFault
  memory := by rw [hc]; exact inv.memory
  flag := by rw [hc]; exact inv.flag
  halt := by rw [hc]; exact inv.halt
  pend := hp
  buffer := hb
  stage := by rw [hc]; exact inv.stage

/-- The same where slot and buffer stay and no source is lost. -/
theorem State.Inv.of_requests_eq {s t : State} (inv : s.Inv) (hc : t.toCoreState = s.toCoreState)
    (hf : t.FAULT = s.FAULT) (hp : t.PEND = s.PEND) (hb : t.BUF = s.BUF) (hr : s.REG.length ≤ t.REG.length) :
    t.Inv :=
  inv.of_core_eq hc hf (fun n hn => (inv.pend n (hp ▸ hn)).trans_le hr)
    fun n hn => (inv.buffer n (hb ▸ hn)).trans_le hr

theorem applyMove_keeps_inv (s : State) (m : EnvMove) (inv : s.Inv) : (applyMove s m).Inv := by
  cases m with
  | register name priority => exact inv.of_requests_eq rfl rfl rfl rfl (by simp [applyMove, registerSource])
  | enqueue n b =>
    simp only [applyMove, enqueuePayload]
    split
    · exact inv.of_requests_eq rfl rfl rfl rfl (by simp)
    · exact inv
  | submit n =>
    simp only [applyMove, submitRequest]
    split
    · rename_i hn
      refine inv.of_core_eq rfl rfl inv.pend fun k hk => ?_
      rcases List.mem_append.1 hk with hk | hk
      · exact inv.buffer k hk
      · rw [List.mem_singleton.1 hk]
        exact hn
    · exact inv
  | start =>
    exact inv.of_requests_eq (clockStart_toCoreState s) (clockStart_FAULT s) (clockStart_PEND s) (clockStart_BUF s)
      (by simp [applyMove])
  | stop => exact inv.of_requests_eq rfl rfl rfl rfl le_rfl

theorem interruptCheck_keeps_inv (s : State) (inv : s.Inv) : (interruptCheck s).Inv := by
  rcases interruptCheck_cases s with h | ⟨n, src, b, q, -, -, -, h⟩ <;> rw [h]
  · exact inv
  · exact inv.of_core_eq rfl rfl (fun k hk => by cases hk) fun k hk => by simpa using inv.buffer k hk

/-- The controller delivers a number from the buffer, so a registered one. -/
theorem controllerPulse_keeps_inv (s : State) (inv : s.Inv) : (controllerPulse s).Inv := by
  unfold controllerPulse
  split
  · rename_i n rest hscan
    obtain ⟨pre, post, hbuf, hrest⟩ := scanLevels_splits _ _ _ _ _ hscan
    refine inv.of_core_eq rfl rfl (fun k hk => ?_) fun k hk => inv.buffer k ?_
    · obtain rfl := Option.some.inj hk
      exact inv.buffer n (by simp [hbuf])
    · have hk' : k ∈ pre ++ post := by simpa [hrest] using hk
      rw [hbuf]
      exact List.mem_append.2 ((List.mem_append.1 hk').imp_right (List.mem_cons_of_mem n))
  · exact inv

theorem StageMove.keeps_inv {s : State} {es : List Event} {c : CoreState} (mv : StageMove s.toCoreState es c)
    (inv : s.Inv) : (emitAll es { s with toCoreState := c }).Inv where
  noFault := inv.noFault
  memory := mv.keeps_memory inv.memory
  flag := mv.keeps_flag inv.flag
  halt := mv.keeps_halt inv.halt
  pend := inv.pend
  buffer := inv.buffer
  stage := mv.keeps_stageInv inv.stage

/-- Soundness, and with it any condition on the core, passes through the parts of a tick around the stage. -/
theorem inv_tickParts (P : CoreState → Prop) :
    TickParts fun s t => s.Inv ∧ P s.toCoreState → t.Inv ∧ P t.toCoreState where
  refl _ h := h
  trans _ _ _ hab hbc h := hbc (hab h)
  move s m := fun ⟨inv, hP⟩ => ⟨applyMove_keeps_inv s m inv, by rwa [applyMove_toCoreState]⟩
  env _ _ := fun ⟨inv, hP⟩ => ⟨inv.of_requests_eq rfl rfl rfl rfl le_rfl, hP⟩
  check s := fun ⟨inv, hP⟩ => ⟨interruptCheck_keeps_inv s inv, by rwa [interruptCheck_toCoreState]⟩
  controller s := fun ⟨inv, hP⟩ => ⟨controllerPulse_keeps_inv s inv, by rwa [controllerPulse_toCoreState]⟩
  clock _ := fun ⟨inv, hP⟩ => ⟨inv.of_requests_eq rfl rfl rfl rfl le_rfl, hP⟩

/-- A condition on the core that every move from a sound state keeps is, with soundness, kept by every step. -/
theorem step_keeps_inv_and {P : CoreState → Prop}
    (hP : ∀ c es c', StageMove c es c' → c.StageInv → P c → P c') {s t : State} (inv : s.Inv) (hs : P s.toCoreState)
    (h : step s = .next t) : t.Inv ∧ P t.toCoreState :=
  (inv_tickParts P).step (fun _ _ _ mv ⟨inv, hs⟩ => ⟨mv.keeps_inv inv, hP _ _ _ mv inv.stage hs⟩) h ⟨inv, hs⟩

/-! ## The pointer bounds -/

theorem pointerInv_fetch {c : CoreState} (h : c.STEP = .fetch) : c.PointerInv ↔ -126 ≤ c.IP ∧ c.IP ≤ 65663 := by
  simp only [CoreState.PointerInv, h]

theorem pointerInv_decode {c : CoreState} (h : c.STEP = .decode) : c.PointerInv ↔ 1 ≤ c.IP ∧ c.IP ≤ 65536 := by
  simp only [CoreState.PointerInv, h]

theorem pointerInv_execute_first {c : CoreState} (h : c.STEP = .execute) (hs : c.SUB = 0) :
    c.PointerInv ↔ 1 ≤ c.IP ∧ c.IP ≤ 65536 := by
  simp only [CoreState.PointerInv, h, if_pos hs]

theorem pointerInv_execute_second {c : CoreState} (h : c.STEP = .execute) (hs : c.SUB = 1) :
    c.PointerInv ↔ 0 ≤ c.IP ∧ c.IP ≤ 65536 ∧ (opcodeOf c.IR = some .sys → 1 ≤ c.SIP ∧ c.SIP ≤ 65536) := by
  simp [CoreState.PointerInv, h, hs]

theorem pointerInv_writeback {c : CoreState} (h : c.STEP = .writeback) : c.PointerInv ↔ 0 ≤ c.IP ∧ c.IP ≤ 65536 := by
  simp only [CoreState.PointerInv, h]

theorem pointerInv_halted {c : CoreState} (h : c.STEP = .halted) : c.PointerInv ↔ 0 ≤ c.IP ∧ c.IP ≤ 65536 := by
  simp only [CoreState.PointerInv, h]

/-- Off FETCH the pointer stands in the store or one past it. -/
theorem CoreState.PointerInv.off_fetch {c : CoreState} (hp : c.PointerInv) (h : c.STEP ≠ .fetch) :
    0 ≤ c.IP ∧ c.IP ≤ 65536 := by
  unfold CoreState.PointerInv at hp
  split at hp
  · contradiction
  · split at hp <;> omega
  · omega
  · exact hp
  · exact hp

/-- A move back to FETCH that leaves the pointer is within the bounds. -/
theorem pointerInv_of_back_to_fetch {c c' : CoreState} (hp : c.PointerInv) (h : c.STEP ≠ .fetch)
    (hstep : c'.STEP = .fetch) (hip : c'.IP = c.IP) : c'.PointerInv := by
  have hb := hp.off_fetch h
  rw [pointerInv_fetch hstep, hip]
  omega

/-- A move back to FETCH that has read the byte at the pointer is within the bounds. -/
theorem pointerInv_of_read {c c' : CoreState} (hr : InRange c.IP) (hstep : c'.STEP = .fetch)
    (hip : c'.IP = c.IP + 1) : c'.PointerInv := by
  rw [pointerInv_fetch hstep, hip]
  omega

/-- After the first EXECUTE tick of an instruction other than SYS, which leaves the pointer. -/
theorem CoreState.PointerInv.execute_second {c c' : CoreState} (hp : c.PointerInv) (h : c.STEP = .execute)
    (hne : opcodeOf c.IR ≠ some .sys) (hstep : c'.STEP = c.STEP) (hsub : c'.SUB = 1)
    (hir : c'.IR = c.IR) (hip : c'.IP = c.IP) : c'.PointerInv := by
  obtain ⟨hlo, hhi⟩ := hp.off_fetch (by simp [h])
  rw [pointerInv_execute_second (hstep.trans h) hsub, hir, hip]
  exact ⟨hlo, hhi, fun hsys => absurd hsys hne⟩

theorem inRange_succ {a : Int} (h : InRange a) : 1 ≤ a + 1 ∧ a + 1 ≤ 65536 := by omega

theorem sext8_bounds (b : Byte) : -128 ≤ sext8 b ∧ sext8 b ≤ 127 := by
  have hb := b.isLt
  unfold sext8
  split <;> omega

theorem zext_bounds (b : Byte) : 0 ≤ zext b ∧ zext b ≤ 255 := by
  have hb := b.isLt
  unfold zext
  omega

/-- Every move from a sound state keeps the pointer bounds. -/
theorem StageMove.keeps_pointerInv {c c' : CoreState} {es : List Event} (mv : StageMove c es c') (inv : c.StageInv)
    (hp : c.PointerInv) : c'.PointerInv := by
  cases mv with
  | fetch h hr => exact (pointerInv_decode rfl).2 (inRange_succ hr)
  | direct h hd =>
    obtain ⟨hs, -⟩ := inv.decode_first h (by simp [hd])
    exact (pointerInv_execute_first rfl (by exact hs)).2 ((pointerInv_decode h).1 hp)
  | low h hd hs ht hr => exact (pointerInv_decode (by exact h)).2 (inRange_succ hr)
  | high lo h hd hs ht hr => exact (pointerInv_execute_first rfl rfl).2 (inRange_succ hr)
  | ldaImm h ho hr => exact pointerInv_of_read hr rfl rfl
  | ldxImm h ho hr => exact pointerInv_of_read hr rfl rfl
  | ldyImm h ho hr => exact pointerInv_of_read hr rfl rfl
  | bneRel h ho hr =>
    obtain ⟨hs, -⟩ := inv.execute_single h ho rfl (by decide)
    have hb := (pointerInv_execute_first h hs).1 hp
    have hoff := sext8_bounds (c.M.read c.IP.toNat)
    refine (pointerInv_fetch rfl).2 ?_
    dsimp only
    split <;> omega
  | firstRead h ho hs hr => exact hp.execute_second h (by rcases ho with ho | ho | ho <;> simp [ho]) rfl rfl rfl rfl
  | staStage h ho hs => exact hp.execute_second h (by simp [ho]) rfl rfl rfl rfl
  | staHand h ho hs => exact (pointerInv_writeback rfl).2 (hp.off_fetch (by simp [h]))
  | incAbs h ho hs hr => exact (pointerInv_writeback rfl).2 (hp.off_fetch (by simp [h]))
  | brk h ho => exact (pointerInv_halted rfl).2 (hp.off_fetch (by simp [h]))
  | sysStart h ho hs hx =>
    obtain ⟨hlo, hhi⟩ := zext_bounds c.Y
    exact (pointerInv_execute_second (by exact h) rfl).2
      ⟨hlo, by dsimp only; omega, fun _ => (pointerInv_execute_first h hs).1 hp⟩
  | sysByte h ho hs hr hb =>
    obtain ⟨-, -, hsip⟩ := (pointerInv_execute_second h hs).1 hp
    obtain ⟨hlo, hhi⟩ := inRange_succ hr
    exact (pointerInv_execute_second (by exact h) (by exact hs)).2 ⟨by dsimp only; omega, hhi, hsip⟩
  | sysEnd h ho hs hr hb =>
    obtain ⟨-, -, hsip⟩ := (pointerInv_execute_second h hs).1 hp
    obtain ⟨hlo, hhi⟩ := hsip ho
    exact (pointerInv_fetch rfl).2 ⟨by dsimp only; omega, by dsimp only; omega⟩
  | nop h hd => exact pointerInv_of_back_to_fetch hp (by simp [h]) rfl rfl
  | unrecognized h hd => exact pointerInv_of_back_to_fetch hp (by simp [h]) rfl rfl
  | ldaAbs h ho hs hr => exact pointerInv_of_back_to_fetch hp (by simp [h]) rfl rfl
  | adcAbs h ho hr => exact pointerInv_of_back_to_fetch hp (by simp [h]) rfl rfl
  | cpxAbs h ho hs hr => exact pointerInv_of_back_to_fetch hp (by simp [h]) rfl rfl
  | sysPrint h ho hs hx => exact pointerInv_of_back_to_fetch hp (by simp [h]) rfl rfl
  | sysOther h ho hs hx1 hx2 => exact pointerInv_of_back_to_fetch hp (by simp [h]) rfl rfl
  | write h ho hr => exact pointerInv_of_back_to_fetch hp (by simp [h]) rfl rfl
  | unexpectedDecode h hd h0 h1 => exact pointerInv_of_back_to_fetch hp (by simp [h]) rfl rfl
  | unexpectedExecute h hu => exact pointerInv_of_back_to_fetch hp (by simp [h]) rfl rfl
  | unexpectedWriteback h hs hi => exact pointerInv_of_back_to_fetch hp (by simp [h]) rfl rfl
  | halted h => exact hp

end Sys2Proof.Machine
end

section
/-! The statements of 10_state.md, settled. -/

namespace Sys2Proof.Proofs

open Sys2Proof.Machine

/-- Settles O26: every part of a tick, the stage's move among them, keeps soundness. -/
theorem stepKeepsSoundness : Obligations.StepKeepsSoundness :=
  fun _ _ inv h => (step_keeps_inv_and (P := fun _ => True) (fun _ _ _ _ _ _ => trivial) inv trivial h).1

/-- Settles O27: every move from a sound state keeps the bounds, and nothing else moves the pointer. -/
theorem stepKeepsPointerBounds : Obligations.StepKeepsPointerBounds :=
  fun _ _ inv hp h => (step_keeps_inv_and (fun _ _ _ mv inv hp => mv.keeps_pointerInv inv hp) inv hp h).2

/-- Settles O25: the base case of the two invariants. -/
theorem resetIsSound : Obligations.ResetIsSound where
  left :=
    { noFault := rfl
      memory := Memory.wf_nil
      flag := by decide
      halt := by decide
      pend := by decide
      buffer := by decide
      stage := (stageInv_fetch rfl).2 ⟨rfl, rfl⟩ }
  right := (pointerInv_fetch rfl).2 (by decide)

/-- Settles O21: every part of a tick keeps every source, its number, name and priority. -/
theorem registryIsAppendOnly : Obligations.RegistryIsAppendOnly :=
  fun _ _ n src h => keepsSources_tickParts.step (fun _ _ _ _ => .of_eq rfl) h n src

/-- Settles O22: every part of a tick leaves the output or adds to its end. -/
theorem outputIsAppendOnly : Obligations.OutputIsAppendOnly :=
  fun _ _ h => extendsOutput_tickParts.step (fun _ es _ _ => ⟨es, rfl⟩) h

/-- Settles O37: inside an instruction the flag stays, and the last move of a step changes it only for CPX. -/
theorem onlyCpxWritesTheFlag : Obligations.OnlyCpxWritesTheFlag := by
  intro s t h hne
  rcases step_changes_at_last_move CoreState.CF
    (fun _ _ _ mv hb => mv.flag_cases.resolve_right fun hw => hb hw.1) h with heq | ⟨c, es, hc, mv⟩
  · exact absurd heq hne
  · rcases mv.flag_cases with heq | ⟨-, ho⟩
    · exact absurd (heq.trans hc) hne
    · exact (opcodeOf_eq_some t.IR .cpxAbs).1 ho

/-- Settles O38: inside an instruction the cells stay, and the last move of a step writes one only for STA and INC. -/
theorem onlyStaAndIncWriteMemory : Obligations.OnlyStaAndIncWriteMemory := by
  intro s t a h hne
  rcases step_changes_at_last_move CoreState.M
    (fun _ _ _ mv hb => mv.memory_cases.resolve_right fun hw => hb hw.1) h with heq | ⟨c, es, hc, mv⟩
  · exact absurd (by rw [heq]) hne
  · rcases mv.memory_cases with heq | ⟨-, ho, hr, hw⟩
    · exact absurd (by rw [heq, hc]) hne
    · refine ⟨ho.imp (opcodeOf_eq_some t.IR .staAbs).1 (opcodeOf_eq_some t.IR .incAbs).1, ?_⟩
      by_contra ha
      have hother : a ≠ t.AR.toNat := fun he => ha (by rw [he, Int.toNat_of_nonneg hr.1])
      exact hne (by rw [hw, Memory.read_write_other _ _ _ _ hother, hc])

/-- Settles O23: the empty cell list reads zero everywhere, and the other fields are the reset state's own. -/
theorem resetValuesOfTheSource : Obligations.ResetValuesOfTheSource :=
  ⟨fun c => ⟨fun a => by rw [storeReset_M, Memory.read_nil]; rfl, rfl⟩, rfl, rfl, rfl, fun _ => rfl, rfl, rfl, rfl, rfl⟩

/-- Settles O24: the chosen fields of the reset state. -/
theorem resetValuesChosen : Obligations.ResetValuesChosen :=
  ⟨rfl, rfl, rfl, rfl, rfl, rfl, rfl, rfl, rfl, rfl, rfl, rfl, rfl, rfl⟩

end Sys2Proof.Proofs
end

section
/-! SUPPORT. The family of 20_memory.md: memories compared by their cells, what can fault, what a sound machine's ticks
emit and raise, and the flashing of a program. -/

namespace Sys2Proof.Machine

/-! ## Memories by their cells -/

theorem Memory.wf_cons {k : Nat} {w : Byte} {rest : Memory} :
    Memory.wf ((k, w) :: rest) ↔
      (∀ c ∈ rest, k < c.1) ∧ k < Config.memSize ∧ w ≠ unlistedByte ∧ Memory.wf rest := by
  simp only [Memory.wf, List.pairwise_cons, List.forall_mem_cons]
  tauto

/-- A cell below every listed one is not listed. -/
theorem Memory.read_of_lt {m : Memory} {a : Nat} (h : ∀ c ∈ m, a < c.1) : m.read a = unlistedByte := by
  induction m with
  | nil => rfl
  | cons c rest ih =>
    obtain ⟨hc, hrest⟩ := List.forall_mem_cons.1 h
    rw [Memory.read, if_neg (Nat.ne_of_gt hc), ih hrest]

@[simp] theorem Memory.read_cons_self (k : Nat) (w : Byte) (rest : Memory) : Memory.read ((k, w) :: rest) k = w :=
  if_pos rfl

theorem Memory.read_cons_of_ne {k a : Nat} (w : Byte) (rest : Memory) (h : k ≠ a) :
    Memory.read ((k, w) :: rest) a = rest.read a :=
  if_neg h

/-- Two canonical memories differ at the first cell of the one if the other lists only cells above it. -/
theorem Memory.read_first_ne {k : Nat} {w : Byte} {rest m : Memory} (hwf : Memory.wf ((k, w) :: rest))
    (h : ∀ c ∈ m, k < c.1) : Memory.read ((k, w) :: rest) k ≠ m.read k := by
  obtain ⟨-, -, hw, -⟩ := Memory.wf_cons.1 hwf
  rwa [Memory.read_cons_self, Memory.read_of_lt h]

/-- Two canonical memories with the same cells start at the same cell. -/
theorem Memory.first_le {k k' : Nat} {w w' : Byte} {rest rest' : Memory} (hwf : Memory.wf ((k, w) :: rest))
    (hwf' : Memory.wf ((k', w') :: rest'))
    (h : ∀ a < 65536, Memory.read ((k, w) :: rest) a = Memory.read ((k', w') :: rest') a) : k' ≤ k := by
  by_contra hlt
  obtain ⟨-, hk, -, -⟩ := Memory.wf_cons.1 hwf
  obtain ⟨habove, -, -, -⟩ := Memory.wf_cons.1 hwf'
  have hall : ∀ c ∈ (k', w') :: rest', k < c.1 :=
    List.forall_mem_cons.2 ⟨by omega, fun c hc => (Nat.lt_of_not_le hlt).trans (habove c hc)⟩
  exact Memory.read_first_ne hwf hall (h k hk)

/-- The canonical form is determined by the cells. -/
theorem Memory.eq_of_read_eq (m m' : Memory) (hwf : Memory.wf m) (hwf' : Memory.wf m')
    (h : ∀ a < 65536, m.read a = m'.read a) : m = m' := by
  induction m generalizing m' with
  | nil =>
    cases m' with
    | nil => rfl
    | cons c rest' =>
      exact absurd (h c.1 (Memory.wf_cons.1 hwf').2.1).symm (Memory.read_first_ne hwf' (by simp))
  | cons c rest ih =>
    obtain ⟨k, w⟩ := c
    obtain ⟨habove, hk, -, hrest⟩ := Memory.wf_cons.1 hwf
    cases m' with
    | nil => exact absurd (h k hk) (Memory.read_first_ne hwf (by simp))
    | cons c' rest' =>
      obtain ⟨k', w'⟩ := c'
      obtain ⟨habove', -, -, hrest'⟩ := Memory.wf_cons.1 hwf'
      obtain rfl : k = k' :=
        Nat.le_antisymm (Memory.first_le hwf' hwf fun a ha => (h a ha).symm) (Memory.first_le hwf hwf' h)
      obtain rfl : w = w' := by simpa using h k hk
      have htail : ∀ a < 65536, Memory.read rest a = Memory.read rest' a := by
        intro a ha
        by_cases hka : k = a
        · subst hka
          rw [Memory.read_of_lt habove, Memory.read_of_lt habove']
        · simpa only [Memory.read_cons_of_ne w _ hka] using h a ha
      rw [ih rest' hrest hrest' htail]

/-! ## The composite accesses -/

theorem memRead_ok (a : Int) (c : CoreState) (h : InRange a) :
    memRead a c = .ok (c.M.read a.toNat) { c with AR := a, DR := c.M.read a.toNat } :=
  tuReadByte_ok (tuSetAddress a c) h

theorem memRead_raised (a : Int) (c : CoreState) (h : ¬ InRange a) :
    memRead a c = .raised (.addressOutOfRange a) { c with AR := a } :=
  tuReadByte_raised (tuSetAddress a c) h

theorem memWrite_ok (a : Int) (v : Byte) (c : CoreState) (h : InRange a) :
    memWrite a v c = .ok () { c with AR := a, DR := v, STAGED := v, M := c.M.write a.toNat v } :=
  tuWriteByte_ok (tuStageWrite v (tuSetAddress a c)) h

theorem memWrite_raised (a : Int) (v : Byte) (c : CoreState) (h : ¬ InRange a) :
    memWrite a v c = .raised (.addressOutOfRange a) { c with AR := a, DR := v, STAGED := v } :=
  tuWriteByte_raised (tuStageWrite v (tuSetAddress a c)) h

/-- The cell an address in range names is no other natural number's. -/
theorem ne_toNat_of_ne {a : Int} (h : InRange a) {b : Nat} (hb : (b : Int) ≠ a) : b ≠ a.toNat := by omega

/-! ## Flashing a program -/

/-- The cells after these bytes are written to address `a` and on. -/
def Memory.writeBytes : Memory → Nat → List Byte → Memory
  | m, _, [] => m
  | m, a, b :: bs => (m.write a b).writeBytes (a + 1) bs

theorem Memory.read_writeBytes_outside (m : Memory) (a : Nat) (bs : List Byte) (k : Nat)
    (h : k < a ∨ a + bs.length ≤ k) : (m.writeBytes a bs).read k = m.read k := by
  induction bs generalizing m a with
  | nil => rfl
  | cons b bs ih =>
    rw [List.length_cons] at h
    rw [Memory.writeBytes, ih _ _ (by omega), Memory.read_write_other _ _ _ _ (by omega)]

theorem Memory.read_writeBytes_inside (m : Memory) (hm : Memory.wf m) (a : Nat) (bs : List Byte) (k : Nat) (b : Byte)
    (hfits : a + bs.length ≤ 65536) (h : bs[k]? = some b) : (m.writeBytes a bs).read (a + k) = b := by
  induction bs generalizing m a k with
  | nil => simp at h
  | cons v bs ih =>
    rw [List.length_cons] at hfits
    rw [Memory.writeBytes]
    cases k with
    | zero =>
      obtain rfl := Option.some.inj h
      rw [Memory.read_writeBytes_outside _ _ _ _ (by omega)]
      exact Memory.read_write_same m hm a v
    | succ k =>
      have ha : a < Config.memSize := by unfold Config.memSize; omega
      rw [← ih _ (Memory.wf_write m hm a ha v) (a + 1) k (by omega) h]
      congr 1
      omega

/-- Bytes that fit go to their cells; the register pair is left at the last (20_memory.md R63). -/
theorem flashBytes_ok (b : Byte) (bs : List Byte) (a : Nat) (c : CoreState) (h : a + (b :: bs).length ≤ 65536) :
    flashBytes (b :: bs) a c = .ok () { c with
      M := Memory.writeBytes c.M a (b :: bs), AR := (a : Int) + bs.length, DR := bs.getLastD b,
      STAGED := bs.getLastD b } := by
  have hr : InRange (a : Int) := by rw [List.length_cons] at h; omega
  induction bs generalizing b a c with
  | nil => simp [flashBytes, memWrite_ok _ _ _ hr, Memory.writeBytes]
  | cons b' bs ih =>
    rw [List.length_cons] at h
    rw [flashBytes, memWrite_ok _ _ _ hr, Res.bind_ok, ← Int.natCast_succ,
      ih b' (a + 1) _ (by omega) (by rw [List.length_cons] at h; omega)]
    simp only [Memory.writeBytes, List.getLastD_cons, List.length_cons, Int.toNat_natCast, Res.ok.injEq,
      CoreState.mk.injEq, true_and, and_true]
    omega

theorem flashBytes_append (xs ys : List Byte) (a : Int) (c : CoreState) :
    flashBytes (xs ++ ys) a c = (flashBytes xs a c).bind fun _ c => flashBytes ys (a + xs.length) c := by
  induction xs generalizing a c with
  | nil => simp [flashBytes]
  | cons x xs ih =>
    have hend : a + 1 + (xs.length : Int) = a + ((x :: xs).length : Int) := by rw [List.length_cons]; omega
    rw [List.cons_append, flashBytes, flashBytes]
    cases memWrite a x c with
    | raised r d => rfl
    | ok u d => rw [Res.bind_ok, Res.bind_ok, ih, hend]

/-- Flashing at an address that is no cell's faults before it writes (20_memory.md R63). -/
theorem flashBytes_raised (b : Byte) (bs : List Byte) (a : Int) (c : CoreState) (h : ¬ InRange a) :
    flashBytes (b :: bs) a c = .raised (.addressOutOfRange a) { c with AR := a, DR := b, STAGED := b } := by
  rw [flashBytes, memWrite_raised a b c h, Res.bind_raised]

/-- Bytes that run past the last cell fault there, with those that have cells written (20_memory.md R63). -/
theorem flashBytes_overruns (b : Byte) (bs : List Byte) (w : Byte) (ws : List Byte) (a : Nat) (c : CoreState)
    (h : a + (b :: bs).length = 65536) :
    flashBytes ((b :: bs) ++ w :: ws) a c = .raised (.addressOutOfRange 65536) { c with
      M := Memory.writeBytes c.M a (b :: bs), AR := 65536, DR := w, STAGED := w } := by
  have hend : (a : Int) + (b :: bs).length = 65536 := by omega
  rw [flashBytes_append, flashBytes_ok b bs a c h.le, Res.bind_ok, hend, flashBytes_raised w ws _ _ (by decide)]

/-- Integers that are all bytes are taken as they are. -/
theorem asBytes_ok (vs : List Nat) (h : ∀ v ∈ vs, v ≤ 255) : asBytes vs = .ok (vs.map (BitVec.ofNat 8)) := by
  induction vs with
  | nil => rfl
  | cons v vs ih =>
    obtain ⟨hv, hvs⟩ := List.forall_mem_cons.1 h
    simp only [asBytes, if_pos (Nat.lt_succ_of_le hv), ih hvs, List.map_cons]

/-- An integer that is no byte makes the whole sequence refused. -/
theorem asBytes_error (vs : List Nat) (h : ∃ v ∈ vs, 255 < v) : ∃ v, 255 < v ∧ asBytes vs = .error v := by
  induction vs with
  | nil => simp at h
  | cons v vs ih =>
    by_cases hv : v < 256
    · have htail : ∃ v ∈ vs, 255 < v := by
        obtain ⟨w, hw, hlarge⟩ := h
        rcases List.mem_cons.1 hw with rfl | hw
        · omega
        · exact ⟨w, hw, hlarge⟩
      obtain ⟨w, hlarge, he⟩ := ih htail
      exact ⟨w, hlarge, by simp only [asBytes, if_pos hv, he]⟩
    · exact ⟨v, by omega, if_neg hv⟩

section Flash

variable {o : Int} {bytes : List Nat} {s : State}

theorem flashProgram_armed (h : s.ARMED = true) : flashProgram o bytes s = .refused .flashWhileArmed := if_pos h

theorem flashProgram_tooLarge (h : s.ARMED = false) {v : Nat} (hv : asBytes bytes = .error v) :
    flashProgram o bytes s = .refused (.flashElementTooLarge v) := by
  simp [flashProgram, h, hv]

theorem flashProgram_ok (h : s.ARMED = false) (hb : ∀ v ∈ bytes, v ≤ 255) {c : CoreState}
    (hf : flashBytes (bytes.map (BitVec.ofNat 8)) o s.toCoreState = .ok () c) :
    flashProgram o bytes s = .next { s with toCoreState := c } := by
  simp [flashProgram, h, asBytes_ok bytes hb, hf]

theorem flashProgram_raised (h : s.ARMED = false) (hb : ∀ v ∈ bytes, v ≤ 255) {r : FaultReason} {c : CoreState}
    (hf : flashBytes (bytes.map (BitVec.ofNat 8)) o s.toCoreState = .raised r c) :
    flashProgram o bytes s = .fault (r.toFault (raiseFault r { s with toCoreState := c })) := by
  simp [flashProgram, h, asBytes_ok bytes hb, hf]

end Flash

/-- A byte written from an integer reads back as the integer. -/
theorem Memory.toNat_read_writeBytes (m : Memory) (hm : Memory.wf m) (a : Nat) (vs : List Nat) (k v : Nat)
    (hb : ∀ v ∈ vs, v ≤ 255) (hfits : a + vs.length ≤ 65536) (h : vs[k]? = some v) :
    ((m.writeBytes a (vs.map (BitVec.ofNat 8))).read (a + k)).toNat = v := by
  have hv := hb v (List.mem_of_getElem? h)
  rw [Memory.read_writeBytes_inside m hm a _ k (BitVec.ofNat 8 v) (by simpa using hfits) (by simp [h]),
    BitVec.toNat_ofNat]
  omega

/-- A program that fits stands in its cells, with the register pair at its last element (20_memory.md R63). -/
theorem flashProgram_fits {s : State} (v : Nat) (vs : List Nat) (a : Nat) (h : s.ARMED = false)
    (hb : ∀ w ∈ v :: vs, w ≤ 255) (hfits : a + (v :: vs).length ≤ 65536) :
    flashProgram a (v :: vs) s = .next { s with
      M := Memory.writeBytes s.M a ((v :: vs).map (BitVec.ofNat 8)), AR := (a : Int) + vs.length,
      DR := BitVec.ofNat 8 (vs.getLastD v), STAGED := BitVec.ofNat 8 (vs.getLastD v) } := by
  rw [flashProgram_ok h hb (flashBytes_ok _ (vs.map (BitVec.ofNat 8)) a _ (by simpa using hfits))]
  simp [List.getLastD_eq_getLast?]

/-- A program that runs past the last cell faults there, with the elements that have cells written (20_memory.md R63). -/
theorem flashProgram_overruns {s : State} (v : Nat) (vs : List Nat) (a : Nat) (h : s.ARMED = false)
    (hb : ∀ w ∈ v :: vs, w ≤ 255) (ha : a ≤ 65535) (hover : 65536 < a + (v :: vs).length) :
    ∃ t, flashProgram a (v :: vs) s = .fault (.addressOutOfRange 65536 t) ∧ t.AR = 65536 ∧
      t.FAULT = some (.addressOutOfRange 65536) ∧
      t.M = Memory.writeBytes s.M a (((v :: vs).take (65536 - a)).map (BitVec.ofNat 8)) := by
  rw [List.length_cons] at hover
  obtain ⟨n, hn⟩ : ∃ n, 65536 - a = n + 1 := ⟨65535 - a, by omega⟩
  obtain ⟨w, ws, hdrop⟩ : ∃ w ws, vs.drop n = w :: ws :=
    List.exists_cons_of_length_pos (by rw [List.length_drop]; omega)
  have hlen : (vs.take n).length = n := by rw [List.length_take]; omega
  have hsplit : (v :: vs).map (BitVec.ofNat 8) =
      (BitVec.ofNat 8 v :: (vs.take n).map (BitVec.ofNat 8)) ++ BitVec.ofNat 8 w :: ws.map (BitVec.ofNat 8) := by
    rw [← List.map_cons, ← List.map_cons, ← List.map_append, ← hdrop, List.cons_append, List.take_append_drop]
  have hflash := flashBytes_overruns (BitVec.ofNat 8 v) ((vs.take n).map (BitVec.ofNat 8)) (BitVec.ofNat 8 w)
    (ws.map (BitVec.ofNat 8)) a s.toCoreState (by rw [List.length_cons, List.length_map, hlen]; omega)
  rw [← hsplit] at hflash
  exact ⟨_, flashProgram_raised h hb hflash, rfl, rfl, by rw [hn]; rfl⟩

/-! ## Which faults a handler can raise -/

/-- Whatever this raises is the range fault of a store access (60_exceptions.md R151). -/
def Res.RaisesOnlyRange {α : Type} (x : Res α) : Prop :=
  ∀ r c, x = .raised r c → r = .addressOutOfRange c.AR ∧ ¬ InRange c.AR

theorem raisesOnlyRange_ok {α : Type} (a : α) (c : CoreState) : (Res.ok a c).RaisesOnlyRange := by
  intro r d h
  cases h

theorem raisesOnlyRange_raised {α : Type} (c : CoreState) (h : ¬ InRange c.AR) :
    (Res.raised (.addressOutOfRange c.AR) c : Res α).RaisesOnlyRange := by
  rintro r d ⟨⟩
  exact ⟨rfl, h⟩

theorem Res.RaisesOnlyRange.bind {α β : Type} {x : Res α} {f : α → CoreState → Res β} (hx : x.RaisesOnlyRange)
    (hf : ∀ a c, (f a c).RaisesOnlyRange) : (x.bind f).RaisesOnlyRange := by
  cases x with
  | ok a c => exact hf a c
  | raised r c =>
    rintro r' c' ⟨⟩
    exact hx r c rfl

theorem fetchByte_raisesOnlyRange (c : CoreState) : (fetchByte c).RaisesOnlyRange := by
  by_cases h : InRange c.IP
  · rw [fetchByte_ok c h]
    exact raisesOnlyRange_ok _ _
  · rw [fetchByte_raised c h]
    exact raisesOnlyRange_raised { c with AR := c.IP } h

theorem tuReadByte_raisesOnlyRange (c : CoreState) : (tuReadByte c).RaisesOnlyRange := by
  by_cases h : InRange c.AR
  · rw [tuReadByte_ok c h]
    exact raisesOnlyRange_ok _ _
  · rw [tuReadByte_raised c h]
    exact raisesOnlyRange_raised c h

theorem tuWriteByte_raisesOnlyRange (c : CoreState) : (tuWriteByte c).RaisesOnlyRange := by
  by_cases h : InRange c.AR
  · rw [tuWriteByte_ok c h]
    exact raisesOnlyRange_ok _ _
  · rw [tuWriteByte_raised c h]
    exact raisesOnlyRange_raised { c with DR := c.STAGED } h

theorem twoTickStage_raisesOnlyRange {first second : Handler} (h1 : ∀ c, (first c).RaisesOnlyRange)
    (h2 : ∀ c, (second c).RaisesOnlyRange) (c : CoreState) : (twoTickStage first second c).RaisesOnlyRange := by
  rcases twoTickStage_cases first second c with ⟨-, e⟩ | ⟨-, e⟩ | ⟨-, -, e⟩ <;> rw [e]
  · exact h1 c
  · exact h2 c
  · exact raisesOnlyRange_ok _ _

theorem firstReadStage_raisesOnlyRange (c : CoreState) : (firstReadStage c).RaisesOnlyRange :=
  (tuReadByte_raisesOnlyRange c).bind fun _ _ => raisesOnlyRange_ok _ _

theorem sysStage_raisesOnlyRange (c : CoreState) : (sysStage c).RaisesOnlyRange := by
  refine twoTickStage_raisesOnlyRange (fun c => ?_) (fun c => ?_) c
  · split
    · exact raisesOnlyRange_ok _ _
    · split <;> exact raisesOnlyRange_ok _ _
  · refine (fetchByte_raisesOnlyRange c).bind fun b c => ?_
    split <;> exact raisesOnlyRange_ok _ _

/-- EXECUTE raises only at a store access. -/
theorem executeStage_raisesOnlyRange (c : CoreState) : (executeStage c).RaisesOnlyRange := by
  have onFetch : ∀ f : Byte → CoreState → CoreState,
      ((fetchByte c).bind fun b c => Res.ok ([] : List Event) (f b c)).RaisesOnlyRange := fun f =>
    (fetchByte_raisesOnlyRange c).bind fun _ _ => raisesOnlyRange_ok _ _
  have onRead : ∀ (f : Byte → CoreState → CoreState) (c : CoreState),
      ((tuReadByte c).bind fun b c => Res.ok ([] : List Event) (f b c)).RaisesOnlyRange := fun f c =>
    (tuReadByte_raisesOnlyRange c).bind fun _ _ => raisesOnlyRange_ok _ _
  unfold executeStage
  split
  case h_1 | h_2 | h_3 | h_9 => exact onFetch _
  case h_4 | h_7 | h_8 => exact twoTickStage_raisesOnlyRange firstReadStage_raisesOnlyRange (onRead _) c
  case h_5 => exact twoTickStage_raisesOnlyRange (fun _ => raisesOnlyRange_ok _ _) (fun _ => raisesOnlyRange_ok _ _) c
  case h_6 => exact onRead _ c
  case h_11 => exact sysStage_raisesOnlyRange c
  case h_10 | h_12 | h_13 => exact raisesOnlyRange_ok _ _

/-- WRITEBACK raises only at its store access. -/
theorem writebackStage_raisesOnlyRange (c : CoreState) : (writebackStage c).RaisesOnlyRange := by
  have onWrite : (writeStage c).RaisesOnlyRange :=
    (tuWriteByte_raisesOnlyRange c).bind fun _ _ => raisesOnlyRange_ok _ _
  unfold writebackStage
  split
  · exact onWrite
  · exact onWrite
  · exact raisesOnlyRange_ok _ _

/-- The stash is not what the half of the address in turn needs (40_pipeline.md R93, 60_exceptions.md R152). -/
def CoreState.Misused (c : CoreState) : Prop :=
  c.STEP = .decode ∧ decodeClass c.IR = .absolute ∧
    ((c.SUB = 0 ∧ c.STASH ≠ none) ∨ (c.SUB = 1 ∧ c.STASH = none))

/-- Sound stages find the stash empty at the low half and full at the high half. -/
theorem CoreState.StageInv.not_misused {c : CoreState} (inv : c.StageInv) : ¬ c.Misused := by
  rintro ⟨h, -, ⟨hs, ht⟩ | ⟨hs, ht⟩⟩ <;> rcases (stageInv_decode h).1 inv with ⟨hs', ht'⟩ | ⟨hs', ht', -⟩
  · exact ht ht'
  · simp [hs] at hs'
  · simp [hs] at hs'
  · exact ht' ht

/-- The absolute DECODE of a core that is not misused raises only at its store access. -/
theorem absoluteStage_raisesOnlyRange {c : CoreState} (h : c.STEP = .decode) (hd : decodeClass c.IR = .absolute)
    (hm : ¬ c.Misused) : (absoluteStage fetchByte c).RaisesOnlyRange := by
  unfold absoluteStage
  split
  · rename_i hs
    split
    · rename_i ht
      exact absurd ⟨h, hd, .inl ⟨hs, ht⟩⟩ hm
    · exact (fetchByte_raisesOnlyRange c).bind fun _ _ => raisesOnlyRange_ok _ _
  · split
    · rename_i hs
      split
      · rename_i ht
        exact absurd ⟨h, hd, .inr ⟨hs, ht⟩⟩ hm
      · exact (fetchByte_raisesOnlyRange c).bind fun _ _ => raisesOnlyRange_ok _ _
    · exact raisesOnlyRange_ok _ _

/-- A stage of a core that is not misused raises only at a store access. -/
theorem stageHandler_raisesOnlyRange {c : CoreState} (hm : ¬ c.Misused) : (stageHandler c).RaisesOnlyRange := by
  unfold stageHandler
  split
  · exact (fetchByte_raisesOnlyRange c).bind fun _ _ => raisesOnlyRange_ok _ _
  · rename_i h
    unfold decodeStage
    split
    case h_2 hd => exact absoluteStage_raisesOnlyRange h hd hm
    case h_1 | h_3 | h_4 => exact raisesOnlyRange_ok _ _
  · exact executeStage_raisesOnlyRange c
  · exact writebackStage_raisesOnlyRange c
  · exact raisesOnlyRange_ok _ _

/-! ## What a step that faults went through -/

/-- A tick that raises: the current stage's handler raised. -/
theorem tick_raised {s t : State} {r : FaultReason} (h : tickAround processorPulse s = .raised r t) :
    stageHandler s.toCoreState = .raised r t.toCoreState := by
  by_cases hs : s.STEP = .halted
  · have hpulse : processorPulse (beforeTick s) = .done (beforeTick s) := if_pos (by simpa using hs)
    rcases tickAround_cases processorPulse s with ⟨s', -, -, -, he⟩ | ⟨r', s', -, -, hp, -⟩ | ⟨-, he⟩
    · rw [he] at h; cases h
    · rw [hpulse] at hp; cases hp
    · rw [he] at h; cases h
  · rw [tickAround_processorPulse s hs] at h
    exact (tickAround_pulseWith_raised stageHandler s t r h).1

/-- Ticks that raise: the handler raised in a state that the ticks before it reached. -/
theorem TickParts.run_raised {R : State → State → Prop} (h : TickParts R)
    (stage : ∀ (s : State) es c, StageMove s.toCoreState es c → R s (emitAll es { s with toCoreState := c }))
    (n : Nat) (s t : State) (r : FaultReason) (ht : runToBoundary processorPulse n s = .raised r t) :
    ∃ u, R s u ∧ stageHandler u.toCoreState = .raised r t.toCoreState := by
  induction n generalizing s with
  | zero => cases ht
  | succ n ih =>
    rw [runToBoundary] at ht
    cases hk : tickAround processorPulse s with
    | ran s1 =>
      rw [hk, TickResult.andThen_ran] at ht
      split at ht
      · cases ht
      · obtain ⟨u, hu, hraised⟩ := ih s1 ht
        exact ⟨u, h.trans _ _ _ (h.tick stage s s1 hk) hu, hraised⟩
    | paused s1 => rw [hk] at ht; cases ht
    | raised r' s1 =>
      rw [hk] at ht
      cases ht
      exact ⟨s, h.refl s, tick_raised hk⟩

/-- A step that faults, no fault standing before, raised the fault's reason in a state that its ticks reached. -/
theorem TickParts.step_fault {R : State → State → Prop} (h : TickParts R)
    (stage : ∀ (s : State) es c, StageMove s.toCoreState es c → R s (emitAll es { s with toCoreState := c }))
    {s : State} {f : Fault} (hf : s.FAULT = none) (hs : Machine.step s = .fault f) :
    ∃ r t u, f = r.toFault t ∧ R s u ∧ stageHandler u.toCoreState = .raised r t.toCoreState := by
  rw [step_eq_finishInstr s hf] at hs
  cases hrun : finishInstr s with
  | ran t => rw [hrun] at hs; cases hs
  | paused t => rw [hrun] at hs; cases hs
  | raised r t =>
    rw [hrun] at hs
    cases hs
    obtain ⟨u, hu, hraised⟩ := h.run_raised stage _ s t r hrun
    exact ⟨r, t, u, rfl, hu, hraised⟩

/-! ## What a sound machine's ticks emit -/

/-- What every part of a tick respects, every part of a sound machine's tick respects, and the machine stays sound. -/
theorem TickParts.from_inv {R : State → State → Prop} (h : TickParts R) :
    TickParts fun s t => s.Inv → t.Inv ∧ R s t where
  refl s inv := ⟨inv, h.refl s⟩
  trans a b c hab hbc inv := by
    obtain ⟨invb, rab⟩ := hab inv
    obtain ⟨invc, rbc⟩ := hbc invb
    exact ⟨invc, h.trans _ _ _ rab rbc⟩
  move s m inv := ⟨applyMove_keeps_inv s m inv, h.move s m⟩
  env s e inv := ⟨inv.of_requests_eq rfl rfl rfl rfl le_rfl, h.env s e⟩
  check s inv := ⟨interruptCheck_keeps_inv s inv, h.check s⟩
  controller s inv := ⟨controllerPulse_keeps_inv s inv, h.controller s⟩
  clock s inv := ⟨inv.of_requests_eq rfl rfl rfl rfl le_rfl, h.clock s⟩

/-- The two states have logged the same number of unexpected states. -/
def SameUnexpected (s t : State) : Prop := t.OUT.count .unexpectedState = s.OUT.count .unexpectedState

theorem SameUnexpected.of_eq {s t : State} (h : t.OUT = s.OUT) : SameUnexpected s t := by rw [SameUnexpected, h]

theorem SameUnexpected.of_append {s t : State} {es : List Event} (h : t.OUT = s.OUT ++ es)
    (hes : .unexpectedState ∉ es) : SameUnexpected s t := by
  rw [SameUnexpected, h, List.count_append, List.count_eq_zero.2 hes, Nat.add_zero]

theorem sameUnexpected_tickParts : TickParts SameUnexpected where
  refl _ := rfl
  trans _ _ _ hab hbc := Eq.trans hbc hab
  move s m := .of_eq (applyMove_OUT s m)
  env _ _ := rfl
  check s := by
    rcases interruptCheck_cases s with h | ⟨n, src, b, q, -, -, -, h⟩ <;> rw [h]
    · exact rfl
    · exact .of_append rfl (by simp)
  controller s := .of_eq (controllerPulse_OUT s)
  clock s := .of_eq (clockStop_OUT s)

/-- A move from a sound stage is none of the unexpected ones (40_pipeline.md R103). -/
theorem StageMove.expected {c c' : CoreState} {es : List Event} (mv : StageMove c es c') (inv : c.StageInv) :
    .unexpectedState ∉ es := by
  cases mv
  case unexpectedDecode h hd h0 h1 =>
    rcases (stageInv_decode h).1 inv with ⟨hs, -⟩ | ⟨hs, -⟩
    · exact absurd hs h0
    · exact absurd hs h1
  case unexpectedExecute h hu => exact absurd hu (inv.execute_expected h)
  case unexpectedWriteback h hs hi =>
    obtain ⟨-, -, -, ho⟩ := (stageInv_writeback h).1 inv
    exact absurd ho (not_or.2 ⟨hs, hi⟩)
  all_goals simp

/-- A sound machine's stage keeps it sound and logs no unexpected state. -/
theorem StageMove.sameUnexpected {s : State} {es : List Event} {c : CoreState} (mv : StageMove s.toCoreState es c)
    (inv : s.Inv) :
    (emitAll es { s with toCoreState := c }).Inv ∧ SameUnexpected s (emitAll es { s with toCoreState := c }) :=
  ⟨mv.keeps_inv inv, .of_append rfl (mv.expected inv.stage)⟩

end Sys2Proof.Machine
end

section
/-! The statements of 20_memory.md, settled. -/

namespace Sys2Proof.Proofs

open Sys2Proof.Machine

/-- Settles O39: the ticks of a step from a sound state stay in sound states, whose stages find the stash as the
combiner needs it and are none of the unexpected ones. -/
theorem noMisuseFromSoundStates : Obligations.NoMisuseFromSoundStates := by
  intro s inv
  refine ⟨fun t h => ?_, fun t h =>
    (sameUnexpected_tickParts.from_inv.step (fun _ _ _ mv inv => mv.sameUnexpected inv) h inv).2⟩
  obtain ⟨r, t', u, hr, hu, hraised⟩ :=
    sameUnexpected_tickParts.from_inv.step_fault (fun _ _ _ mv inv => mv.sameUnexpected inv) inv.noFault h
  obtain ⟨rfl, -⟩ := stageHandler_raisesOnlyRange (hu inv).1.stage.not_misused _ _ hraised
  cases hr

/-- Settles O12: a first cell that only one of the two lists would read differently, so the lists agree entry by entry. -/
theorem equalCellsAreEqualMemories : Obligations.EqualCellsAreEqualMemories := Memory.eq_of_read_eq

/-- Settles O5: the two outcomes of the range check. -/
theorem storeReadCopiesCellOrRaises : Obligations.StoreReadCopiesCellOrRaises := by
  refine fun c => ⟨fun h => ⟨storeRead_ok c h, ?_⟩, storeRead_raised c⟩
  rw [storeRead_ok c h, Res.bind_ok]
  exact storeRead_ok { c with DR := c.M.read c.AR.toNat } h

/-- Settles O6: the two outcomes of the range check, and the cell reads of a write. -/
theorem storeWriteChangesOneCellOrRaises : Obligations.StoreWriteChangesOneCellOrRaises :=
  fun c => ⟨fun h hm => ⟨_, storeWrite_ok c h, Memory.read_write_same _ hm _ _,
    fun _ ha => Memory.read_write_other _ _ _ _ (ne_toNat_of_ne h ha)⟩, storeWrite_raised c⟩

/-- Settles O7: the cell that is read is the one just written. -/
theorem writeThenReadGivesTheByteBack : Obligations.WriteThenReadGivesTheByteBack := by
  intro c hm h
  have hcell := Memory.read_write_same c.M hm c.AR.toNat c.DR
  refine ⟨{ c with M := c.M.write c.AR.toNat c.DR }, ?_, rfl, rfl, hcell⟩
  rw [storeWrite_ok c h, Res.bind_ok, storeRead_ok { c with M := c.M.write c.AR.toNat c.DR } h]
  dsimp only
  rw [hcell]

/-- Settles O8: the stash decides which half the byte is. -/
theorem combinerStashesThenAssembles : Obligations.CombinerStashesThenAssembles :=
  fun c b => ⟨tuCombine_first b c, fun lo h => ⟨tuCombine_second lo b c h, combineBytes_inRange lo b⟩⟩

/-- Settles O9: `DR` is set on both sides of the range check. -/
theorem writeByteWritesTheStagedByte : Obligations.WriteByteWritesTheStagedByte :=
  fun c => ⟨tuWriteByte_ok c, tuWriteByte_raised c⟩

/-- Settles O10: setting the register pair, then the store's own rules. -/
theorem compositeAccessesGoThroughTheRegisterPair : Obligations.CompositeAccessesGoThroughTheRegisterPair :=
  fun c a v => ⟨memRead_ok a c,
    fun h hm => ⟨_, memWrite_ok a v c h, Memory.read_write_same _ hm _ _,
      fun _ hb => Memory.read_write_other _ _ _ _ (ne_toNat_of_ne h hb)⟩,
    fun h => ⟨memRead_raised a c h, memWrite_raised a v c h⟩⟩

/-- Settles O59, by where the sequence ends: it fits, runs past the last cell, or starts outside. -/
theorem flashWritesConsecutiveCells : Obligations.FlashWritesConsecutiveCells := by
  intro s origin bytes hm
  refine ⟨flashProgram_armed, fun h hlarge => ?refused, ?empty, fun h hb hfits hne => ?fits,
    fun h hb ho hover => ?overruns, fun o h hb hne ho => ?outside⟩
  case refused =>
    obtain ⟨v, hv, he⟩ := asBytes_error bytes hlarge
    exact ⟨v, hv, flashProgram_tooLarge h he⟩
  case empty =>
    rintro h rfl
    exact flashProgram_ok h (by simp) rfl
  case fits =>
    obtain ⟨v, vs, rfl⟩ := List.exists_cons_of_ne_nil hne
    refine ⟨_, vs.getLastD v, by rw [List.getLastD_eq_getLast?, List.getLast?_cons], ?_,
      fun k w hk => Memory.toNat_read_writeBytes _ hm _ _ _ _ hb hfits hk,
      fun a ha => Memory.read_writeBytes_outside _ _ _ _ (by simpa using ha)⟩
    rw [flashProgram_fits v vs origin h hb hfits, List.length_cons, Nat.cast_succ, ← add_assoc, add_sub_cancel_right]
  case overruns =>
    obtain ⟨v, vs, rfl⟩ := List.exists_cons_of_length_pos (l := bytes) (by omega)
    obtain ⟨t, ht, har, hf, hcells⟩ := flashProgram_overruns v vs origin h hb ho hover
    refine ⟨t, ht, har, hf, fun k w hk hw => ?_⟩
    rw [hcells]
    refine Memory.toNat_read_writeBytes _ hm _ _ _ _ (fun u hu => hb u (List.mem_of_mem_take hu)) ?_ ?_
    · rw [List.length_take]; omega
    · rw [List.getElem?_take_of_lt (by omega), hw]
  case outside =>
    obtain ⟨v, vs, rfl⟩ := List.exists_cons_of_ne_nil hne
    exact ⟨_, flashProgram_raised h hb (flashBytes_raised _ _ o _ ho), rfl, rfl⟩

end Sys2Proof.Proofs
end

section
/-! SUPPORT. The family of 30_encoding.md: the decoder run on an encoding, the bytes outside the opcode map, and a step
at FETCH. -/

namespace Sys2Proof.Machine

/-! ## The decoder on an encoding -/

/-- Format ABS: low byte, then high byte (30_encoding.md R73); joined, they are the address again (R75). -/
theorem decodeTwoBytes_halves (op : Opcode) (mk : Addr → Instr) (a : Addr) (rest : List Byte) :
    decodeTwoBytes op mk (addrLo a :: addrHi a :: rest) = .ok (mk a, rest) := by
  rw [decodeTwoBytes, joinAddr_halves]

theorem decode_unrecognized {b : Byte} (h : opcodeOf b = none) (rest : List Byte) :
    decode (b :: rest) = .ok (.unrecognized b, rest) := by
  simp only [decode, h]

/-- Each row of the map is found by its own number, and its format puts the operand together again. -/
theorem decode_encode_append {i : Instr} (hw : i.WellFormed) (rest : List Byte) :
    decode (encode i ++ rest) = .ok (i, rest) := by
  cases i with
  | ldaImm | ldxImm | ldyImm | bneRel => rfl
  | ldaAbs a => exact decodeTwoBytes_halves .ldaAbs .ldaAbs a rest
  | staAbs a => exact decodeTwoBytes_halves .staAbs .staAbs a rest
  | adcAbs a => exact decodeTwoBytes_halves .adcAbs .adcAbs a rest
  | incAbs a => exact decodeTwoBytes_halves .incAbs .incAbs a rest
  | cpxAbs a => exact decodeTwoBytes_halves .cpxAbs .cpxAbs a rest
  | nop | brk | sys => rfl
  | unrecognized b => exact decode_unrecognized hw rest

theorem decodeInstr_of_decode {bs rest : List Byte} {i : Instr} (h : decode bs = .ok (i, rest)) :
    decodeInstr bs = some i := by
  rw [decodeInstr, h]

/-- A word of the opcode table decodes to the instruction whose encoding its low bytes are. -/
theorem decodeTableWord_eq_some {n w : Nat} {i : Instr} (hw : i.WellFormed) (rest : List Byte)
    (h : tableBytes n w = encode i ++ rest) : decodeTableWord n w = some i :=
  decodeInstr_of_decode (h ▸ decode_encode_append hw rest)

/-! ## The bytes outside the map -/

theorem opcodeOf_eq_none (b : Byte) : opcodeOf b = none ↔ ∀ o, b.toNat ≠ (opcodeByte o).toNat := by
  simp only [Option.eq_none_iff_forall_ne_some, ne_eq, opcodeOf_eq_some, BitVec.toNat_inj]

/-- A byte outside the map is none of the twelve numbers of 30_encoding.md R76, in rising order. -/
theorem opcodeOf_eq_none_iff_toNat (b : Byte) :
    opcodeOf b = none ↔
      ∀ n ∈ [0x00, 0x6D, 0x8D, 0xA0, 0xA2, 0xA9, 0xAD, 0xD0, 0xEA, 0xEC, 0xEE, 0xFF], b.toNat ≠ n := by
  rw [opcodeOf_eq_none]
  constructor
  · intro h
    simp only [List.forall_mem_cons]
    exact ⟨h .brk, h .adcAbs, h .staAbs, h .ldyImm, h .ldxImm, h .ldaImm, h .ldaAbs, h .bneRel, h .nop, h .cpxAbs,
      h .incAbs, h .sys, List.forall_mem_nil _⟩
  · exact fun h o => h _ (by cases o <;> decide)

/-! ## A step at FETCH -/

theorem step_fetch {s : State} {i : Instr} (hf : s.FAULT = none) (hs : s.STEP = .fetch)
    (hi : instrAtIP s.toCoreState = some i) : step s = exec i s := by
  simp only [step, hf, if_pos hs, hi]

end Sys2Proof.Machine
end

section
/-! The statements of 30_encoding.md, settled. -/

namespace Sys2Proof.Proofs

open Sys2Proof.Machine

/-- Settles O2, by the instruction's row and its format. -/
theorem decodeOfEncodeIsIdentity : Obligations.DecodeOfEncodeIsIdentity :=
  fun _ rest hw => decode_encode_append hw rest

/-- Settles O3, by the row that the decoder took. -/
theorem decodedBytesAreTheEncoding : Obligations.DecodedBytesAreTheEncoding := fun _ _ _ h => decode_eq_ok h

/-- Settles O1: each word's bytes are an encoding and the zero bytes above it, so the round trip gives the row. -/
theorem tableWordsDecode : Obligations.TableWordsDecode :=
  ⟨decodeTableWord_eq_some trivial [0#8] rfl, decodeTableWord_eq_some trivial [0#8] rfl,
    decodeTableWord_eq_some trivial [0#8] rfl, decodeTableWord_eq_some trivial [] rfl,
    decodeTableWord_eq_some trivial [] rfl, decodeTableWord_eq_some trivial [] rfl,
    decodeTableWord_eq_some trivial [] rfl, decodeTableWord_eq_some trivial [] rfl,
    decodeTableWord_eq_some trivial [0#8] rfl, decodeTableWord_eq_some trivial [0#8, 0#8] rfl,
    decodeTableWord_eq_some trivial [0#8, 0#8] rfl, decodeTableWord_eq_some trivial [0#8, 0#8] rfl,
    decodeTableWord_eq_some (i := .unrecognized 0x02#8) rfl [0#8, 0#8] rfl⟩

/-- Settles O4: the listed ranges are the gaps between the twelve numbers. -/
theorem unrecognizedBytesAreTheListedOnes : Obligations.UnrecognizedBytesAreTheListedOnes := by
  intro b
  have hb := b.isLt
  rw [opcodeOf_eq_none_iff_toNat]
  simp only [List.forall_mem_cons, List.not_mem_nil, false_implies, implies_true, and_true]
  omega

/-- Settles O29: the instruction at `IP` is the one the bytes decode to. -/
theorem stepRunsTheDecodedInstruction : Obligations.StepRunsTheDecodedInstruction :=
  fun _ _ _ hf hs hd => step_fetch hf hs (decodeInstr_of_decode hd)

end Sys2Proof.Proofs
end

section
/-! SUPPORT. The family of 40_pipeline.md: where the ticks of a step end, HALTED, the arms of the absolute DECODE, and
what the ticks of one instruction keep in a machine that nothing disturbs. -/

namespace Sys2Proof.Machine

/-! ## Where the ticks of a step end -/

/-- Ticks that pause, no fault standing before, pause because the clock is not armed and no move is left to arm it. -/
theorem runToBoundary_paused (n : Nat) (s t : State) (hf : s.FAULT = none)
    (h : runToBoundary processorPulse n s = .paused t) : t.ARMED = false ∧ t.ENV = [] := by
  induction n generalizing s with
  | zero => cases h
  | succ n ih =>
    rw [runToBoundary] at h
    cases hk : tickAround processorPulse s with
    | ran u =>
      rw [hk, TickResult.andThen_ran] at h
      split at h
      · cases h
      · obtain ⟨-, -, hfu, -⟩ := tick_move s u hk
        exact ih u hfu h
    | paused u =>
      rw [hk] at h
      obtain rfl := TickResult.paused.inj h
      obtain ⟨rfl, ha | hne⟩ := tickAround_paused _ s _ hk
      · exact ⟨ha, beforeTick_spent s ha⟩
      · exact absurd hf hne
    | raised r u => rw [hk] at h; cases h

/-! ## HALTED -/

theorem processorPulse_halted {s : State} (h : s.STEP = .halted) : processorPulse s = .done s := if_pos h

/-- In HALTED a tick is the environment's moves, the controller's pulse and the halt check, or it does not happen. -/
theorem tick_halted {s : State} (h : s.STEP = .halted) :
    tick s = .ran (afterProcessor (beforeTick s)) ∨ tick s = .paused (beforeTick s) := by
  have hpulse : processorPulse (beforeTick s) = .done (beforeTick s) := processorPulse_halted (by simpa using h)
  unfold tick
  rcases tickAround_cases processorPulse s with ⟨s', -, -, hp, he⟩ | ⟨r, s', -, -, hp, -⟩ | ⟨-, he⟩
  · obtain rfl := Pulse.done.inj (hpulse.symm.trans hp)
    exact .inl he
  · rw [hpulse] at hp
    cases hp
  · exact .inr he

/-! ## The arms of the absolute DECODE -/

theorem absoluteStage_misused {next : ByteSource} {c : CoreState}
    (h : (c.SUB = 0 ∧ c.STASH ≠ none) ∨ (c.SUB = 1 ∧ c.STASH = none)) :
    absoluteStage next c = .raised .protocolMisuse c := by
  unfold absoluteStage
  rcases h with ⟨hs, ht⟩ | ⟨hs, ht⟩
  · rw [if_pos hs, if_pos ht]
  · rw [if_neg (by simp [hs]), if_pos hs, if_pos ht]

theorem absoluteStage_low {next : ByteSource} {c : CoreState} (hs : c.SUB = 0) (ht : c.STASH = none) :
    absoluteStage next c = (next c).bind fun b c => .ok [] { (tuCombine b c).2 with SUB := 1 } := by
  unfold absoluteStage
  rw [if_pos hs, if_neg (by simp [ht])]

theorem absoluteStage_high {next : ByteSource} {c : CoreState} (hs : c.SUB = 1) (ht : c.STASH ≠ none) :
    absoluteStage next c = (next c).bind fun b c => .ok [] { (tuCombine b c).2 with SUB := 0, STEP := .execute } := by
  unfold absoluteStage
  rw [if_neg (by simp [hs]), if_pos hs, if_neg ht]

theorem absoluteStage_unexpected {next : ByteSource} {c : CoreState} (h0 : c.SUB ≠ 0) (h1 : c.SUB ≠ 1) :
    absoluteStage next c = unexpectedStage c := by
  unfold absoluteStage
  rw [if_neg h0, if_neg h1]

/-! ## What the ticks of an instruction respect -/

/-- A tick around `pulse` that runs or pauses leads to a related state. -/
def TickKeeps (R : State → State → Prop) (pulse : State → Pulse) : Prop :=
  ∀ s t, (tickAround pulse s).toOutcome = .next t → R s t

/-- The handlers whose ticks an instruction's meaning is; SYS may repeat its last. -/
def handlersOf : Instr → List Handler
  | .ldaImm imm => directTicks .ldaImm ++ [ldaImmStage (deliverByte imm)]
  | .ldxImm imm => directTicks .ldxImm ++ [ldxImmStage (deliverByte imm)]
  | .ldyImm imm => directTicks .ldyImm ++ [ldyImmStage (deliverByte imm)]
  | .ldaAbs addr => absoluteTicks .ldaAbs addr ++ [ldaAbsStage, ldaAbsStage]
  | .staAbs addr => absoluteTicks .staAbs addr ++ [staAbsStage, staAbsStage, writeStage]
  | .adcAbs addr => absoluteTicks .adcAbs addr ++ [adcAbsStage]
  | .incAbs addr => absoluteTicks .incAbs addr ++ [incAbsStage, incAbsStage, writeStage]
  | .cpxAbs addr => absoluteTicks .cpxAbs addr ++ [cpxAbsStage, cpxAbsStage]
  | .bneRel rel => directTicks .bneRel ++ [bneRelStage (deliverByte rel)]
  | .nop => [fetchTick (opcodeByte .nop), nopStage]
  | .brk => directTicks .brk ++ [brkStage]
  | .sys => directTicks .sys ++ [sysStage]
  | .unrecognized op => [fetchTick op, unrecognizedStage]

/-- What answers next after a tick: the tick ran and the rest answers next, or the tick paused. -/
theorem TickResult.andThen_eq_next {r : TickResult} {f : State → TickResult} {t : State}
    (h : (r.andThen f).toOutcome = .next t) :
    (∃ u, r = .ran u ∧ (f u).toOutcome = .next t) ∨ r = .paused t := by
  cases r with
  | ran u => exact .inl ⟨u, rfl, h⟩
  | paused u => exact .inr (by rw [Host.Outcome.next.inj h])
  | raised r u => cases h

section Respects

variable {R : State → State → Prop} (refl : ∀ s, R s s) (trans : ∀ a b c, R a b → R b c → R a c)
include refl trans

theorem runStages_respects {hs : List Handler} (keeps : ∀ h ∈ hs, TickKeeps R (pulseWith h)) {s t : State}
    (h : (runStages hs s).toOutcome = .next t) : R s t := by
  induction hs generalizing s with
  | nil =>
    obtain rfl := Host.Outcome.next.inj h
    exact refl s
  | cons k hs ih =>
    obtain ⟨hk, hks⟩ := List.forall_mem_cons.1 keeps
    rw [runStages_cons] at h
    rcases TickResult.andThen_eq_next h with ⟨u, hu, h⟩ | hp
    · exact trans _ _ _ (hk s u (by rw [hu]; rfl)) (ih hks h)
    · exact hk s t (by rw [hp]; rfl)

theorem runToBoundary_respects {pulse : State → Pulse} (keeps : TickKeeps R pulse) {n : Nat} {s t : State}
    (h : (runToBoundary pulse n s).toOutcome = .next t) : R s t := by
  induction n generalizing s with
  | zero =>
    obtain rfl := Host.Outcome.next.inj h
    exact refl s
  | succ n ih =>
    rw [runToBoundary] at h
    rcases TickResult.andThen_eq_next h with ⟨u, hu, h⟩ | hp
    · have hsu : R s u := keeps s u (by rw [hu]; rfl)
      split at h
      · obtain rfl := Host.Outcome.next.inj h
        exact hsu
      · exact trans _ _ _ hsu (ih h)
    · exact keeps s t (by rw [hp]; rfl)

/-- A relation that the tick of every handler of an instruction respects holds across its meaning. -/
theorem exec_respects {i : Instr} (keeps : ∀ h ∈ handlersOf i, TickKeeps R (pulseWith h)) {s t : State}
    (h : exec i s = .next t) : R s t := by
  cases i with
  | sys =>
    obtain ⟨hdirect, hsys⟩ := List.forall_mem_append.1 keeps
    rcases TickResult.andThen_eq_next h with ⟨u, hu, h⟩ | hp
    · exact trans _ _ _ (runStages_respects refl trans hdirect (by rw [hu]; rfl))
        (runToBoundary_respects refl trans (hsys _ (List.mem_singleton_self _)) h)
    · exact runStages_respects refl trans hdirect (by rw [hp]; rfl)
  | _ => exact runStages_respects refl trans keeps h

end Respects

/-! ## The halt flag through an instruction -/

/-- The handler leaves the halt flag as it is. -/
def KeepsHalt (h : Handler) : Prop := ∀ c es c', h c = .ok es c' → c'.HALT = c.HALT

theorem KeepsHalt.of_ok {es : CoreState → List Event} {f : CoreState → CoreState} (hf : ∀ c, (f c).HALT = c.HALT) :
    KeepsHalt fun c => .ok (es c) (f c) := by
  intro c es' c' h
  obtain ⟨-, rfl⟩ := Res.ok.inj h
  exact hf c

theorem KeepsHalt.of_deliver {b : Byte} {f : Byte → CoreState → CoreState} (hf : ∀ v c, (f v c).HALT = c.HALT) :
    KeepsHalt fun c => (deliverByte b c).bind fun v c => .ok [] (f v c) := by
  intro c es c' h
  obtain ⟨-, rfl⟩ := Res.ok.inj (deliverByte_bind_ok h)
  exact hf b _

theorem KeepsHalt.of_read {f : Byte → CoreState → CoreState} (hf : ∀ v c, (f v c).HALT = c.HALT) :
    KeepsHalt fun c => (tuReadByte c).bind fun v c => .ok [] (f v c) := by
  intro c es c' h
  obtain ⟨-, h⟩ := tuReadByte_bind_ok c _ es c' h
  obtain ⟨-, rfl⟩ := Res.ok.inj h
  exact hf _ _

theorem KeepsHalt.twoTick {first second : Handler} (h1 : KeepsHalt first) (h2 : KeepsHalt second) :
    KeepsHalt (twoTickStage first second) := by
  intro c es c' h
  rcases twoTickStage_cases first second c with ⟨-, e⟩ | ⟨-, e⟩ | ⟨-, -, e⟩ <;> rw [e] at h
  · exact h1 c es c' h
  · exact h2 c es c' h
  · obtain ⟨-, rfl⟩ := Res.ok.inj h
    rfl

theorem firstReadStage_keepsHalt : KeepsHalt firstReadStage := .of_read fun _ _ => rfl

theorem tuCombine_HALT (b : Byte) (c : CoreState) : (tuCombine b c).2.HALT = c.HALT := by
  unfold tuCombine
  split <;> rfl

theorem absoluteStage_keepsHalt (b : Byte) : KeepsHalt (absoluteStage (deliverByte b)) := by
  intro c es c' h
  unfold absoluteStage at h
  split_ifs at h
  · obtain ⟨-, rfl⟩ := Res.ok.inj (deliverByte_bind_ok h)
    exact tuCombine_HALT b _
  · obtain ⟨-, rfl⟩ := Res.ok.inj (deliverByte_bind_ok h)
    exact tuCombine_HALT b _
  · obtain ⟨-, rfl⟩ := Res.ok.inj h
    rfl

theorem writeStage_keepsHalt : KeepsHalt writeStage := by
  intro c es c' h
  by_cases hr : InRange c.AR
  · rw [writeStage, tuWriteByte_ok c hr] at h
    obtain ⟨-, rfl⟩ := Res.ok.inj h
    rfl
  · rw [writeStage, tuWriteByte_raised c hr] at h
    cases h

theorem sysStage_keepsHalt : KeepsHalt sysStage := by
  refine .twoTick (fun c es c' h => ?_) (fun c es c' h => ?_)
  · split_ifs at h <;> obtain ⟨-, rfl⟩ := Res.ok.inj h <;> rfl
  · obtain ⟨-, h⟩ := fetchByte_bind_ok c _ es c' h
    split_ifs at h <;> obtain ⟨-, rfl⟩ := Res.ok.inj h <;> rfl

theorem fetchTick_keepsHalt (op : Byte) : KeepsHalt (fetchTick op) := .of_deliver fun _ _ => rfl

theorem directTicks_keepHalt (op : Opcode) : ∀ h ∈ directTicks op, KeepsHalt h :=
  List.forall_mem_cons.2 ⟨fetchTick_keepsHalt _, List.forall_mem_singleton.2 (.of_ok fun _ => rfl)⟩

theorem absoluteTicks_keepHalt (op : Opcode) (a : Addr) : ∀ h ∈ absoluteTicks op a, KeepsHalt h :=
  List.forall_mem_cons.2 ⟨fetchTick_keepsHalt _, List.forall_mem_cons.2 ⟨absoluteStage_keepsHalt _,
    List.forall_mem_singleton.2 (absoluteStage_keepsHalt _)⟩⟩

/-- Only BRK's last handler writes the halt flag (10_state.md R20). -/
theorem handlersOf_keepHalt {i : Instr} (hi : i ≠ .brk) : ∀ h ∈ handlersOf i, KeepsHalt h := by
  have direct : ∀ {op h}, KeepsHalt h → ∀ k ∈ directTicks op ++ [h], KeepsHalt k := fun hk =>
    List.forall_mem_append.2 ⟨directTicks_keepHalt _, List.forall_mem_singleton.2 hk⟩
  have absolute : ∀ {op a hs}, (∀ k ∈ hs, KeepsHalt k) → ∀ k ∈ absoluteTicks op a ++ hs, KeepsHalt k := fun hk =>
    List.forall_mem_append.2 ⟨absoluteTicks_keepHalt _ _, hk⟩
  have lda : KeepsHalt ldaAbsStage := firstReadStage_keepsHalt.twoTick (.of_read fun _ _ => rfl)
  have cpx : KeepsHalt cpxAbsStage := firstReadStage_keepsHalt.twoTick (.of_read fun _ _ => rfl)
  have inc : KeepsHalt incAbsStage := firstReadStage_keepsHalt.twoTick (.of_read fun _ _ => rfl)
  have sta : KeepsHalt staAbsStage := .twoTick (.of_ok fun _ => rfl) (.of_ok fun _ => rfl)
  cases i with
  | ldaImm imm | ldxImm imm | ldyImm imm | bneRel imm => exact direct (.of_deliver fun _ _ => rfl)
  | ldaAbs addr => exact absolute (by simp [lda])
  | cpxAbs addr => exact absolute (by simp [cpx])
  | staAbs addr => exact absolute (by simp [sta, writeStage_keepsHalt])
  | incAbs addr => exact absolute (by simp [inc, writeStage_keepsHalt])
  | adcAbs addr => exact absolute (List.forall_mem_singleton.2 (.of_read fun _ _ => rfl))
  | sys => exact direct sysStage_keepsHalt
  | nop | unrecognized op =>
    exact List.forall_mem_cons.2 ⟨fetchTick_keepsHalt _, List.forall_mem_singleton.2 (.of_ok fun _ => rfl)⟩
  | brk => exact absurd rfl hi

theorem KeepsHalt.tickKeeps {h : Handler} (hh : KeepsHalt h) :
    TickKeeps (fun s t => t.HALT = s.HALT) (pulseWith h) := by
  intro s t ht
  rcases (TickResult.toOutcome_eq_next _ t).1 ht with hran | hpaused
  · obtain ⟨es, he, -⟩ := tickAround_pulseWith_ran h s t hran
    exact hh _ es _ he
  · obtain ⟨rfl, -⟩ := tickAround_paused _ s t hpaused
    rw [beforeTick_toCoreState]

theorem exec_keeps_halt {i : Instr} (hi : i ≠ .brk) {s t : State} (h : exec i s = .next t) : t.HALT = s.HALT :=
  exec_respects (R := fun s t => t.HALT = s.HALT) (fun _ => rfl) (fun _ _ _ hab hbc => hbc.trans hab)
    (fun k hk => (handlersOf_keepHalt hi k hk).tickKeeps) h

/-! ## A machine that nothing disturbs -/

/-- From a quiet state whose clock runs just while it has not halted, the other is such a state, the registry the same. -/
def KeepsQuiet (s t : State) : Prop :=
  s.Quiet → s.ARMED = !s.HALT → t.REG = s.REG ∧ t.Quiet ∧ t.ARMED = !t.HALT

theorem KeepsQuiet.refl (s : State) : KeepsQuiet s s := fun quiet ha => ⟨rfl, quiet, ha⟩

theorem KeepsQuiet.trans (a b c : State) (hab : KeepsQuiet a b) (hbc : KeepsQuiet b c) : KeepsQuiet a c := by
  intro quiet ha
  obtain ⟨hregb, quietb, hab⟩ := hab quiet ha
  obtain ⟨hregc, quietc, hac⟩ := hbc quietb hab
  exact ⟨hregc.trans hregb, quietc, hac⟩

/-- With an empty buffer the controller delivers nothing. -/
theorem controllerPulse_of_noBuf {s : State} (h : s.BUF = []) : controllerPulse s = s := by
  simp [controllerPulse, h, scanOrder, scanLevels, takeFirst]

/-- The halt check leaves an armed clock running just while the processor has not halted. -/
theorem clockCheck_ARMED_of_armed {s : State} (h : s.ARMED = true) : (clockCheck s).ARMED = !s.HALT := by
  rw [clockCheck_ARMED, h]
  simp

/-- In a quiet machine only the halt check follows the processor's pulse. -/
theorem afterProcessor_of_quiet {s : State} (h : s.Quiet) : afterProcessor s = clockCheck s := by
  simp only [afterProcessor, storePulse_eq, boundary_of_env_nil s h.noEnv, controllerPulse_of_noBuf h.noBuf]

theorem pulseWith_eq_done {h : Handler} {s s' : State} (hp : pulseWith h s = .done s') :
    ∃ es c, s' = interruptCheck (emitAll es { s with toCoreState := c }) := by
  unfold pulseWith at hp
  split at hp
  · exact ⟨_, _, (Pulse.done.inj hp).symm⟩
  · cases hp

/-- Whatever its handler, a tick of a quiet machine keeps it quiet and stops the clock only at a halt. -/
theorem pulseWith_keepsQuiet (h : Handler) : TickKeeps KeepsQuiet (pulseWith h) := by
  intro s t ht quiet ha
  rcases tickAround_cases (pulseWith h) s with ⟨s', harm, -, hp, he⟩ | ⟨r, s', -, -, -, he⟩ | ⟨-, he⟩ <;> rw [he] at ht
  · obtain rfl := Host.Outcome.next.inj ht
    rw [beforeTick_of_env_nil s quiet.noEnv] at harm hp
    obtain ⟨es, c, rfl⟩ := pulseWith_eq_done hp
    have quiet' : (emitAll es { s with toCoreState := c }).Quiet := ⟨quiet.noPend, quiet.noBuf, quiet.noEnv⟩
    rw [interruptCheck_of_noPend _ quiet'.noPend, afterProcessor_of_quiet quiet']
    refine ⟨clockCheck_REG _, ⟨?_, ?_, ?_⟩, ?_⟩
    · rw [clockCheck_PEND, quiet'.noPend]
    · rw [clockCheck_BUF, quiet'.noBuf]
    · rw [clockCheck_ENV, quiet'.noEnv]
    · rw [clockCheck_ARMED_of_armed (by exact harm), clockCheck_toCoreState]
  · cases ht
  · obtain rfl := Host.Outcome.next.inj ht
    rw [beforeTick_of_env_nil s quiet.noEnv]
    exact KeepsQuiet.refl s quiet ha

theorem exec_keepsQuiet {i : Instr} {s t : State} (h : exec i s = .next t) : KeepsQuiet s t :=
  exec_respects KeepsQuiet.refl KeepsQuiet.trans (fun k _ => pulseWith_keepsQuiet k) h

end Sys2Proof.Machine
end

section
/-! The statements of 40_pipeline.md, settled. -/

namespace Sys2Proof.Proofs

open Sys2Proof.Machine

/-- Settles O30: an instruction's meaning is the run of its ticks, and any other step is so by definition. -/
theorem stepIsTheRunOfItsTicks : Obligations.StepIsTheRunOfItsTicks := step_eq_finishInstr

/-- Settles O33: the fuel outlasts the ticks to the boundary; a pause means an unarmed clock, a spent schedule. -/
theorem stepEndsAtABoundary : Obligations.StepEndsAtABoundary := by
  intro s t h
  obtain ⟨hf, hran | hpaused⟩ := step_eq_next h
  · exact .inl (runToBoundary_atBoundary _ s t (ticksLeft_le_fuel _) hran)
  · exact .inr (runToBoundary_paused _ s t hf hpaused)

/-- Settles O34: a step from HALTED is one tick without a processor pulse, or a pause. -/
theorem haltedCoreNeverChanges : Obligations.HaltedCoreNeverChanges := by
  intro s hs hf
  rw [step_eq_finishInstr s hf, finishInstr_eq_tick]
  rcases tick_halted hs with he | he <;> rw [he]
  · rw [TickResult.andThen_ran, resume_of_atBoundary (.inr (by simpa using hs))]
    exact ⟨_, rfl, by simp, by simp⟩
  · exact ⟨_, rfl, by simp, by simp⟩

/-- Settles O35, by the move that the handler made: it meets the condition of its own row and of no other. -/
theorem stageTransitionTable : Obligations.StageTransitionTable := by
  refine ⟨fun s hs => processorPulse_halted hs, fun c c' es he => ?_⟩
  have mv := stageHandler_move c es c' he
  clear he
  cases mv with
  | fetch h _ | write h _ _ | unexpectedWriteback h _ _ | halted h => simp [h]
  | direct h hd | nop h hd | unrecognized h hd => simp [h, hd]
  | low h hd hs _ _ => simp [h, hd, hs]
  | high _ h hd hs _ _ => simp [h, hd, hs]
  | unexpectedDecode h hd h0 h1 => simp [h, hd, h0, h1]
  | ldaImm h ho _ | ldxImm h ho _ | ldyImm h ho _ | bneRel h ho _ | adcAbs h ho _ | brk h ho => simp [h, ho]
  | firstRead h ho hs _ => rcases ho with ho | ho | ho <;> simp [h, ho, hs]
  | staStage h ho hs | staHand h ho hs => simp [h, ho, hs]
  | ldaAbs h ho hs _ | incAbs h ho hs _ | cpxAbs h ho hs _ => simp [h, ho, hs]
  | sysPrint h ho hs hx | sysStart h ho hs hx => simp [h, ho, hs, hx]
  | sysOther h ho hs _ hx => simp [h, ho, hs, hx]
  | sysByte h ho hs _ hb | sysEnd h ho hs _ hb => simp [h, ho, hs, hb]
  | unexpectedExecute h hu =>
    rcases hu with ho | ho | ⟨ho, h0, h1⟩
    · simp [h, ho]
    · simp [h, ho]
    · rcases ho with ho | ho | ho | ho | ho <;> simp [h, ho, h0, h1]

/-- Settles O43: every tick of a quiet machine keeps it quiet, and only BRK halts. -/
theorem quietInstructionsLeaveInterruptsAlone : Obligations.QuietInstructionsLeaveInterruptsAlone := by
  intro s t i running quiet h
  obtain ⟨hreg, quiet', harm⟩ := exec_keepsQuiet h quiet (by rw [running.armed, running.noHalt]; rfl)
  exact ⟨hreg, quiet', fun hi => by rw [harm, exec_keeps_halt hi h, running.noHalt]; rfl⟩

/-- Settles O11: the two outcomes of the range check at `IP`. -/
theorem fetchByteReadsAtIPAndAdvances : Obligations.FetchByteReadsAtIPAndAdvances :=
  fun c => ⟨fetchByte_ok c, fetchByte_raised c⟩

/-- Settles O36: the arm that `SUB` and the stash choose, and the fetch in it. -/
theorem absoluteDecodeCollectsTwoHalves : Obligations.AbsoluteDecodeCollectsTwoHalves := by
  refine fun c => ⟨fun hs ht => absoluteStage_misused (.inl ⟨hs, ht⟩), fun hs ht hr => ?low,
    fun hs ht => absoluteStage_misused (.inr ⟨hs, ht⟩), fun lo hs ht hr => ?high, fun hr h => ?outside,
    fun h0 h1 => absoluteStage_unexpected h0 h1⟩
  case low =>
    rw [absoluteStage_low hs ht, fetchByte_ok c hr, Res.bind_ok, tuCombine_first _ _ (by exact ht)]
  case high =>
    rw [absoluteStage_high hs (by simp [ht]), fetchByte_ok c hr, Res.bind_ok, tuCombine_second lo _ _ (by exact ht)]
    rfl
  case outside =>
    rcases h with ⟨hs, ht⟩ | ⟨hs, ht⟩
    · rw [absoluteStage_low hs ht, fetchByte_raised c hr, Res.bind_raised]
    · rw [absoluteStage_high hs ht, fetchByte_raised c hr, Res.bind_raised]

end Sys2Proof.Proofs
end

section
/-! SUPPORT. The family of 41_load_store.md: what each instruction leaves unchanged, and, for a running machine, how the
handlers of an instruction on the core alone give its answer and the cores its ticks leave. -/

namespace Sys2Proof.Machine

open Sys2Proof.Claims

/-! ## What an instruction leaves unchanged -/

/-- The handler leaves this part of the core as it is. -/
def Keeps {α : Type} (f : CoreState → α) (h : Handler) : Prop := ∀ c es c', h c = .ok es c' → f c' = f c

section Keeps

variable {α : Type} {f : CoreState → α}

theorem Keeps.comp {β : Type} {h : Handler} (hk : Keeps f h) (g : α → β) : Keeps (fun c => g (f c)) h :=
  fun c es c' hh => congrArg g (hk c es c' hh)

theorem Keeps.of_ok {es : CoreState → List Event} {g : CoreState → CoreState} (hg : ∀ c, f (g c) = f c) :
    Keeps f fun c => .ok (es c) (g c) := by
  intro c es' c' h
  obtain ⟨-, rfl⟩ := Res.ok.inj h
  exact hg c

theorem Keeps.of_deliver {b : Byte} {g : Byte → CoreState → CoreState}
    (hg : ∀ v c, f (g v { c with AR := c.IP, DR := v, IP := c.IP + 1 }) = f c) :
    Keeps f fun c => (deliverByte b c).bind fun v c => .ok [] (g v c) := by
  intro c es c' h
  obtain ⟨-, rfl⟩ := Res.ok.inj (deliverByte_bind_ok h)
  exact hg b c

theorem Keeps.of_read {g : Byte → CoreState → CoreState} (hg : ∀ v c, f (g v { c with DR := v }) = f c) :
    Keeps f fun c => (tuReadByte c).bind fun v c => .ok [] (g v c) := by
  intro c es c' h
  obtain ⟨-, h⟩ := tuReadByte_bind_ok c _ es c' h
  obtain ⟨-, rfl⟩ := Res.ok.inj h
  exact hg _ c

theorem Keeps.twoTick {first second : Handler} (hu : ∀ c, f { c with SUB := 0, STEP := .fetch } = f c)
    (h1 : Keeps f first) (h2 : Keeps f second) : Keeps f (twoTickStage first second) := by
  intro c es c' h
  rcases twoTickStage_cases first second c with ⟨-, e⟩ | ⟨-, e⟩ | ⟨-, -, e⟩ <;> rw [e] at h
  · exact h1 c es c' h
  · exact h2 c es c' h
  · obtain ⟨-, rfl⟩ := Res.ok.inj h
    exact hu c

/-- What the tick of a handler keeps of the core, whatever the rest of the tick does. -/
theorem Keeps.tickKeeps {h : Handler} (hk : Keeps f h) :
    TickKeeps (fun s t => f t.toCoreState = f s.toCoreState) (pulseWith h) := by
  intro s t ht
  rcases (TickResult.toOutcome_eq_next _ t).1 ht with hran | hpaused
  · obtain ⟨es, he, -⟩ := tickAround_pulseWith_ran h s t hran
    exact hk _ es _ he
  · obtain ⟨rfl, -⟩ := tickAround_paused _ s t hpaused
    rw [beforeTick_toCoreState]

theorem runStages_keeps_eq {hs : List Handler} (hk : ∀ h ∈ hs, Keeps f h) {s t : State}
    (h : (runStages hs s).toOutcome = .next t) : f t.toCoreState = f s.toCoreState :=
  runStages_respects (R := fun s t => f t.toCoreState = f s.toCoreState) (fun _ => rfl)
    (fun _ _ _ hab hbc => hbc.trans hab) (fun k hm => (hk k hm).tickKeeps) h

theorem exec_keeps_eq {i : Instr} (hk : ∀ h ∈ handlersOf i, Keeps f h) {s t : State} (h : exec i s = .next t) :
    f t.toCoreState = f s.toCoreState :=
  exec_respects (R := fun s t => f t.toCoreState = f s.toCoreState) (fun _ => rfl)
    (fun _ _ _ hab hbc => hbc.trans hab) (fun k hm => (hk k hm).tickKeeps) h

end Keeps

/-- The core with the pipeline's own registers blanked. -/
def sansPipeline (c : CoreState) : CoreState :=
  { c with IP := 0, IR := 0#8, AR := 0, DR := 0#8, STEP := .fetch, SUB := 0, STASH := none }

/-- Blank what the instruction's rule writes outside the pipeline's registers (41_load_store.md,
42_arithmetic_compare.md, 43_control.md, 44_system.md). -/
def blankWritten : Instr → CoreState → CoreState
  | .ldaImm _, c | .ldaAbs _, c | .adcAbs _, c => { c with A := 0#8 }
  | .ldxImm _, c => { c with X := 0#8 }
  | .ldyImm _, c => { c with Y := 0#8 }
  | .staAbs _, c | .incAbs _, c => { c with M := [], STAGED := 0#8 }
  | .cpxAbs _, c => { c with CF := 0 }
  | .brk, c => { c with HALT := false }
  | .sys, c => { c with SIP := 0 }
  | .bneRel _, c | .nop, c | .unrecognized _, c => c

/-- What the instruction leaves unchanged, the cells of STA and INC apart. -/
def frameOf (i : Instr) (c : CoreState) : CoreState := blankWritten i (sansPipeline c)

section FrameFields

variable {i : Instr}

theorem frameOf_M (hsta : ∀ a, i ≠ .staAbs a) (hinc : ∀ a, i ≠ .incAbs a) (c : CoreState) : (frameOf i c).M = c.M := by
  cases i with
  | staAbs a => exact absurd rfl (hsta a)
  | incAbs a => exact absurd rfl (hinc a)
  | _ => rfl

theorem frameOf_STAGED (hsta : ∀ a, i ≠ .staAbs a) (hinc : ∀ a, i ≠ .incAbs a) (c : CoreState) :
    (frameOf i c).STAGED = c.STAGED := by
  cases i with
  | staAbs a => exact absurd rfl (hsta a)
  | incAbs a => exact absurd rfl (hinc a)
  | _ => rfl

theorem frameOf_A (himm : ∀ b, i ≠ .ldaImm b) (habs : ∀ a, i ≠ .ldaAbs a) (hadc : ∀ a, i ≠ .adcAbs a) (c : CoreState) :
    (frameOf i c).A = c.A := by
  cases i with
  | ldaImm b => exact absurd rfl (himm b)
  | ldaAbs a => exact absurd rfl (habs a)
  | adcAbs a => exact absurd rfl (hadc a)
  | _ => rfl

theorem frameOf_X (h : ∀ b, i ≠ .ldxImm b) (c : CoreState) : (frameOf i c).X = c.X := by
  cases i with
  | ldxImm b => exact absurd rfl (h b)
  | _ => rfl

theorem frameOf_Y (h : ∀ b, i ≠ .ldyImm b) (c : CoreState) : (frameOf i c).Y = c.Y := by
  cases i with
  | ldyImm b => exact absurd rfl (h b)
  | _ => rfl

theorem frameOf_CF (h : ∀ a, i ≠ .cpxAbs a) (c : CoreState) : (frameOf i c).CF = c.CF := by
  cases i with
  | cpxAbs a => exact absurd rfl (h a)
  | _ => rfl

theorem frameOf_SIP (h : i ≠ .sys) (c : CoreState) : (frameOf i c).SIP = c.SIP := by
  cases i with
  | sys => exact absurd rfl h
  | _ => rfl

end FrameFields

theorem fetchTick_keeps (op : Byte) : Keeps sansPipeline (fetchTick op) := .of_deliver fun _ _ => rfl

theorem sansPipeline_tuCombine (b : Byte) (c : CoreState) : sansPipeline (tuCombine b c).2 = sansPipeline c := by
  unfold tuCombine
  split <;> rfl

theorem absoluteStage_keeps (b : Byte) : Keeps sansPipeline (absoluteStage (deliverByte b)) := by
  intro c es c' h
  unfold absoluteStage at h
  split_ifs at h
  · obtain ⟨-, rfl⟩ := Res.ok.inj (deliverByte_bind_ok h)
    exact sansPipeline_tuCombine b _
  · obtain ⟨-, rfl⟩ := Res.ok.inj (deliverByte_bind_ok h)
    exact sansPipeline_tuCombine b _
  · obtain ⟨-, rfl⟩ := Res.ok.inj h
    rfl

theorem directTicks_keep (op : Opcode) : ∀ h ∈ directTicks op, Keeps sansPipeline h :=
  List.forall_mem_cons.2 ⟨fetchTick_keeps _, List.forall_mem_singleton.2 (.of_ok fun _ => rfl)⟩

theorem absoluteTicks_keep (op : Opcode) (a : Addr) : ∀ h ∈ absoluteTicks op a, Keeps sansPipeline h :=
  List.forall_mem_cons.2 ⟨fetchTick_keeps _, List.forall_mem_cons.2 ⟨absoluteStage_keeps _,
    List.forall_mem_singleton.2 (absoluteStage_keeps _)⟩⟩

theorem firstReadStage_keeps : Keeps sansPipeline firstReadStage := .of_read fun _ _ => rfl

/-- A write of the store changes cells and data register only. -/
theorem writeStage_keeps {α : Type} {f : CoreState → α}
    (hf : ∀ c b m, f { c with DR := b, M := m, STEP := .fetch } = f c) : Keeps f writeStage := by
  intro c es c' h
  by_cases hr : InRange c.AR
  · rw [writeStage, tuWriteByte_ok c hr] at h
    obtain ⟨-, rfl⟩ := Res.ok.inj h
    exact hf c _ _
  · rw [writeStage, tuWriteByte_raised c hr] at h
    cases h

theorem sysStage_keeps : Keeps (frameOf .sys) sysStage := by
  refine .twoTick (fun _ => rfl) (fun c es c' h => ?_) (fun c es c' h => ?_)
  · split_ifs at h <;> obtain ⟨-, rfl⟩ := Res.ok.inj h <;> rfl
  · obtain ⟨-, h⟩ := fetchByte_bind_ok c _ es c' h
    split_ifs at h <;> obtain ⟨-, rfl⟩ := Res.ok.inj h <;> rfl

theorem handlersOf_keep_frame (i : Instr) : ∀ h ∈ handlersOf i, Keeps (frameOf i) h := by
  have common : ∀ {hs : List Handler}, (∀ h ∈ hs, Keeps sansPipeline h) → ∀ h ∈ hs, Keeps (frameOf i) h :=
    fun hs h hm => (hs h hm).comp (blankWritten i)
  have direct : ∀ {op h}, Keeps (frameOf i) h → ∀ k ∈ directTicks op ++ [h], Keeps (frameOf i) k := fun hk =>
    List.forall_mem_append.2 ⟨common (directTicks_keep _), List.forall_mem_singleton.2 hk⟩
  have absolute : ∀ {op a hs}, (∀ k ∈ hs, Keeps (frameOf i) k) → ∀ k ∈ absoluteTicks op a ++ hs, Keeps (frameOf i) k :=
    fun hk => List.forall_mem_append.2 ⟨common (absoluteTicks_keep _ _), hk⟩
  have read : Keeps (frameOf i) firstReadStage := firstReadStage_keeps.comp (blankWritten i)
  cases i with
  | ldaImm imm | ldxImm imm | ldyImm imm | bneRel imm => exact direct (.of_deliver fun _ _ => rfl)
  | ldaAbs addr =>
    have lda : Keeps (frameOf (.ldaAbs addr)) ldaAbsStage := .twoTick (fun _ => rfl) read (.of_read fun _ _ => rfl)
    exact absolute (by simp [lda])
  | cpxAbs addr =>
    have cpx : Keeps (frameOf (.cpxAbs addr)) cpxAbsStage := .twoTick (fun _ => rfl) read (.of_read fun _ _ => rfl)
    exact absolute (by simp [cpx])
  | staAbs addr =>
    have sta : Keeps (frameOf (.staAbs addr)) staAbsStage :=
      .twoTick (fun _ => rfl) (.of_ok fun _ => rfl) (.of_ok fun _ => rfl)
    have write : Keeps (frameOf (.staAbs addr)) writeStage := writeStage_keeps fun _ _ _ => rfl
    exact absolute (by simp [sta, write])
  | incAbs addr =>
    have inc : Keeps (frameOf (.incAbs addr)) incAbsStage := .twoTick (fun _ => rfl) read (.of_read fun _ _ => rfl)
    have write : Keeps (frameOf (.incAbs addr)) writeStage := writeStage_keeps fun _ _ _ => rfl
    exact absolute (by simp [inc, write])
  | adcAbs addr => exact absolute (List.forall_mem_singleton.2 (.of_read fun _ _ => rfl))
  | sys => exact direct sysStage_keeps
  | nop | unrecognized op =>
    exact List.forall_mem_cons.2 ⟨(fetchTick_keeps _).comp _, List.forall_mem_singleton.2 (.of_ok fun _ => rfl)⟩
  | brk => exact direct (.of_ok fun _ => rfl)

/-- In every state, whatever the environment does, an instruction keeps its frame. -/
theorem exec_keeps_frame {i : Instr} {s t : State} (h : exec i s = .next t) :
    frameOf i t.toCoreState = frameOf i s.toCoreState :=
  exec_keeps_eq (handlersOf_keep_frame i) h

/-! ## The common ticks of an instruction, on the core alone -/

theorem fetchTick_ok {op : Byte} {c : CoreState} (h : InRange c.IP) : fetchTick op c = .ok [] (afterFetch op c) := by
  rw [fetchTick, fetchStage, deliverByte_ok _ _ h]
  rfl

theorem fetchTick_raised {op : Byte} {c : CoreState} (h : ¬ InRange c.IP) :
    fetchTick op c = .raised (.addressOutOfRange c.IP) { c with AR := c.IP } := by
  rw [fetchTick, fetchStage, deliverByte_raised _ _ h]
  rfl

theorem lowTick_ok {op : Byte} {a : Addr} {c : CoreState} (ht : c.STASH = none) (h : InRange (c.IP + 1)) :
    absoluteStage (deliverByte (addrLo a)) (afterFetch op c) = .ok [] (afterLow op a c) := by
  rw [absoluteStage_low (c := afterFetch op c) rfl ht, deliverByte_ok _ _ h, Res.bind_ok,
    tuCombine_first _ _ (by exact ht)]
  simp only [afterLow, afterFetch, Int.add_assoc, Int.reduceAdd]

theorem lowTick_raised {op : Byte} {a : Addr} {c : CoreState} (ht : c.STASH = none) (h : ¬ InRange (c.IP + 1)) :
    absoluteStage (deliverByte (addrLo a)) (afterFetch op c) =
      .raised (.addressOutOfRange (c.IP + 1)) { afterFetch op c with AR := c.IP + 1 } := by
  rw [absoluteStage_low (c := afterFetch op c) rfl ht, deliverByte_raised _ _ h]
  rfl

theorem highTick_ok {op : Byte} {a : Addr} {c : CoreState} (h : InRange (c.IP + 2)) :
    absoluteStage (deliverByte (addrHi a)) (afterLow op a c) = .ok [] (afterHigh op a c) := by
  rw [absoluteStage_high rfl (by simp [afterLow]), deliverByte_ok _ _ h, Res.bind_ok,
    tuCombine_second (addrLo a) _ _ rfl, combineBytes_addr]
  simp only [afterHigh, afterLow, afterFetch, Int.add_assoc, Int.reduceAdd]

theorem highTick_raised {op : Byte} {a : Addr} {c : CoreState} (h : ¬ InRange (c.IP + 2)) :
    absoluteStage (deliverByte (addrHi a)) (afterLow op a c) =
      .raised (.addressOutOfRange (c.IP + 2)) { afterLow op a c with AR := c.IP + 2 } := by
  rw [absoluteStage_high rfl (by simp [afterLow]), deliverByte_raised _ _ h]
  rfl

/-! ## Handler lists on the core alone -/

theorem coreRun_cons_silent {h : Handler} {hs : List Handler} {c c' : CoreState} (hh : h c = .ok [] c') :
    coreRun (h :: hs) c = coreRun hs c' := by
  rw [coreRun, hh, Res.bind_ok]
  cases coreRun hs c' <;> rfl

theorem coreRun_cons_raised {h : Handler} {hs : List Handler} {c c' : CoreState} {r : FaultReason}
    (hh : h c = .raised r c') : coreRun (h :: hs) c = .raised r c' := by
  rw [coreRun, hh, Res.bind_raised]

/-- Ticks that ran took the core where the handlers alone take it, whatever the environment did. -/
theorem coreRun_of_ran {hs : List Handler} {s t : State} (h : runStages hs s = .ran t) :
    ∃ es, coreRun hs s.toCoreState = .ok es t.toCoreState := by
  induction hs generalizing s with
  | nil =>
    obtain rfl := TickResult.ran.inj h
    exact ⟨[], rfl⟩
  | cons k hs ih =>
    rw [runStages_cons] at h
    cases hk : tickAround (pulseWith k) s with
    | ran u =>
      rw [hk] at h
      obtain ⟨e1, h1, -⟩ := tickAround_pulseWith_ran k s u hk
      obtain ⟨e2, h2⟩ := ih h
      exact ⟨e1 ++ e2, by rw [coreRun, h1, Res.bind_ok, h2, Res.bind_ok]⟩
    | paused u => rw [hk] at h; cases h
    | raised r u => rw [hk] at h; cases h

theorem coreRun_directTicks {op : Opcode} {hs : List Handler} {c : CoreState} (h : InRange c.IP) :
    coreRun (directTicks op ++ hs) c = coreRun hs (afterDirect (opcodeByte op) c) :=
  (coreRun_cons_silent (fetchTick_ok h)).trans (coreRun_cons_silent rfl)

section Absolute

variable {op : Opcode} {a : Addr} {hs : List Handler} {c : CoreState}

theorem coreRun_absoluteTicks (ht : c.STASH = none) (h0 : InRange c.IP) (h1 : InRange (c.IP + 1))
    (h2 : InRange (c.IP + 2)) :
    coreRun (absoluteTicks op a ++ hs) c = coreRun hs (afterHigh (opcodeByte op) a c) :=
  calc coreRun (absoluteTicks op a ++ hs) c
    _ = coreRun (_ :: _ :: hs) (afterFetch (opcodeByte op) c) := coreRun_cons_silent (fetchTick_ok h0)
    _ = coreRun (_ :: hs) (afterLow (opcodeByte op) a c) := coreRun_cons_silent (lowTick_ok ht h1)
    _ = coreRun hs (afterHigh (opcodeByte op) a c) := coreRun_cons_silent (highTick_ok h2)

theorem coreRun_absoluteTicks_high_raised (ht : c.STASH = none) (h0 : InRange c.IP) (h1 : InRange (c.IP + 1))
    (h2 : ¬ InRange (c.IP + 2)) :
    coreRun (absoluteTicks op a ++ hs) c =
      .raised (.addressOutOfRange (c.IP + 2)) { afterLow (opcodeByte op) a c with AR := c.IP + 2 } :=
  calc coreRun (absoluteTicks op a ++ hs) c
    _ = coreRun (_ :: _ :: hs) (afterFetch (opcodeByte op) c) := coreRun_cons_silent (fetchTick_ok h0)
    _ = coreRun (_ :: hs) (afterLow (opcodeByte op) a c) := coreRun_cons_silent (lowTick_ok ht h1)
    _ = _ := coreRun_cons_raised (highTick_raised h2)

theorem coreRun_absoluteTicks_low_raised (ht : c.STASH = none) (h0 : InRange c.IP) (h1 : ¬ InRange (c.IP + 1)) :
    coreRun (absoluteTicks op a ++ hs) c =
      .raised (.addressOutOfRange (c.IP + 1)) { afterFetch (opcodeByte op) c with AR := c.IP + 1 } :=
  (coreRun_cons_silent (fetchTick_ok h0)).trans (coreRun_cons_raised (lowTick_raised ht h1))

/-- Where the ticks up to DECODE all end well, the address register holds the operand and the rest is DECODE's. -/
theorem coreRun_absoluteTicks_eq_ok {es : List Event} {c' : CoreState}
    (h : coreRun (absoluteTicks op a) c = .ok es c') : c' = afterHigh (opcodeByte op) a c := by
  rw [← List.append_nil (absoluteTicks op a)] at h
  by_cases h0 : InRange c.IP
  · by_cases ht : c.STASH = none
    · by_cases h1 : InRange (c.IP + 1)
      · by_cases h2 : InRange (c.IP + 2)
        · rw [coreRun_absoluteTicks ht h0 h1 h2] at h
          exact (Res.ok.inj h).2.symm
        · rw [coreRun_absoluteTicks_high_raised ht h0 h1 h2] at h
          cases h
      · rw [coreRun_absoluteTicks_low_raised ht h0 h1] at h
        cases h
    · have hm := absoluteStage_misused (next := deliverByte (addrLo a)) (c := afterFetch (opcodeByte op) c)
        (.inl ⟨rfl, ht⟩)
      rw [absoluteTicks, List.cons_append, List.cons_append, coreRun_cons_silent (fetchTick_ok h0),
        coreRun_cons_raised hm] at h
      cases h
  · rw [absoluteTicks, List.cons_append, coreRun_cons_raised (fetchTick_raised h0)] at h
    cases h

end Absolute

/-! ## The one cell that STA and INC write -/

/-- From a core whose address register holds `a`, the other holds it too and no cell but that one has changed. -/
def SparesOtherCells (a : Addr) (c c' : CoreState) : Prop :=
  c.AR = addrWord a → c'.AR = addrWord a ∧ ∀ k : Nat, (k : Int) ≠ addrWord a → c'.M.read k = c.M.read k

theorem SparesOtherCells.refl (a : Addr) (c : CoreState) : SparesOtherCells a c c := fun har => ⟨har, fun _ _ => rfl⟩

theorem SparesOtherCells.trans (a : Addr) (c d e : CoreState) (hcd : SparesOtherCells a c d)
    (hde : SparesOtherCells a d e) : SparesOtherCells a c e := by
  intro har
  obtain ⟨hard, hd⟩ := hcd har
  obtain ⟨hare, he⟩ := hde hard
  exact ⟨hare, fun k hk => (he k hk).trans (hd k hk)⟩

theorem Keeps.sparesOtherCells {h : Handler} (hk : Keeps (fun c => (c.AR, c.M)) h) (a : Addr) (c : CoreState)
    (es : List Event) (c' : CoreState) (hh : h c = .ok es c') : SparesOtherCells a c c' := by
  obtain ⟨har, hm⟩ := Prod.mk.inj (hk c es c' hh)
  exact fun ha => ⟨har.trans ha, fun k _ => by rw [hm]⟩

theorem staAbsStage_keepsCells : Keeps (fun c => (c.AR, c.M)) staAbsStage :=
  .twoTick (fun _ => rfl) (.of_ok fun _ => rfl) (.of_ok fun _ => rfl)

theorem incAbsStage_keepsCells : Keeps (fun c => (c.AR, c.M)) incAbsStage :=
  .twoTick (fun _ => rfl) (.of_read fun _ _ => rfl) (.of_read fun _ _ => rfl)

theorem writeStage_sparesOtherCells (a : Addr) (c : CoreState) (es : List Event) (c' : CoreState)
    (h : writeStage c = .ok es c') : SparesOtherCells a c c' := by
  intro har
  have hr : InRange c.AR := har ▸ addrWord_inRange a
  rw [writeStage, tuWriteByte_ok c hr] at h
  obtain ⟨-, rfl⟩ := Res.ok.inj h
  exact ⟨har, fun k hk => Memory.read_write_other _ _ _ _ (ne_toNat_of_ne hr (har.symm ▸ hk))⟩

/-- After the ticks up to DECODE, which change no cell, `stage` changes none either, and the write only the cell at the
operand. -/
theorem storing_sparesOtherCells {op : Opcode} {a : Addr} {stage : Handler} (hk : Keeps (fun c => (c.AR, c.M)) stage)
    {s t : State} (h : runInstr (absoluteTicks op a ++ [stage, stage, writeStage]) s = .next t) (k : Nat)
    (hne : (k : Int) ≠ addrWord a) : t.M.read k = s.M.read k := by
  have decode : ∀ {u : State}, (runStages (absoluteTicks op a) s).toOutcome = .next u → u.M = s.M := fun hu =>
    runStages_keeps_eq (fun h hm => (absoluteTicks_keep op a h hm).comp CoreState.M) hu
  rw [runInstr, runStages_append] at h
  rcases TickResult.andThen_eq_next h with ⟨u, hu, h⟩ | hp
  · have har : u.AR = addrWord a := by
      obtain ⟨es, hc⟩ := coreRun_of_ran hu
      rw [coreRun_absoluteTicks_eq_ok hc]
      rfl
    have spares : ∀ h ∈ [stage, stage, writeStage], ∀ c es c', h c = .ok es c' → SparesOtherCells a c c' := by
      simpa using ⟨hk.sparesOtherCells a, writeStage_sparesOtherCells a⟩
    obtain ⟨-, hcells⟩ := runStages_keeps (SparesOtherCells a) (.refl a) (.trans a) _ spares u t
      ((TickResult.toOutcome_eq_next _ t).1 h) har
    rw [hcells k hne, decode (by rw [hu]; rfl)]
  · rw [decode (by rw [hp]; rfl)]

/-! ## The answer of a running machine -/

theorem exec_eq_runStages {i : Instr} (hi : i ≠ .sys) (s : State) :
    exec i s = (runStages (handlersOf i) s).toOutcome := by
  cases i with
  | sys => exact absurd rfl hi
  | _ => rfl

theorem coreRunsOn_of_keepsHalt {hs : List Handler} {c : CoreState} (hk : ∀ h ∈ hs, KeepsHalt h) (hc : c.HALT = false) :
    coreRunsOn hs c := by
  induction hs generalizing c with
  | nil => trivial
  | cons k hs ih =>
    obtain ⟨hk, hks⟩ := List.forall_mem_cons.1 hk
    rw [coreRunsOn]
    split
    · rename_i es c' hh
      have hc' : c'.HALT = false := (hk c es c' hh).trans hc
      exact .inr ⟨hc', ih hks hc'⟩
    · trivial

theorem handlersOf_ne_nil (i : Instr) : handlersOf i ≠ [] := by
  cases i <;> exact List.cons_ne_nil _ _

/-- In a running machine an instruction's answer is what its handlers leave of the core, and the machine runs on. -/
theorem exec_running {i : Instr} (hbrk : i ≠ .brk) (hsys : i ≠ .sys) {s : State} (running : s.Running) {es : List Event}
    {c : CoreState} (h : coreRun (handlersOf i) s.toCoreState = .ok es c) :
    ∃ t, exec i s = .next t ∧ t.toCoreState = c ∧ t.programOut = s.programOut ++ es.filter Event.ofProgram ∧
      t.Running := by
  obtain ⟨t, ht, hcore, hout, hfault, hstop, harm⟩ := runStages_running (handlersOf i) s running es c
    (handlersOf_ne_nil i) (coreRunsOn_of_keepsHalt (handlersOf_keepHalt hbrk) running.noHalt) h
  have he : exec i s = .next t := by rw [exec_eq_runStages hsys, ht, TickResult.toOutcome_ran]
  have hhalt : t.HALT = false := (exec_keeps_halt hbrk he).trans running.noHalt
  exact ⟨t, he, hcore, hout, by rw [harm, ← hcore, hhalt]; rfl, hfault, hhalt, hstop⟩

theorem runStages_running_raised {hs : List Handler} (hk : ∀ h ∈ hs, KeepsHalt h) {s : State} (running : s.Running)
    {r : FaultReason} {c : CoreState} (h : coreRun hs s.toCoreState = .raised r c) :
    ∃ t, runStages hs s = .raised r t ∧ t.toCoreState = c ∧ t.FAULT = some r := by
  induction hs generalizing s with
  | nil => cases h
  | cons k hs ih =>
    obtain ⟨hk, hks⟩ := List.forall_mem_cons.1 hk
    rw [runStages_cons]
    rw [coreRun] at h
    cases hh : k s.toCoreState with
    | raised r' c' =>
      rw [hh] at h
      obtain ⟨rfl, rfl⟩ := Res.raised.inj h
      obtain ⟨t, ht, hcore, -, hfault⟩ := tickAround_running_raised k s running r' c' hh
      exact ⟨t, by rw [ht, TickResult.andThen_raised], hcore, hfault⟩
    | ok es c' =>
      rw [hh, Res.bind_ok] at h
      obtain ⟨u, hu, rfl, -, running'⟩ := tickAround_runs_on k s running es c' hh ((hk _ es c' hh).trans running.noHalt)
      rw [hu, TickResult.andThen_ran]
      refine ih hks running' ?_
      cases hq : coreRun hs u.toCoreState with
      | raised r' c' =>
        rw [hq] at h
        exact h
      | ok es' c' => rw [hq] at h; cases h

/-- In a running machine an instruction faults where its handlers raise, with the core as they left it. -/
theorem exec_running_raised {i : Instr} (hbrk : i ≠ .brk) (hsys : i ≠ .sys) {s : State} (running : s.Running)
    {r : FaultReason} {c : CoreState} (h : coreRun (handlersOf i) s.toCoreState = .raised r c) :
    ∃ t, exec i s = .fault (r.toFault t) ∧ t.toCoreState = c ∧ t.FAULT = some r := by
  obtain ⟨t, ht, hcore, hfault⟩ := runStages_running_raised (handlersOf_keepHalt hbrk) running h
  exact ⟨t, by rw [exec_eq_runStages hsys, ht, TickResult.toOutcome_raised], hcore, hfault⟩

/-! ## The cores that a running machine's ticks leave -/

/-- The machine's stage takes the first core, which has not halted, to the second. -/
structure StageTick (c c' : CoreState) : Prop where
  notHalted : c.STEP ≠ .halted
  noHalt : c.HALT = false
  stage : ∃ es, stageHandler c = .ok es c'

theorem traces_of_isChain {s : State} {cs : List CoreState} (running : s.Running)
    (h : (s.toCoreState :: cs).IsChain StageTick) : Traces s cs := by
  induction cs generalizing s with
  | nil => trivial
  | cons c cs ih =>
    obtain ⟨first, rest⟩ := List.isChain_cons_cons.1 h
    obtain ⟨es, hh⟩ := first.stage
    obtain ⟨t, ht, rfl, -, hfault, hstop, harm⟩ := tickAround_running stageHandler s running es c hh
    refine ⟨t, (tick_eq s first.notHalted).trans ht, rfl, ?_⟩
    cases cs with
    | nil => trivial
    | cons d ds =>
      have hhalt : t.HALT = false := (List.isChain_cons_cons.1 rest).1.noHalt
      exact ih ⟨by rw [harm, hhalt]; rfl, hfault, hhalt, hstop⟩ rest

theorem inRange_of_streamFrom {m : Memory} {bs : List Byte} {a : Int} (h : streamFrom m bs.length a = bs) {k : Nat}
    (hk : k < bs.length) : InRange (a + k) := by
  induction bs generalizing a k with
  | nil => cases hk
  | cons b bs ih =>
    rw [List.length_cons, streamFrom] at h
    split at h
    · rename_i hr
      cases k with
      | zero => simpa using hr
      | succ k =>
        have := ih (List.cons.inj h).2 (Nat.lt_of_succ_lt_succ hk)
        rwa [Int.add_assoc, Int.add_comm 1] at this
    · cases h

theorem bytesAt_of_fetchesBytes {s : State} {bs : List Byte} (h : FetchesBytes s bs) : BytesAt s.M s.IP bs :=
  bytesAt_of_streamFrom s.M bs [] bs.length s.IP (by rw [h.atIP, List.append_nil])

theorem stageHandler_fetch {op : Byte} {bs : List Byte} {c : CoreState} (hs : c.STEP = .fetch)
    (hb : BytesAt c.M c.IP (op :: bs)) : stageHandler c = fetchTick op c := by
  simp only [stageHandler, hs, fetchTick, fetchStage, fetchByte_eq_of_bytesAt hb]

theorem stageHandler_direct {c : CoreState} (hs : c.STEP = .decode) (hd : decodeClass c.IR = .direct) :
    stageHandler c = directStage c := by
  simp only [stageHandler, hs, decodeStage, hd]

theorem stageHandler_execute {c : CoreState} (hs : c.STEP = .execute) : stageHandler c = executeStage c := by
  simp only [stageHandler, hs]

section Traces

variable {op : Byte} {bs : List Byte} {s : State}

theorem stageTick_fetch (h : FetchesBytes s (op :: bs)) : StageTick s.toCoreState (afterFetch op s.toCoreState) where
  notHalted := by simp [h.atFetch]
  noHalt := h.running.noHalt
  stage := by
    have hr : InRange s.IP := by simpa using inRange_of_streamFrom h.atIP (Nat.succ_pos bs.length)
    exact ⟨[], by rw [stageHandler_fetch h.atFetch (bytesAt_of_fetchesBytes h), fetchTick_ok hr]⟩

/-- The first two ticks of a direct instruction (40_pipeline.md R91, R94). -/
theorem traces_direct (hd : decodeClass op = .direct) (h : FetchesBytes s (op :: bs)) {cs : List CoreState}
    (rest : (afterDirect op s.toCoreState :: cs).IsChain StageTick) :
    Traces s (afterFetch op s.toCoreState :: afterDirect op s.toCoreState :: cs) := by
  refine traces_of_isChain h.running (.cons_cons (stageTick_fetch h) (.cons_cons ?_ rest))
  exact ⟨by simp [afterFetch], h.running.noHalt, [], stageHandler_direct rfl hd⟩

/-- The first three ticks of an absolute instruction (40_pipeline.md R91, R93). -/
theorem traces_absolute {a : Addr} (hd : decodeClass op = .absolute) (ht : s.STASH = none)
    (h : FetchesBytes s [op, addrLo a, addrHi a]) {cs : List CoreState}
    (rest : (afterHigh op a s.toCoreState :: cs).IsChain StageTick) :
    Traces s (afterFetch op s.toCoreState :: afterLow op a s.toCoreState :: afterHigh op a s.toCoreState :: cs) := by
  obtain ⟨-, hlo, hhi, -⟩ := bytesAt_of_fetchesBytes h
  rw [Int.add_assoc] at hhi
  have low : Stands .decode 0 op [addrLo a] (afterFetch op s.toCoreState) := ⟨rfl, rfl, rfl, hlo, trivial⟩
  have high : Stands .decode 1 op [addrHi a] (afterLow op a s.toCoreState) := ⟨rfl, rfl, rfl, hhi, trivial⟩
  have h1 : InRange (s.IP + 1) := inRange_of_streamFrom h.atIP (k := 1) (by simp)
  have h2 : InRange (s.IP + 2) := inRange_of_streamFrom h.atIP (k := 2) (by simp)
  refine traces_of_isChain h.running (.cons_cons (stageTick_fetch h) (.cons_cons ?_ (.cons_cons ?_ rest)))
  · exact ⟨by simp [afterFetch], h.running.noHalt, [], by rw [stageHandler_absolute hd low, lowTick_ok ht h1]⟩
  · exact ⟨by simp [afterLow, afterFetch], h.running.noHalt, [], by rw [stageHandler_absolute hd high, highTick_ok h2]⟩

/-- A tick of EXECUTE. -/
theorem stageTick_execute {c c' : CoreState} {h : Handler} {es : List Event} (hs : c.STEP = .execute)
    (hhalt : c.HALT = false) (he : executeStage c = h c) (hh : h c = .ok es c') : StageTick c c' :=
  ⟨by simp [hs], hhalt, es, by rw [stageHandler_execute hs, he, hh]⟩

end Traces

/-! ## Instructions with one operand byte -/

/-- The stage that reads one byte of the instruction stream and then changes the core by `f`. -/
def operandStage (f : Byte → CoreState → CoreState) (next : ByteSource) : Handler := fun c =>
  (next c).bind fun v c => .ok [] (f v c)

/-- A direct instruction whose EXECUTE reads the operand byte and then changes the core by `f`. -/
structure OneOperand (i : Instr) (op : Opcode) (b : Byte) (f : Byte → CoreState → CoreState) : Prop where
  notBrk : i ≠ .brk
  notSys : i ≠ .sys
  direct : decodeClass (opcodeByte op) = .direct
  handlers : handlersOf i = directTicks op ++ [operandStage f (deliverByte b)]
  execute : ∀ c, opcodeOf c.IR = some op → executeStage c = operandStage f fetchByte c

/-- Once T3 of a direct instruction has read the operand byte `b` (40_pipeline.md R92, R94). -/
def afterOperand (op b : Byte) (c : CoreState) : CoreState :=
  { afterDirect op c with AR := c.IP + 1, DR := b, IP := c.IP + 2 }

section OperandTick

variable {op b : Byte} {f : Byte → CoreState → CoreState} {c : CoreState}

theorem operandTick_ok (h : InRange (c.IP + 1)) :
    operandStage f (deliverByte b) (afterDirect op c) = .ok [] (f b (afterOperand op b c)) := by
  rw [operandStage, deliverByte_ok _ (afterDirect op c) h, Res.bind_ok]
  simp only [afterOperand, afterDirect, afterFetch, Int.add_assoc, Int.reduceAdd]

theorem operandTick_raised (h : ¬ InRange (c.IP + 1)) :
    operandStage f (deliverByte b) (afterDirect op c) =
      .raised (.addressOutOfRange (c.IP + 1)) { afterDirect op c with AR := c.IP + 1 } := by
  rw [operandStage, deliverByte_raised _ (afterDirect op c) h, Res.bind_raised]
  rfl

end OperandTick

namespace OneOperand

variable {i : Instr} {op : Opcode} {b : Byte} {f : Byte → CoreState → CoreState} {s : State}

/-- The whole effect of the instruction, and that no event comes of it. -/
theorem effect (hi : OneOperand i op b f) (running : s.Running) (h0 : 0 ≤ s.IP) (h1 : s.IP ≤ 65534) :
    ∃ t, exec i s = .next t ∧ t.toCoreState = f b (afterOperand (opcodeByte op) b s.toCoreState) ∧
      t.programOut = s.programOut ∧ t.Running := by
  have run : coreRun (handlersOf i) s.toCoreState = .ok [] (f b (afterOperand (opcodeByte op) b s.toCoreState)) := by
    rw [hi.handlers, coreRun_directTicks (by omega), coreRun_cons_silent (operandTick_ok (by omega)), coreRun]
  simpa using exec_running hi.notBrk hi.notSys running run

/-- The three cores its ticks leave. -/
theorem traces (hi : OneOperand i op b f) (h : FetchesBytes s [opcodeByte op, b]) :
    Traces s [afterFetch (opcodeByte op) s.toCoreState, afterDirect (opcodeByte op) s.toCoreState,
      f b (afterOperand (opcodeByte op) b s.toCoreState)] := by
  have hr : InRange (s.IP + 1) := inRange_of_streamFrom h.atIP (k := 1) (by simp)
  obtain ⟨-, hbytes⟩ := bytesAt_of_fetchesBytes h
  have last : operandStage f fetchByte (afterDirect (opcodeByte op) s.toCoreState) =
      .ok [] (f b (afterOperand (opcodeByte op) b s.toCoreState)) := by
    rw [← operandTick_ok hr, operandStage, operandStage, fetchByte_eq_of_bytesAt hbytes]
  exact traces_direct hi.direct h (.cons_cons
    (stageTick_execute rfl h.running.noHalt (hi.execute _ (opcodeOf_opcodeByte op)) last) (.singleton _))

/-- Its fault, where the operand byte would lie past the last cell. -/
theorem fault (hi : OneOperand i op b f) (running : s.Running) (h : s.IP = 65535) :
    ∃ t, exec i s = .fault (.addressOutOfRange 65536 t) ∧
      t.toCoreState = { afterDirect (opcodeByte op) s.toCoreState with AR := 65536 } ∧ t.IP = 65536 := by
  have hip : s.IP + 1 = 65536 := by omega
  have run : coreRun (handlersOf i) s.toCoreState =
      .raised (.addressOutOfRange 65536) { afterDirect (opcodeByte op) s.toCoreState with AR := 65536 } := by
    rw [hi.handlers, coreRun_directTicks (by omega), coreRun_cons_raised (operandTick_raised (by omega)), hip]
  obtain ⟨t, ht, hcore, -⟩ := exec_running_raised hi.notBrk hi.notSys running run
  exact ⟨t, ht, hcore, by rw [hcore]; exact hip⟩

end OneOperand

theorem ldaImm_oneOperand (imm : Byte) :
    OneOperand (.ldaImm imm) .ldaImm imm fun v c => { c with A := v, STEP := .fetch } where
  notBrk := nofun
  notSys := nofun
  direct := rfl
  handlers := rfl
  execute c h := by simp only [executeStage, h, ldaImmStage, operandStage]

theorem ldxImm_oneOperand (imm : Byte) :
    OneOperand (.ldxImm imm) .ldxImm imm fun v c => { c with X := v, STEP := .fetch } where
  notBrk := nofun
  notSys := nofun
  direct := rfl
  handlers := rfl
  execute c h := by simp only [executeStage, h, ldxImmStage, operandStage]

theorem ldyImm_oneOperand (imm : Byte) :
    OneOperand (.ldyImm imm) .ldyImm imm fun v c => { c with Y := v, STEP := .fetch } where
  notBrk := nofun
  notSys := nofun
  direct := rfl
  handlers := rfl
  execute c h := by simp only [executeStage, h, ldyImmStage, operandStage]

/-! ## Absolute instructions -/

section Absolute

variable {i : Instr} {op : Opcode} {a : Addr} {ks : List Handler} {s : State}

/-- The effect of an absolute instruction is what its handlers after DECODE leave of DECODE's core. -/
theorem exec_absolute (hbrk : i ≠ .brk) (hsys : i ≠ .sys) (hi : handlersOf i = absoluteTicks op a ++ ks)
    (running : s.Running) (ht : s.STASH = none) (h0 : 0 ≤ s.IP) (h1 : s.IP ≤ 65533) {c : CoreState}
    (h : coreRun ks (afterHigh (opcodeByte op) a s.toCoreState) = .ok [] c) :
    ∃ t, exec i s = .next t ∧ t.toCoreState = c ∧ t.programOut = s.programOut ∧ t.Running := by
  have run : coreRun (handlersOf i) s.toCoreState = .ok [] c := by
    rw [hi, coreRun_absoluteTicks ht (by omega) (by omega) (by omega), h]
  simpa using exec_running hbrk hsys running run

/-- The two faults of an absolute instruction (60_exceptions.md R151). -/
theorem absoluteFaults (hbrk : i ≠ .brk) (hsys : i ≠ .sys) (hi : handlersOf i = absoluteTicks op a ++ ks)
    (running : s.Running) (ht : s.STASH = none) : AbsoluteFaults i (opcodeByte op) a s := by
  refine ⟨fun hip => ?_, fun hip => ?_⟩
  · have run := coreRun_absoluteTicks_high_raised (op := op) (a := a) (hs := ks) ht (by omega) (by omega) (by omega)
    rw [← hi, show s.IP + 2 = 65536 by omega] at run
    exact exec_running_raised hbrk hsys running run
  · have run := coreRun_absoluteTicks_low_raised (op := op) (a := a) (hs := ks) ht (by omega) (by omega)
    rw [← hi, show s.IP + 1 = 65536 by omega] at run
    exact exec_running_raised hbrk hsys running run

end Absolute

/-! ### The ticks after DECODE -/

theorem twoTickStage_first {first second : Handler} {c : CoreState} (h : c.SUB = 0) :
    twoTickStage first second c = first c := if_pos h

theorem twoTickStage_second {first second : Handler} {c : CoreState} (h : c.SUB = 1) :
    twoTickStage first second c = second c := by
  rw [twoTickStage, if_neg (by simp [h]), if_pos h]

theorem stageTick_writeback {c c' : CoreState} {es : List Event} (hs : c.STEP = .writeback) (hhalt : c.HALT = false)
    (ho : opcodeOf c.IR = some .staAbs ∨ opcodeOf c.IR = some .incAbs) (hh : writeStage c = .ok es c') :
    StageTick c c' := by
  refine ⟨by simp [hs], hhalt, es, ?_⟩
  rw [← hh]
  rcases ho with ho | ho <;> simp only [stageHandler, hs, writebackStage, ho]

/-- After T4 of an absolute instruction that reads its cell twice (41_load_store.md R113, 42_arithmetic_compare.md R121,
R122). -/
def afterFirstRead (op : Byte) (a : Addr) (c : CoreState) : CoreState :=
  { afterHigh op a c with DR := c.M.read a.toNat, SUB := 1 }

section DecodedTicks

variable {op : Byte} {a : Addr} {c : CoreState}

theorem tuReadByte_afterHigh : tuReadByte (afterHigh op a c) =
    .ok (c.M.read a.toNat) { afterHigh op a c with DR := c.M.read a.toNat } :=
  tuReadByte_ok (afterHigh op a c) (addrWord_inRange a)

theorem tuReadByte_afterFirstRead : tuReadByte (afterFirstRead op a c) =
    .ok (c.M.read a.toNat) (afterFirstRead op a c) :=
  tuReadByte_ok (afterFirstRead op a c) (addrWord_inRange a)

theorem firstReadStage_afterHigh : firstReadStage (afterHigh op a c) = .ok [] (afterFirstRead op a c) := by
  rw [firstReadStage, tuReadByte_afterHigh, Res.bind_ok, afterFirstRead]

theorem ldaAbs_firstTick : ldaAbsStage (afterHigh op a c) = .ok [] (afterFirstRead op a c) :=
  (twoTickStage_first rfl).trans firstReadStage_afterHigh

theorem ldaAbs_secondTick (ht : c.STASH = none) : ldaAbsStage (afterFirstRead op a c) = .ok [] { c with
    A := c.M.read a.toNat, IP := c.IP + 3, IR := op, AR := addrWord a, DR := c.M.read a.toNat, SUB := 0,
    STEP := .fetch } := by
  rw [ldaAbsStage, twoTickStage_second rfl, tuReadByte_afterFirstRead, Res.bind_ok, ht]
  rfl

theorem staAbs_firstTick : staAbsStage (afterHigh op a c) = .ok [] { afterHigh op a c with STAGED := c.A, SUB := 1 } :=
  twoTickStage_first rfl

theorem staAbs_secondTick : staAbsStage { afterHigh op a c with STAGED := c.A, SUB := 1 } =
    .ok [] { afterHigh op a c with STAGED := c.A, STEP := .writeback } :=
  twoTickStage_second rfl

theorem staAbs_writeTick (ht : c.STASH = none) :
    writeStage { afterHigh op a c with STAGED := c.A, STEP := .writeback } = .ok [] { c with
      M := c.M.write a.toNat c.A, IP := c.IP + 3, IR := op, AR := addrWord a, DR := c.A, STAGED := c.A, SUB := 0,
      STEP := .fetch } := by
  rw [writeStage, tuWriteByte_ok _ (addrWord_inRange a), Res.bind_ok, ht]
  rfl

end DecodedTicks

end Sys2Proof.Machine
end

section
/-! The statements of 41_load_store.md, settled. -/

namespace Sys2Proof.Proofs

open Sys2Proof.Machine Sys2Proof.Claims

/-- Settles O41: the parts of the frame that the instruction does not blank. -/
theorem nonStoringInstructionsFrame : Obligations.NonStoringInstructionsFrame := by
  intro s t i hsta hinc h
  have frame := exec_keeps_frame h
  refine ⟨fun a => ?cells, ?staged, fun hlda hlda' hadc => ?a, fun hldx => ?x, fun hldy => ?y, fun hcpx => ?cf,
    fun hbrk => ?halt, fun hsys => ?sip⟩
  case cells => rw [← frameOf_M hsta hinc t.toCoreState, frame, frameOf_M hsta hinc]
  case staged => rw [← frameOf_STAGED hsta hinc t.toCoreState, frame, frameOf_STAGED hsta hinc]
  case a => rw [← frameOf_A hlda hlda' hadc t.toCoreState, frame, frameOf_A hlda hlda' hadc]
  case x => rw [← frameOf_X hldx t.toCoreState, frame, frameOf_X hldx]
  case y => rw [← frameOf_Y hldy t.toCoreState, frame, frameOf_Y hldy]
  case cf => rw [← frameOf_CF hcpx t.toCoreState, frame, frameOf_CF hcpx]
  case halt => exact exec_keeps_halt hbrk h
  case sip => rw [← frameOf_SIP hsys t.toCoreState, frame, frameOf_SIP hsys]

/-- Settles O42: the frame, and the address that DECODE left for the write. -/
theorem storingInstructionsFrame : Obligations.StoringInstructionsFrame := by
  intro s t addr i hi h
  have frame := exec_keeps_frame h
  have field {α : Type} (f : CoreState → α) : f (frameOf i t.toCoreState) = f (frameOf i s.toCoreState) :=
    congrArg f frame
  rcases hi with rfl | rfl
  · exact ⟨field CoreState.A, field CoreState.X, field CoreState.Y, field CoreState.CF, field CoreState.HALT,
      field CoreState.SIP, storing_sparesOtherCells staAbsStage_keepsCells h⟩
  · exact ⟨field CoreState.A, field CoreState.X, field CoreState.Y, field CoreState.CF, field CoreState.HALT,
      field CoreState.SIP, storing_sparesOtherCells incAbsStage_keepsCells h⟩

/-- Settles O44, as one of the instructions with one operand byte. -/
theorem ldaImmLoadsTheConstant : Obligations.LdaImmLoadsTheConstant := by
  intro imm s
  have hi := ldaImm_oneOperand imm
  refine ⟨rfl, hi.effect, hi.traces, fun running h => ?_⟩
  obtain ⟨t, ht, hcore, hip⟩ := hi.fault running h
  exact ⟨t, ht, hcore, by rw [hcore]; rfl, hip⟩

/-- Settles O45, as one of the instructions with one operand byte. -/
theorem ldxImmLoadsTheConstant : Obligations.LdxImmLoadsTheConstant := by
  intro imm s
  have hi := ldxImm_oneOperand imm
  refine ⟨rfl, hi.effect, hi.traces, fun running h => ?_⟩
  obtain ⟨t, ht, hcore, hip⟩ := hi.fault running h
  exact ⟨t, ht, hcore, by rw [hcore]; rfl, hip⟩

/-- Settles O46, as one of the instructions with one operand byte. -/
theorem ldyImmLoadsTheConstant : Obligations.LdyImmLoadsTheConstant := by
  intro imm s
  have hi := ldyImm_oneOperand imm
  refine ⟨rfl, hi.effect, hi.traces, fun running h => ?_⟩
  obtain ⟨t, ht, hcore, hip⟩ := hi.fault running h
  exact ⟨t, ht, hcore, by rw [hcore]; rfl, hip⟩

/-- Settles O47: after DECODE, the two reads of the cell. -/
theorem ldaAbsLoadsTheCell : Obligations.LdaAbsLoadsTheCell := by
  have execute : ∀ c, opcodeOf c.IR = some .ldaAbs → executeStage c = ldaAbsStage c :=
    fun c h => by simp only [executeStage, h]
  intro addr s
  refine ⟨rfl, fun running ht h0 h1 => ?effect, fun ht h => ?ticks,
    fun running ht => absoluteFaults (op := .ldaAbs) nofun nofun rfl running ht⟩
  case effect =>
    refine exec_absolute (op := .ldaAbs) (i := .ldaAbs addr) nofun nofun rfl running ht h0 h1 ?_
    exact (coreRun_cons_silent ldaAbs_firstTick).trans (coreRun_cons_silent (ldaAbs_secondTick ht))
  case ticks =>
    have hhalt := h.running.noHalt
    exact traces_absolute rfl ht h (.cons_cons (stageTick_execute rfl hhalt (execute _ rfl) ldaAbs_firstTick)
      (.cons_cons (stageTick_execute rfl hhalt (execute _ rfl) (ldaAbs_secondTick ht)) (.singleton _)))

/-- Settles O48: after DECODE, the accumulator is staged, handed to WRITEBACK and written. -/
theorem staAbsStoresTheAccumulator : Obligations.StaAbsStoresTheAccumulator := by
  have execute : ∀ c, opcodeOf c.IR = some .staAbs → executeStage c = staAbsStage c :=
    fun c h => by simp only [executeStage, h]
  intro addr s
  refine ⟨rfl, fun running ht h0 h1 => ?effect, fun ht h => ?ticks,
    fun running ht => absoluteFaults (op := .staAbs) nofun nofun rfl running ht⟩
  case effect =>
    obtain ⟨t, he, hcore, hout, running'⟩ := exec_absolute (op := .staAbs) (i := .staAbs addr) nofun nofun rfl
      running ht h0 h1 ((coreRun_cons_silent staAbs_firstTick).trans ((coreRun_cons_silent staAbs_secondTick).trans
        (coreRun_cons_silent (staAbs_writeTick ht))))
    refine ⟨t, he, hcore, fun hwf => ?_, hout, running'⟩
    rw [hcore]
    exact Memory.read_write_same _ hwf _ _
  case ticks =>
    have hhalt := h.running.noHalt
    exact traces_absolute rfl ht h (.cons_cons (stageTick_execute rfl hhalt (execute _ rfl) staAbs_firstTick)
      (.cons_cons (stageTick_execute rfl hhalt (execute _ rfl) staAbs_secondTick)
        (.cons_cons (stageTick_writeback rfl hhalt (.inl rfl) (staAbs_writeTick ht)) (.singleton _))))

end Sys2Proof.Proofs
end

section
/-! SUPPORT. The family of 42_arithmetic_compare.md: the byte arithmetic in the terms of the rules, and what the ticks
after DECODE leave of the core. -/

namespace Sys2Proof.Machine

open Sys2Proof.Claims

/-! ## The byte arithmetic -/

theorem addByte_eq_add (a v : Byte) : addByte a v = a + v := (BitVec.add_def a v).symm

theorem incByte_eq_add_one (v : Byte) : incByte v = v + 1#8 := (BitVec.add_def v 1#8).symm

theorem compareFlag_eq_zero_iff (x v : Byte) : compareFlag x v = 0 ↔ x = v := by
  rw [compareFlag, Int.sub_eq_zero, Int.natCast_inj, BitVec.toNat_inj]

/-! ## The ticks after DECODE -/

section DecodedTicks

variable {op : Byte} {a : Addr} {c : CoreState}

theorem adcAbs_tick (ht : c.STASH = none) : adcAbsStage (afterHigh op a c) = .ok [] { c with
    A := c.A + c.M.read a.toNat, IP := c.IP + 3, IR := op, AR := addrWord a, DR := c.M.read a.toNat, SUB := 0,
    STEP := .fetch } := by
  rw [adcAbsStage, tuReadByte_afterHigh, Res.bind_ok, addByte_eq_add, ht]
  rfl

theorem incAbs_firstTick : incAbsStage (afterHigh op a c) = .ok [] (afterFirstRead op a c) :=
  (twoTickStage_first rfl).trans firstReadStage_afterHigh

theorem incAbs_secondTick : incAbsStage (afterFirstRead op a c) = .ok [] { afterHigh op a c with
    DR := c.M.read a.toNat, STAGED := c.M.read a.toNat + 1#8, STEP := .writeback } := by
  rw [incAbsStage, twoTickStage_second rfl, tuReadByte_afterFirstRead, Res.bind_ok, incByte_eq_add_one]
  rfl

theorem incAbs_writeTick (ht : c.STASH = none) :
    writeStage { afterHigh op a c with
      DR := c.M.read a.toNat, STAGED := c.M.read a.toNat + 1#8, STEP := .writeback } = .ok [] { c with
        M := c.M.write a.toNat (c.M.read a.toNat + 1#8), IP := c.IP + 3, IR := op, AR := addrWord a,
        DR := c.M.read a.toNat + 1#8, STAGED := c.M.read a.toNat + 1#8, SUB := 0, STEP := .fetch } := by
  rw [writeStage, tuWriteByte_ok _ (addrWord_inRange a), Res.bind_ok, ht]
  rfl

theorem cpxAbs_firstTick : cpxAbsStage (afterHigh op a c) = .ok [] (afterFirstRead op a c) :=
  (twoTickStage_first rfl).trans firstReadStage_afterHigh

theorem cpxAbs_secondTick (ht : c.STASH = none) : cpxAbsStage (afterFirstRead op a c) = .ok [] { c with
    CF := compareFlag c.X (c.M.read a.toNat), IP := c.IP + 3, IR := op, AR := addrWord a, DR := c.M.read a.toNat,
    SUB := 0, STEP := .fetch } := by
  rw [cpxAbsStage, twoTickStage_second rfl, tuReadByte_afterFirstRead, Res.bind_ok, ht]
  rfl

end DecodedTicks

end Sys2Proof.Machine
end

section
/-! The statements of 42_arithmetic_compare.md, settled. -/

namespace Sys2Proof.Proofs

open Sys2Proof.Machine Sys2Proof.Claims

/-- Settles O49: after DECODE, one read of the cell, whose value is added. -/
theorem adcAbsAddsWithoutCarry : Obligations.AdcAbsAddsWithoutCarry := by
  have execute : ∀ c, opcodeOf c.IR = some .adcAbs → executeStage c = adcAbsStage c :=
    fun c h => by simp only [executeStage, h]
  intro addr s
  refine ⟨rfl, fun running ht h0 h1 => ?effect, fun ht h => ?ticks,
    fun running ht => absoluteFaults (op := .adcAbs) nofun nofun rfl running ht⟩
  case effect =>
    obtain ⟨t, he, hcore, hout, running'⟩ := exec_absolute (op := .adcAbs) (i := .adcAbs addr) nofun nofun rfl
      running ht h0 h1 (coreRun_cons_silent (adcAbs_tick ht))
    refine ⟨t, he, hcore, ?_, hout, running'⟩
    rw [hcore]
    exact BitVec.toNat_add _ _
  case ticks =>
    exact traces_absolute rfl ht h (.cons_cons
      (stageTick_execute rfl h.running.noHalt (execute _ rfl) (adcAbs_tick ht)) (.singleton _))

/-- Settles O50: after DECODE, the two reads of the cell, of which the second stages the new value, and the write. -/
theorem incAbsIncrementsTheCell : Obligations.IncAbsIncrementsTheCell := by
  have execute : ∀ c, opcodeOf c.IR = some .incAbs → executeStage c = incAbsStage c :=
    fun c h => by simp only [executeStage, h]
  intro addr s
  refine ⟨rfl, fun running ht h0 h1 => ?effect, fun ht h => ?ticks,
    fun running ht => absoluteFaults (op := .incAbs) nofun nofun rfl running ht⟩
  case effect =>
    obtain ⟨t, he, hcore, hout, running'⟩ := exec_absolute (op := .incAbs) (i := .incAbs addr) nofun nofun rfl
      running ht h0 h1 ((coreRun_cons_silent incAbs_firstTick).trans ((coreRun_cons_silent incAbs_secondTick).trans
        (coreRun_cons_silent (incAbs_writeTick ht))))
    refine ⟨t, he, hcore, fun hwf => ?_, hout, running'⟩
    rw [hcore, Memory.read_write_same _ hwf]
    exact BitVec.toNat_add _ _
  case ticks =>
    have hhalt := h.running.noHalt
    exact traces_absolute rfl ht h (.cons_cons (stageTick_execute rfl hhalt (execute _ rfl) incAbs_firstTick)
      (.cons_cons (stageTick_execute rfl hhalt (execute _ rfl) incAbs_secondTick)
        (.cons_cons (stageTick_writeback rfl hhalt (.inr rfl) (incAbs_writeTick ht)) (.singleton _))))

/-- Settles O51: after DECODE, the two reads of the cell, of which the second sets the flag. -/
theorem cpxAbsSetsTheSignedDifference : Obligations.CpxAbsSetsTheSignedDifference := by
  have execute : ∀ c, opcodeOf c.IR = some .cpxAbs → executeStage c = cpxAbsStage c :=
    fun c h => by simp only [executeStage, h]
  intro addr s
  refine ⟨rfl, fun running ht h0 h1 => ?effect, fun ht h => ?ticks,
    fun running ht => absoluteFaults (op := .cpxAbs) nofun nofun rfl running ht⟩
  case effect =>
    obtain ⟨t, he, hcore, hout, running'⟩ := exec_absolute (op := .cpxAbs) (i := .cpxAbs addr) nofun nofun rfl
      running ht h0 h1 ((coreRun_cons_silent cpxAbs_firstTick).trans (coreRun_cons_silent (cpxAbs_secondTick ht)))
    have hflag : t.CF = compareFlag s.X (s.M.read addr.toNat) := by rw [hcore]
    obtain ⟨lower, upper⟩ := compareFlag_bounds s.X (s.M.read addr.toNat)
    exact ⟨t, he, hcore, hflag ▸ lower, hflag ▸ upper, hflag ▸ compareFlag_eq_zero_iff _ _, hout, running'⟩
  case ticks =>
    have hhalt := h.running.noHalt
    exact traces_absolute rfl ht h (.cons_cons (stageTick_execute rfl hhalt (execute _ rfl) cpxAbs_firstTick)
      (.cons_cons (stageTick_execute rfl hhalt (execute _ rfl) (cpxAbs_secondTick ht)) (.singleton _)))

end Sys2Proof.Proofs
end

section
/-! SUPPORT. The family of 43_control.md: FETCH outside the store, instructions that end in DECODE, the branch of BNE and
the halt of BRK. -/

namespace Sys2Proof.Machine

open Sys2Proof.Claims

/-! ## FETCH outside the store -/

/-- A step of a running machine at FETCH faults where the instruction pointer has left the store (60_exceptions.md
R151). -/
theorem step_fetch_raised {s : State} (running : s.Running) (hs : s.STEP = .fetch) (hr : ¬ InRange s.IP) :
    ∃ t, step s = .fault (.addressOutOfRange s.IP t) ∧ t.toCoreState = { s.toCoreState with AR := s.IP } ∧
      t.FAULT = some (.addressOutOfRange s.IP) := by
  have stage : stageHandler s.toCoreState = .raised (.addressOutOfRange s.IP) { s.toCoreState with AR := s.IP } := by
    simp only [stageHandler, hs, fetchStage, fetchByte_raised _ hr, Res.bind_raised]
  obtain ⟨t, ht, hcore, -, hfault⟩ := tickAround_running_raised stageHandler s running _ _ stage
  refine ⟨t, ?_, hcore, hfault⟩
  rw [step_eq_finishInstr s running.noFault, finishInstr_eq_tick, tick_eq s (by simp [hs]), ht,
    TickResult.andThen_raised, TickResult.toOutcome_raised, FaultReason.toFault]

/-! ## Instructions that end in DECODE -/

section OneByte

variable {i : Instr} {op : Byte} {last : Handler} {s : State} {es : List Event} {c : CoreState}

/-- The effect of an instruction of one byte without EXECUTE is what its DECODE leaves of FETCH's core. -/
theorem exec_oneByte (hbrk : i ≠ .brk) (hsys : i ≠ .sys) (hi : handlersOf i = [fetchTick op, last])
    (running : s.Running) (hr : InRange s.IP) (hlast : last (afterFetch op s.toCoreState) = .ok es c) :
    ∃ t, exec i s = .next t ∧ t.toCoreState = c ∧ t.programOut = s.programOut ++ es.filter Event.ofProgram ∧
      t.Running := by
  refine exec_running hbrk hsys running ?_
  rw [hi, coreRun_cons_silent (fetchTick_ok hr), coreRun, hlast, Res.bind_ok, coreRun, Res.bind_ok, List.append_nil]

/-- The two cores its ticks leave. -/
theorem traces_oneByte (h : FetchesBytes s [op]) (hd : decodeStage (afterFetch op s.toCoreState) = .ok es c) :
    Traces s [afterFetch op s.toCoreState, c] := by
  refine traces_of_isChain h.running (.cons_cons (stageTick_fetch h) (.cons_cons ?_ (.singleton _)))
  exact ⟨by simp [afterFetch], h.running.noHalt, es, hd⟩

end OneByte

theorem decodeStage_unrecognized {c : CoreState} (h : opcodeOf c.IR = none) : decodeStage c = unrecognizedStage c := by
  simp only [decodeStage, decodeClass, h]

/-! ## The branch of BNE -/

/-- Move the instruction pointer by the displacement if the flag says so, and end the instruction (43_control.md R130). -/
def branchBy (off : Byte) (c : CoreState) : CoreState :=
  { c with IP := if branchTaken c.CF then c.IP + sext8 off else c.IP, STEP := .fetch }

theorem bneRel_oneOperand (rel : Byte) : OneOperand (.bneRel rel) .bneRel rel branchBy where
  notBrk := nofun
  notSys := nofun
  direct := rfl
  handlers := rfl
  execute c h := by simp only [executeStage, h, bneRelStage, operandStage, branchBy]

theorem branchTaken_eq_true_iff (cf : Int) : branchTaken cf = true ↔ cf ≠ 0 := bne_iff_ne

theorem branchBy_afterOperand (op b : Byte) (c : CoreState) :
    branchBy b (afterOperand op b c) = { c with
      IP := if c.CF ≠ 0 then c.IP + 2 + sext8 b else c.IP + 2, IR := op, AR := c.IP + 1, DR := b, SUB := 0,
      STEP := .fetch } := by
  simp only [branchBy, branchTaken_eq_true_iff, afterOperand, afterDirect, afterFetch]

/-! ## The halt of BRK -/

/-- A handler list of which only the last may halt the processor. -/
theorem coreRunsOn_concat_of_keepsHalt {hs : List Handler} {k : Handler} {c : CoreState} (hk : ∀ h ∈ hs, KeepsHalt h)
    (hc : c.HALT = false) : coreRunsOn (hs ++ [k]) c := by
  induction hs generalizing c with
  | nil =>
    rw [List.nil_append, coreRunsOn]
    split
    · exact .inl rfl
    · trivial
  | cons h hs ih =>
    obtain ⟨hh, hhs⟩ := List.forall_mem_cons.1 hk
    rw [List.cons_append, coreRunsOn]
    split
    · rename_i es c' he
      have hc' : c'.HALT = false := (hh c es c' he).trans hc
      exact .inr ⟨hc', ih hhs hc'⟩
    · trivial

/-- After T3 of BRK (43_control.md R132). -/
def afterBrk (c : CoreState) : CoreState := { afterDirect 0x00#8 c with HALT := true, STEP := .halted }

theorem coreRun_brk {c : CoreState} (h : InRange c.IP) :
    coreRun (handlersOf .brk) c = .ok [.haltDump c.M] (afterBrk c) :=
  coreRun_directTicks (op := .brk) h

/-- In a running machine BRK halts, dumps memory, and stops the clock in its last tick. -/
theorem exec_brk_running {s : State} (running : s.Running) (h : InRange s.IP) :
    ∃ t, exec .brk s = .next t ∧ t.toCoreState = afterBrk s.toCoreState ∧
      t.programOut = s.programOut ++ [.haltDump s.M] ∧ t.FAULT = none ∧ t.ARMED = false := by
  obtain ⟨t, ht, hcore, hout, hfault, -, harm⟩ := runStages_running (handlersOf .brk) s running _ _
    (handlersOf_ne_nil _) (coreRunsOn_concat_of_keepsHalt (directTicks_keepHalt .brk) running.noHalt) (coreRun_brk h)
  exact ⟨t, by rw [exec_eq_runStages (by decide), ht, TickResult.toOutcome_ran], hcore, hout, hfault, harm⟩

end Sys2Proof.Machine
end

section
/-! The statements of 43_control.md, settled. -/

namespace Sys2Proof.Proofs

open Sys2Proof.Machine Sys2Proof.Claims

/-- Settles O52, as one of the instructions with one operand byte; a target outside the store is met by the next FETCH. -/
theorem bneRelBranchesOnNonZeroFlag : Obligations.BneRelBranchesOnNonZeroFlag := by
  intro rel s target htarget
  have hi := bneRel_oneOperand rel
  have hcore : branchBy rel (afterOperand 0xD0#8 rel s.toCoreState) = { s.toCoreState with
      IP := target, IR := 0xD0#8, AR := s.IP + 1, DR := rel, SUB := 0, STEP := .fetch } := by
    rw [branchBy_afterOperand, htarget]
    rfl
  refine ⟨rfl, fun running h0 h1 => ?effect, fun h => hcore ▸ hi.traces h, fun running h => ?fault⟩
  case effect =>
    obtain ⟨t, ht, htc, hout, running'⟩ := hi.effect running h0 h1
    replace htc := htc.trans hcore
    refine ⟨t, ht, htc, hout, running', fun houtside => ?_⟩
    obtain rfl : t.IP = target := congrArg CoreState.IP htc
    obtain ⟨u, hu, -⟩ := step_fetch_raised running' (congrArg CoreState.STEP htc) houtside
    exact ⟨u, hu⟩
  case fault =>
    obtain ⟨t, ht, htc, -⟩ := hi.fault running h
    exact ⟨t, ht, htc⟩

/-- Settles O53: DECODE ends the instruction. -/
theorem nopOnlyAdvances : Obligations.NopOnlyAdvances := by
  refine fun s => ⟨rfl, fun running hr => ?effect, fun h => traces_oneByte h rfl⟩
  case effect =>
    obtain ⟨t, ht, hcore, hout, running'⟩ := exec_oneByte (i := .nop) nofun nofun rfl running hr rfl
    exact ⟨t, ht, hcore, hout.trans (List.append_nil _), running'⟩

/-- Settles O54: EXECUTE halts the processor, and the halt check of the same tick stops the clock. -/
theorem brkHaltsAndStopsTheClock : Obligations.BrkHaltsAndStopsTheClock := by
  refine fun s => ⟨rfl, fun running hr => ?effect, fun h => ?ticks⟩
  case effect =>
    obtain ⟨t, ht, hcore, hout, hfault, harm⟩ := exec_brk_running running hr
    exact ⟨t, ht, hcore, hout, harm, congrArg CoreState.STEP hcore, congrArg CoreState.HALT hcore, hfault⟩
  case ticks =>
    have last : StageTick (afterDirect 0x00#8 s.toCoreState) (afterBrk s.toCoreState) :=
      stageTick_execute (h := brkStage) rfl h.running.noHalt rfl rfl
    exact traces_direct rfl h (.cons_cons last (.singleton _))

/-- Settles O55: DECODE logs the byte and ends the instruction. -/
theorem unrecognizedOpcodeIsALoggedNop : Obligations.UnrecognizedOpcodeIsALoggedNop := by
  refine fun op s hop => ⟨rfl, fun running hr => ?effect, fun h => ?ticks⟩
  case effect => exact exec_oneByte (i := .unrecognized op) nofun nofun rfl running hr rfl
  case ticks => exact traces_oneByte h (decodeStage_unrecognized hop)

end Sys2Proof.Proofs
end

section
/-! SUPPORT. The family of 44_system.md: the ticks of SYS up to EXECUTE, its modes of one tick, and the walk along the
string of mode 2. -/

namespace Sys2Proof.Machine

open Sys2Proof.Claims

/-! ## A stream byte by byte -/

theorem streamFrom_eq_cons_iff {m : Memory} {n : Nat} {a : Int} {b : Byte} {bs : List Byte} :
    streamFrom m (n + 1) a = b :: bs ↔ InRange a ∧ m.read a.toNat = b ∧ streamFrom m n (a + 1) = bs := by
  by_cases hr : InRange a
  · rw [streamFrom, if_pos hr, List.cons.injEq, and_iff_right hr]
  · rw [streamFrom, if_neg hr]
    exact ⟨nofun, fun h => absurd h.1 hr⟩

theorem streamFrom_eq_append_iff {m : Memory} {n : Nat} {a : Int} {bs rest : List Byte} :
    streamFrom m (bs.length + n) a = bs ++ rest ↔
      streamFrom m bs.length a = bs ∧ streamFrom m n (a + bs.length) = rest := by
  induction bs generalizing a with
  | nil => simp [streamFrom]
  | cons b bs ih =>
    rw [List.length_cons, Nat.succ_add, List.cons_append, streamFrom_eq_cons_iff, streamFrom_eq_cons_iff, ih,
      Nat.cast_succ, Int.add_assoc a 1, Int.add_comm 1]
    simp only [and_assoc]

/-! ## An instruction's ticks counted by its trace -/

/-- An instruction whose trace meets a boundary at its end only has taken one tick for each core of the trace. -/
theorem ticks_of_traces {cs : List CoreState} {c : CoreState} {s t : State} (h : Traces s (cs ++ [c]))
    (inside : ∀ d ∈ cs, ¬ AtBoundary d) (last : AtBoundary c) (ht : (finishInstr s).toOutcome = .next t) :
    ticks (cs.length + 1) s = .ran t := by
  induction cs generalizing s with
  | nil =>
    obtain ⟨u, hu, rfl, -⟩ := h
    rw [finishInstr_eq_tick, hu, TickResult.andThen_ran, resume_of_atBoundary last] at ht
    obtain rfl := Host.Outcome.next.inj ht
    rw [List.length_nil, ticks, hu, TickResult.andThen_ran, ticks]
  | cons d cs ih =>
    obtain ⟨u, hu, rfl, rest⟩ := h
    obtain ⟨hd, inside⟩ := List.forall_mem_cons.1 inside
    rw [finishInstr_eq_tick, hu, TickResult.andThen_ran, resume_of_not_atBoundary hd] at ht
    rw [List.length_cons, ticks, hu, TickResult.andThen_ran, ih rest inside ht]

/-! ## The ticks of SYS -/

/-- After FETCH and DECODE of SYS in a running machine, the rest of its meaning is the machine's own ticks. -/
theorem exec_sys_running {s : State} (running : s.Running) (hr : InRange s.IP) :
    ∃ u, exec .sys s = (finishInstr u).toOutcome ∧ u.toCoreState = afterDirect 0xFF#8 s.toCoreState ∧
      u.programOut = s.programOut ∧ u.Running := by
  have hk := directTicks_keepHalt .sys
  obtain ⟨u, hu, hcore, hout, hfault, hstop, harm⟩ := runStages_running (directTicks .sys) s running _ _
    (List.cons_ne_nil _ _) (coreRunsOn_of_keepsHalt hk running.noHalt) (coreRun_directTicks (hs := []) hr)
  have hhalt : u.HALT = false := by rw [hcore]; exact running.noHalt
  refine ⟨u, ?_, hcore, hout.trans (List.append_nil _), by rw [harm, ← hcore, hhalt]; rfl, hfault, hhalt, hstop⟩
  rw [exec, execSys, hu, TickResult.andThen_ran, runToBoundary_sysStage _ u (by rw [hcore]; rfl) (by rw [hcore]; rfl),
    finishInstr]

section Execute

variable {s : State} {c : CoreState}

theorem executeStage_sys (ho : opcodeOf c.IR = some .sys) : executeStage c = sysStage c := by
  simp only [executeStage, ho]

theorem tick_sys (hs : s.STEP = .execute) (ho : opcodeOf s.IR = some .sys) :
    tick s = tickAround (pulseWith sysStage) s :=
  tickAround_processorPulse_eq s sysStage (by simp [hs]) ((stageHandler_execute hs).trans (executeStage_sys ho))

/-- A tick of SYS in EXECUTE that does not fault; the machine runs on. -/
theorem finishInstr_sys_ok (running : s.Running) (hs : s.STEP = .execute) (ho : opcodeOf s.IR = some .sys)
    {es : List Event} (hh : sysStage s.toCoreState = .ok es c) :
    ∃ t, finishInstr s = resume t ∧ t.toCoreState = c ∧ t.programOut = s.programOut ++ es.filter Event.ofProgram ∧
      t.Running := by
  have hhalt : c.HALT = false := (sysStage_keepsHalt _ es c hh).trans running.noHalt
  obtain ⟨t, ht, post⟩ := tickAround_runs_on sysStage s running es c hh hhalt
  exact ⟨t, by rw [finishInstr_eq_tick, tick_sys hs ho, ht, TickResult.andThen_ran], post⟩

/-- A tick of SYS in EXECUTE that faults. -/
theorem finishInstr_sys_raised (running : s.Running) (hs : s.STEP = .execute) (ho : opcodeOf s.IR = some .sys)
    {r : FaultReason} (hh : sysStage s.toCoreState = .raised r c) :
    ∃ t, finishInstr s = .raised r t ∧ t.toCoreState = c ∧ t.programOut = s.programOut := by
  obtain ⟨t, ht, hcore, hout, -⟩ := tickAround_running_raised sysStage s running r c hh
  exact ⟨t, by rw [finishInstr_eq_tick, tick_sys hs ho, ht, TickResult.andThen_raised], hcore, hout⟩

end Execute

/-! ## The modes of one EXECUTE tick -/

theorem sysStage_mode1 {c : CoreState} (hs : c.SUB = 0) (hx : c.X = 1#8) : sysStage c = sysPrintStage c :=
  (twoTickStage_first hs).trans (if_pos hx)

theorem sysStage_mode2 {c : CoreState} (hs : c.SUB = 0) (hx : c.X = 2#8) : sysStage c = sysStringStartStage c := by
  rw [sysStage, twoTickStage_first hs, if_neg (by simp [hx]), if_pos hx]

theorem sysStage_otherMode {c : CoreState} (hs : c.SUB = 0) (h1 : c.X ≠ 1#8) (h2 : c.X ≠ 2#8) :
    sysStage c = sysOtherStage c := by
  rw [sysStage, twoTickStage_first hs, if_neg h1, if_neg h2]

section OneTick

variable {s : State} {es : List Event} {c : CoreState}

/-- The effect of SYS where its first EXECUTE tick ends it. -/
theorem exec_sys_oneTick (running : s.Running) (hr : InRange s.IP)
    (hh : sysStage (afterDirect 0xFF#8 s.toCoreState) = .ok es c) (hb : AtBoundary c) :
    ∃ t, exec .sys s = .next t ∧ t.toCoreState = c ∧ t.programOut = s.programOut ++ es.filter Event.ofProgram ∧
      t.Running := by
  obtain ⟨u, hu, hcore, hout, running⟩ := exec_sys_running running hr
  obtain ⟨t, ht, rfl, hout', running⟩ := finishInstr_sys_ok running (congrArg CoreState.STEP hcore)
    (by rw [hcore]; rfl) (hcore ▸ hh)
  exact ⟨t, by rw [hu, ht, resume_of_atBoundary hb, TickResult.toOutcome_ran], rfl, by rw [hout', hout], running⟩

/-- The trace of SYS up to its first EXECUTE tick, and on. -/
theorem traces_sys (h : FetchesBytes s [0xFF#8]) (hh : sysStage (afterDirect 0xFF#8 s.toCoreState) = .ok es c)
    {cs : List CoreState} (rest : (c :: cs).IsChain StageTick) :
    Traces s (afterFetch 0xFF#8 s.toCoreState :: afterDirect 0xFF#8 s.toCoreState :: c :: cs) :=
  traces_direct rfl h (.cons_cons (stageTick_execute rfl h.running.noHalt (executeStage_sys rfl) hh) rest)

end OneTick

/-! ## The walk along a string -/

/-- The core `d` stands in the walk that SYS mode 2 makes from the core `c`, before the string's `k`-th byte
(44_system.md R141). -/
def InWalk (c : CoreState) (k : Nat) (d : CoreState) : Prop :=
  ∃ ar dr, d = { walkStart c with AR := ar, DR := dr, IP := zext c.Y + k }

theorem inWalk_walkStart (c : CoreState) : InWalk c 0 (walkStart c) :=
  ⟨c.IP, 0xFF#8, by simp [walkStart, afterDirect, afterFetch]⟩

theorem inWalk_walkAfter (k : Nat) (b : Byte) (c : CoreState) : InWalk c (k + 1) (walkAfter k b c) :=
  ⟨zext c.Y + k, b, by rw [walkAfter, Nat.cast_succ, Int.add_assoc]⟩

section Walk

variable {c d : CoreState} {k : Nat}

theorem InWalk.step (h : InWalk c k d) : d.STEP = .execute := by
  obtain ⟨ar, dr, rfl⟩ := h
  rfl

theorem InWalk.opcode (h : InWalk c k d) : opcodeOf d.IR = some .sys := by
  obtain ⟨ar, dr, rfl⟩ := h
  rfl

theorem InWalk.halt (h : InWalk c k d) : d.HALT = c.HALT := by
  obtain ⟨ar, dr, rfl⟩ := h
  rfl

theorem InWalk.not_atBoundary (h : InWalk c k d) : ¬ AtBoundary d := by
  simp [AtBoundary, h.step]

theorem InWalk.stageTick (h : InWalk c k d) (hhalt : c.HALT = false) {es : List Event} {e : CoreState}
    (hh : sysStage d = .ok es e) : StageTick d e :=
  stageTick_execute h.step (h.halt.trans hhalt) (executeStage_sys h.opcode) hh

theorem InWalk.sysStage_char (h : InWalk c k d) (hr : InRange (zext c.Y + k)) {b : Byte}
    (hb : c.M.read (zext c.Y + k).toNat = b) (hb0 : b ≠ 0#8) :
    sysStage d = .ok [.printChar b] (walkAfter k b c) := by
  obtain ⟨ar, dr, rfl⟩ := h
  subst hb
  rw [sysStage, twoTickStage_second rfl, sysStringByteStage, fetchByte_ok _ hr, Res.bind_ok]
  exact if_neg hb0

theorem InWalk.sysStage_terminator (h : InWalk c k d) (hr : InRange (zext c.Y + k))
    (hb : c.M.read (zext c.Y + k).toNat = 0#8) : sysStage d = .ok [] (afterString k c) := by
  obtain ⟨ar, dr, rfl⟩ := h
  rw [sysStage, twoTickStage_second rfl, sysStringByteStage, fetchByte_ok _ hr, Res.bind_ok]
  refine (if_pos hb).trans ?_
  rw [afterString, ← hb]
  rfl

theorem InWalk.sysStage_raised (h : InWalk c k d) (hr : ¬ InRange (zext c.Y + k)) :
    sysStage d = .raised (.addressOutOfRange (zext c.Y + k)) { d with AR := zext c.Y + k } := by
  obtain ⟨ar, dr, rfl⟩ := h
  rw [sysStage, twoTickStage_second rfl, sysStringByteStage, fetchByte_raised _ hr, Res.bind_raised]

/-- A running machine in the walk prints the non-zero bytes that follow and is then past them, still in the walk. -/
theorem finishInstr_walk {s : State} {str : List Byte} (running : s.Running) (h : InWalk c k s.toCoreState)
    (hb : streamFrom c.M str.length (zext c.Y + k) = str) (hb0 : ∀ b ∈ str, b ≠ 0#8) :
    ∃ u, finishInstr s = finishInstr u ∧ InWalk c (k + str.length) u.toCoreState ∧
      u.programOut = s.programOut ++ str.map Event.printChar ∧ u.Running := by
  induction str generalizing s k with
  | nil => exact ⟨s, rfl, h, (List.append_nil _).symm, running⟩
  | cons b bs ih =>
    obtain ⟨hr, hread, hb⟩ := streamFrom_eq_cons_iff.1 hb
    obtain ⟨hb1, hb0⟩ := List.forall_mem_cons.1 hb0
    obtain ⟨t, ht, hcore, hout, running⟩ := finishInstr_sys_ok running h.step h.opcode (h.sysStage_char hr hread hb1)
    have hw : InWalk c (k + 1) t.toCoreState := hcore ▸ inWalk_walkAfter k b c
    rw [Int.add_assoc, ← Nat.cast_succ] at hb
    obtain ⟨u, hu, hw', hout', running⟩ := ih running hw hb hb0
    rw [Nat.add_assoc, Nat.add_comm 1] at hw'
    exact ⟨u, by rw [ht, resume_of_not_atBoundary hw.not_atBoundary, hu], hw',
      by rw [hout', hout]; exact List.append_assoc _ _ _, running⟩

/-- The stages of the walk from any core in it to the terminator. -/
theorem isChain_walk {str : List Byte} (h : InWalk c k d) (hhalt : c.HALT = false)
    (hb : streamFrom c.M (str.length + 1) (zext c.Y + k) = str ++ [0#8]) (hb0 : ∀ b ∈ str, b ≠ 0#8) :
    (d :: ((str.zipIdx k).map (fun p => walkAfter p.2 p.1 c) ++ [afterString (k + str.length) c])).IsChain
      StageTick := by
  induction str generalizing d k with
  | nil =>
    obtain ⟨hr, hread, -⟩ := streamFrom_eq_cons_iff.1 hb
    exact .cons_cons (h.stageTick hhalt (h.sysStage_terminator hr hread)) (.singleton _)
  | cons b bs ih =>
    obtain ⟨hr, hread, hb⟩ := streamFrom_eq_cons_iff.1 hb
    obtain ⟨hb1, hb0⟩ := List.forall_mem_cons.1 hb0
    rw [Int.add_assoc, ← Nat.cast_succ] at hb
    have rest := ih (inWalk_walkAfter k b c) hb hb0
    rw [Nat.add_assoc, Nat.add_comm 1] at rest
    exact .cons_cons (h.stageTick hhalt (h.sysStage_char hr hread hb1)) rest

end Walk

section Mode2

variable {s : State} {str : List Byte}

theorem sysStage_afterDirect_mode2 {c : CoreState} (hx : c.X = 2#8) :
    sysStage (afterDirect 0xFF#8 c) = .ok [] (walkStart c) :=
  sysStage_mode2 rfl hx

/-- SYS mode 2 in a running machine prints the non-zero bytes at `Y` and then stands in its walk past them. -/
theorem exec_sys_walk (hx : s.X = 2#8) (running : s.Running) (hr : InRange s.IP)
    (hb : streamFrom s.M str.length (zext s.Y) = str) (hb0 : ∀ b ∈ str, b ≠ 0#8) :
    ∃ u, exec .sys s = (finishInstr u).toOutcome ∧ InWalk s.toCoreState str.length u.toCoreState ∧
      u.programOut = s.programOut ++ str.map Event.printChar ∧ u.Running := by
  obtain ⟨u, hu, hcore, hout, running⟩ := exec_sys_running running hr
  obtain ⟨v, hv, hcore', hout', running⟩ := finishInstr_sys_ok running (congrArg CoreState.STEP hcore)
    (by rw [hcore]; rfl) (hcore ▸ sysStage_afterDirect_mode2 hx)
  have hw : InWalk s.toCoreState 0 v.toCoreState := hcore' ▸ inWalk_walkStart _
  obtain ⟨w, hw', walk, hout'', running⟩ := finishInstr_walk running hw (by simpa using hb) hb0
  exact ⟨w, by rw [hu, hv, resume_of_not_atBoundary hw.not_atBoundary, hw'], by simpa using walk,
    by rw [hout'', hout', hout]; simp, running⟩

/-- The terminator ends SYS mode 2. -/
theorem exec_sys_string (hx : s.X = 2#8) (running : s.Running) (hr : InRange s.IP)
    (hb : streamFrom s.M (str.length + 1) (zext s.Y) = str ++ [0#8]) (hb0 : ∀ b ∈ str, b ≠ 0#8) :
    ∃ t, exec .sys s = .next t ∧ t.toCoreState = afterString str.length s.toCoreState ∧
      t.programOut = s.programOut ++ str.map Event.printChar ∧ t.Running := by
  obtain ⟨hstr, hend⟩ := streamFrom_eq_append_iff.1 hb
  obtain ⟨hr', hread, -⟩ := streamFrom_eq_cons_iff.1 hend
  obtain ⟨u, hu, walk, hout, running⟩ := exec_sys_walk hx running hr hstr hb0
  obtain ⟨t, ht, hcore, hout', running⟩ := finishInstr_sys_ok running walk.step walk.opcode
    (walk.sysStage_terminator hr' hread)
  refine ⟨t, ?_, hcore, by rw [hout', hout]; simp, running⟩
  rw [hu, ht, resume_of_atBoundary (.inl (congrArg CoreState.STEP hcore)), TickResult.toOutcome_ran]

/-- The cores that the ticks of SYS mode 2 leave. -/
theorem traces_sys_string (hx : s.X = 2#8) (h : FetchesBytes s [0xFF#8])
    (hb : streamFrom s.M (str.length + 1) (zext s.Y) = str ++ [0#8]) (hb0 : ∀ b ∈ str, b ≠ 0#8) :
    Traces s ([afterFetch 0xFF#8 s.toCoreState, afterDirect 0xFF#8 s.toCoreState, walkStart s.toCoreState] ++
      str.zipIdx.map (fun p => walkAfter p.2 p.1 s.toCoreState) ++ [afterString str.length s.toCoreState]) := by
  have chain := isChain_walk (inWalk_walkStart s.toCoreState) h.running.noHalt (by simpa using hb) hb0
  rw [Nat.zero_add] at chain
  exact traces_sys h (sysStage_afterDirect_mode2 hx) chain

/-- SYS mode 2 takes four ticks and one for each byte of the string. -/
theorem ticks_sys_string (hx : s.X = 2#8) (h : FetchesBytes s [0xFF#8])
    (hb : streamFrom s.M (str.length + 1) (zext s.Y) = str ++ [0#8]) (hb0 : ∀ b ∈ str, b ≠ 0#8) {t : State}
    (ht : exec .sys s = .next t) : ticks (str.length + 4) s = .ran t := by
  rw [exec_eq_finishInstr (i := .sys) (by decide) s h.atFetch (bytesAt_of_fetchesBytes h)] at ht
  have count := ticks_of_traces (traces_sys_string hx h hb hb0) ?inside (.inl rfl) ht
  case inside =>
    intro d hd
    rcases List.mem_append.1 hd with hd | hd
    · simp only [List.mem_cons, List.not_mem_nil, or_false] at hd
      rcases hd with rfl | rfl | rfl
      · simp [AtBoundary, afterFetch]
      · simp [AtBoundary, afterDirect]
      · exact (inWalk_walkStart _).not_atBoundary
    · obtain ⟨p, -, rfl⟩ := List.mem_map.1 hd
      exact (inWalk_walkAfter _ _ _).not_atBoundary
  simpa using count

/-- A string without a terminator faults past the last cell. -/
theorem exec_sys_unterminated (hx : s.X = 2#8) (running : s.Running) (hr : InRange s.IP)
    (hend : zext s.Y + str.length = 65536) (hb : streamFrom s.M str.length (zext s.Y) = str)
    (hb0 : ∀ b ∈ str, b ≠ 0#8) :
    ∃ t, exec .sys s = .fault (.addressOutOfRange 65536 t) ∧
      (∃ dr, t.toCoreState = { walkStart s.toCoreState with AR := 65536, DR := dr, IP := 65536 }) ∧
      t.programOut = s.programOut ++ str.map Event.printChar := by
  obtain ⟨u, hu, walk, hout, running⟩ := exec_sys_walk hx running hr hb hb0
  have stage := walk.sysStage_raised (by omega)
  obtain ⟨t, ht, hcore, hout'⟩ := finishInstr_sys_raised running walk.step walk.opcode stage
  obtain ⟨ar, dr, hwalk⟩ := walk
  rw [hend] at ht hcore hwalk
  exact ⟨t, by rw [hu, ht, TickResult.toOutcome_raised, FaultReason.toFault], ⟨dr, by rw [hcore, hwalk]⟩,
    hout'.trans hout⟩

end Mode2

end Sys2Proof.Machine
end

section
/-! The statements of 44_system.md, settled. -/

namespace Sys2Proof.Proofs

open Sys2Proof.Machine Sys2Proof.Claims

/-- Settles O56: the first EXECUTE tick prints and ends the instruction. -/
theorem sysModeOnePrintsY : Obligations.SysModeOnePrintsY := by
  intro s hx
  have stage := sysStage_mode1 (c := afterDirect 0xFF#8 s.toCoreState) rfl hx
  exact ⟨fun running hr => exec_sys_oneTick running hr stage (.inl rfl), fun h => traces_sys h stage (.singleton _)⟩

/-- Settles O57: the first EXECUTE tick ends the instruction and nothing else. -/
theorem sysOtherModesDoNothing : Obligations.SysOtherModesDoNothing := by
  intro s h1 h2
  have stage := sysStage_otherMode (c := afterDirect 0xFF#8 s.toCoreState) rfl h1 h2
  refine ⟨fun running hr => ?effect, fun h => traces_sys h stage (.singleton _)⟩
  case effect =>
    obtain ⟨t, ht, hcore, hout, running⟩ := exec_sys_oneTick running hr stage (.inl rfl)
    exact ⟨t, ht, hcore, hout.trans (List.append_nil _), running⟩

/-- Settles O58: the walk prints byte by byte until it meets the terminator or the end of the store. -/
theorem sysModeTwoPrintsTheString : Obligations.SysModeTwoPrintsTheString := by
  refine fun s str hx hb0 => ⟨fun running hr hb => ?string, fun running hr hend hb => ?unterminated⟩
  case string =>
    obtain ⟨t, ht, hcore, hout, running⟩ := exec_sys_string hx running hr hb hb0
    exact ⟨t, ht, hcore, hout, running,
      fun h => ⟨ticks_sys_string hx h hb hb0 ht, traces_sys_string hx h hb hb0⟩⟩
  case unterminated =>
    obtain ⟨t, ht, ⟨dr, hcore⟩, hout⟩ := exec_sys_unterminated hx running hr hend hb hb0
    exact ⟨t, ht, congrArg CoreState.IP hcore, congrArg CoreState.AR hcore, congrArg CoreState.SIP hcore,
      congrArg CoreState.SUB hcore, congrArg CoreState.STEP hcore, hout⟩

end Sys2Proof.Proofs
end

section
/-! SUPPORT. The family of 60_exceptions.md: two running machines with one core, a machine that a stop has paused, what
the controller chooses, and a tick in which the environment makes no move. -/

namespace Sys2Proof.Machine

/-! ## What the core decides of a tick -/

/-- A tick of the machine that runs: its core is the stage handler's. -/
theorem tick_ran {s t : State} (h : tick s = .ran t) :
    ∃ es, stageHandler s.toCoreState = .ok es t.toCoreState ∧ t.FAULT = none := by
  by_cases hs : s.STEP = .halted
  · obtain ⟨-, -, hf, -⟩ := tick_move s t h
    refine ⟨[], ?_, hf⟩
    rcases tick_halted hs with he | he <;> rw [he] at h
    · obtain rfl := TickResult.ran.inj h
      simp only [stageHandler, hs, afterProcessor_toCoreState, beforeTick_toCoreState]
    · cases h
  · rw [tick_eq s hs] at h
    obtain ⟨es, hh, hf, -⟩ := tickAround_pulseWith_ran stageHandler s t h
    exact ⟨es, hh, hf⟩

/-- Only BRK writes the halt flag, and it ends its instruction as it does. -/
theorem StageMove.halt_cases {c c' : CoreState} {es : List Event} (mv : StageMove c es c') :
    c'.HALT = c.HALT ∨ AtBoundary c' := by
  cases mv
  case brk => exact .inr (.inr rfl)
  all_goals exact .inl rfl

/-- The clock of a running machine does not keep a tick from happening. -/
theorem State.Running.tick_ne_paused {s : State} (running : s.Running) (t : State) : tick s ≠ .paused t := by
  intro h
  obtain ⟨rfl, ha | hf⟩ := tickAround_paused _ s t h
  · rw [(beforeTick_of_noStop s running.noStop running.armed).1] at ha
    cases ha
  · exact hf running.noFault

/-- A running machine's tick runs where the stage handler ends well; inside the instruction the machine runs on. -/
theorem State.Running.tick_ok {s : State} (running : s.Running) {es : List Event} {c : CoreState}
    (hh : stageHandler s.toCoreState = .ok es c) :
    ∃ t, tick s = .ran t ∧ t.toCoreState = c ∧ t.programOut = s.programOut ++ es.filter Event.ofProgram ∧
      (¬ AtBoundary c → t.Running) := by
  by_cases hs : s.STEP = .halted
  · simp only [stageHandler, hs] at hh
    obtain ⟨rfl, rfl⟩ := Res.ok.inj hh
    have ht := (tick_halted hs).resolve_right (running.tick_ne_paused _)
    exact ⟨_, ht, by simp, by simp [State.programOut], fun hb => absurd (.inr hs) hb⟩
  · obtain ⟨t, ht, rfl, hout, hfault, hstop, harm⟩ := tickAround_running stageHandler s running es c hh
    refine ⟨t, (tick_eq s hs).trans ht, rfl, hout, fun hb => ?_⟩
    have hhalt : t.HALT = false := ((stageHandler_move _ _ _ hh).halt_cases.resolve_right hb).trans running.noHalt
    exact ⟨by rw [harm, hhalt]; rfl, hfault, hhalt, hstop⟩

/-- A running machine's tick raises what the stage handler raises. -/
theorem State.Running.tick_raised {s : State} (running : s.Running) {r : FaultReason} {c : CoreState}
    (hh : stageHandler s.toCoreState = .raised r c) :
    ∃ t, tick s = .raised r t ∧ t.toCoreState = c ∧ t.FAULT = some r := by
  have hs : s.STEP ≠ .halted := fun hs => by simp only [stageHandler, hs] at hh; cases hh
  obtain ⟨t, ht, hcore, -, hfault⟩ := tickAround_running_raised stageHandler s running r c hh
  exact ⟨t, (tick_eq s hs).trans ht, hcore, hfault⟩

/-! ## Two running machines with the same core -/

/-- What two machines, one from `s` and one from `u`, end with: the same core and the same program events, or the same
fault with the same core (60_exceptions.md R173). -/
inductive EndsAlike (s u : State) : TickResult → TickResult → Prop where
  | ran {t v : State} (es : List Event) (core : v.toCoreState = t.toCoreState)
      (out : t.programOut = s.programOut ++ es) (out' : v.programOut = u.programOut ++ es) :
      EndsAlike s u (.ran t) (.ran v)
  | raised {t v : State} (r : FaultReason) (core : v.toCoreState = t.toCoreState) :
      EndsAlike s u (.raised r t) (.raised r v)

/-- Ends that are alike after ticks with the same program events are alike from before them. -/
theorem EndsAlike.after {s u s' u' : State} {x y : TickResult} {es : List Event} (h : EndsAlike s' u' x y)
    (hs : s'.programOut = s.programOut ++ es) (hu : u'.programOut = u.programOut ++ es) : EndsAlike s u x y := by
  cases h with
  | ran es' core out out' =>
    exact .ran (es ++ es') core (by rw [out, hs, List.append_assoc]) (by rw [out', hu, List.append_assoc])
  | raised r core => exact .raised r core

theorem EndsAlike.of_next {s u t : State} {x y : TickResult} (h : EndsAlike s u x y) (hx : x.toOutcome = .next t) :
    ∃ v es, y.toOutcome = .next v ∧ v.toCoreState = t.toCoreState ∧ t.programOut = s.programOut ++ es ∧
      v.programOut = u.programOut ++ es := by
  cases h with
  | ran es core out out' =>
    obtain rfl := Host.Outcome.next.inj hx
    exact ⟨_, es, rfl, core, out, out'⟩
  | raised r core => cases hx

theorem FaultReason.toFault_inj {r r' : FaultReason} {s s' : State} (h : r.toFault s = r'.toFault s') :
    r = r' ∧ s = s' := by
  cases r <;> cases r' <;> cases h <;> exact ⟨rfl, rfl⟩

theorem EndsAlike.of_fault {s u t : State} {x y : TickResult} (h : EndsAlike s u x y) (r : FaultReason)
    (hx : x.toOutcome = .fault (r.toFault t)) :
    ∃ v, y.toOutcome = .fault (r.toFault v) ∧ v.toCoreState = t.toCoreState := by
  cases h with
  | ran es core out out' => cases hx
  | raised r' core =>
    obtain ⟨rfl, rfl⟩ := FaultReason.toFault_inj (Host.Outcome.fault.inj hx)
    exact ⟨_, rfl, core⟩

/-- Tick by tick, what a running machine does to its core and what it prints is the stage handler's, which sees the core
alone. -/
theorem runToBoundary_endsAlike (n : Nat) {s u : State} (hs : s.Running) (hu : u.Running)
    (hcore : s.toCoreState = u.toCoreState) :
    EndsAlike s u (runToBoundary processorPulse n s) (runToBoundary processorPulse n u) := by
  induction n generalizing s u with
  | zero => exact .ran [] hcore.symm (by simp) (by simp)
  | succ n ih =>
    change EndsAlike s u ((tick s).andThen _) ((tick u).andThen _)
    cases hh : stageHandler s.toCoreState with
    | raised r c =>
      obtain ⟨t, ht, rfl, -⟩ := hs.tick_raised hh
      obtain ⟨v, hv, hcore', -⟩ := hu.tick_raised (hcore ▸ hh)
      rw [ht, hv]
      exact .raised r hcore'
    | ok es c =>
      obtain ⟨t, ht, rfl, hout, ontot⟩ := hs.tick_ok hh
      obtain ⟨v, hv, hcore', hout', ontov⟩ := hu.tick_ok (hcore ▸ hh)
      rw [ht, hv, TickResult.andThen_ran, TickResult.andThen_ran, hcore']
      split
      · exact .ran _ hcore' hout hout'
      · rename_i hb
        exact (ih (ontot hb) (ontov hb) hcore'.symm).after hout hout'

theorem finishInstr_endsAlike {s u : State} (hs : s.Running) (hu : u.Running) (hcore : s.toCoreState = u.toCoreState) :
    EndsAlike s u (finishInstr s) (finishInstr u) :=
  runToBoundary_endsAlike _ hs hu hcore

/-! ## A machine that a stop has paused -/

/-- A running machine passes through the core in which a machine with the same core is paused. -/
theorem finishInstr_reaches_paused (n : Nat) {s t u : State} (running : u.Running)
    (hcore : s.toCoreState = u.toCoreState) (hf : s.FAULT = none)
    (h : runToBoundary processorPulse n s = .paused t) :
    ∃ u', finishInstr u = finishInstr u' ∧ u'.toCoreState = t.toCoreState ∧ u'.Running ∧ t.FAULT = none := by
  induction n generalizing s u with
  | zero => cases h
  | succ n ih =>
    change (tick s).andThen _ = _ at h
    cases hk : tick s with
    | raised r s1 => rw [hk] at h; cases h
    | paused s1 =>
      rw [hk] at h
      obtain rfl := TickResult.paused.inj h
      obtain ⟨rfl, -⟩ := tickAround_paused _ s _ hk
      exact ⟨u, rfl, by rw [beforeTick_toCoreState, hcore], running, by rw [beforeTick_FAULT, hf]⟩
    | ran s1 =>
      rw [hk, TickResult.andThen_ran] at h
      split at h
      · cases h
      · rename_i hb
        obtain ⟨es, hh, hf1⟩ := tick_ran hk
        obtain ⟨u1, hu1, hcore1, -, onto⟩ := running.tick_ok (hcore ▸ hh)
        obtain ⟨u', hu', rest⟩ := ih (onto hb) hcore1.symm hf1 h
        refine ⟨u', ?_, rest⟩
        rw [finishInstr_eq_tick, hu1, TickResult.andThen_ran, resume_of_not_atBoundary (hcore1 ▸ hb), hu']

/-- A step that answers next inside an instruction is a paused machine. -/
theorem step_paused {s t : State} (h : step s = .next t) (hb : ¬ AtBoundary t.toCoreState) :
    finishInstr s = .paused t :=
  (step_eq_next h).2.resolve_left fun hran => hb (runToBoundary_atBoundary _ s t (ticksLeft_le_fuel _) hran)

/-! ## FETCH outside the store -/

/-- Every instruction's meaning starts with the FETCH of its opcode byte (40_pipeline.md R91). -/
theorem exec_starts_with_fetchTick (i : Instr) (s : State) :
    ∃ f, exec i s = ((tickAround (pulseWith (fetchTick i.opByte)) s).andThen f).toOutcome := by
  cases i with
  | sys => exact ⟨_, congrArg TickResult.toOutcome (TickResult.andThen_assoc _ _ _)⟩
  | _ => exact ⟨_, rfl⟩

theorem stageHandler_fetch_raised {c : CoreState} (hs : c.STEP = .fetch) (hr : ¬ InRange c.IP) :
    stageHandler c = .raised (.addressOutOfRange c.IP) { c with AR := c.IP } := by
  rw [stageHandler_fetch (bs := []) hs ⟨rfl, trivial⟩, fetchTick_raised hr]

/-! ## What the controller chooses -/

/-- The levels are scanned from the highest to the lowest (60_exceptions.md R168). -/
theorem scanOrder_pairwise : scanOrder.Pairwise fun p q => q.level < p.level := by decide

theorem mem_scanOrder (p : Priority) : p ∈ scanOrder := by cases p <;> decide

theorem requestPriority_of_registered {reg : List Source} {n : Nat} (h : n < reg.length) :
    ∃ p, requestPriority reg n = some p :=
  ⟨reg[n].priority, by simp [requestPriority, h]⟩

/-- Of the requests at the scanned levels, falling ones, the scan takes the earliest of the highest level. -/
theorem scanLevels_eq_some {reg : List Source} {buf : List Nat} {levels : List Priority} {n : Nat} {rest : List Nat}
    (falling : levels.Pairwise fun p q => q.level < p.level) (h : scanLevels reg buf levels = some (n, rest)) :
    ∃ pre post p, buf = pre ++ n :: post ∧ rest = pre ++ post ∧ requestPriority reg n = some p ∧
      (∀ m ∈ pre, ∀ q ∈ levels, requestPriority reg m = some q → q.level < p.level) ∧
      (∀ m ∈ post, ∀ q ∈ levels, requestPriority reg m = some q → q.level ≤ p.level) := by
  induction levels with
  | nil => cases h
  | cons l levels ih =>
    obtain ⟨below, falling⟩ := List.pairwise_cons.1 falling
    unfold scanLevels at h
    split at h
    · rename_i found hfound
      obtain rfl := Option.some.inj h
      obtain ⟨pre, post, hbuf, hrest, hn, hpre⟩ := (takeFirst_eq_some _ _ _ _).1 hfound
      refine ⟨pre, post, l, hbuf, hrest, by simpa using hn, fun m hm q hq hmq => ?_, fun m _ q hq _ => ?_⟩
      · have hne : requestPriority reg m ≠ some l := by simpa using hpre m hm
        exact below q ((List.mem_cons.1 hq).resolve_left fun hql => hne (hql ▸ hmq))
      · rcases List.mem_cons.1 hq with rfl | hq
        · exact le_rfl
        · exact (below q hq).le
    · rename_i hnone
      have other : ∀ m ∈ buf, ∀ q ∈ l :: levels, requestPriority reg m = some q → q ∈ levels := by
        intro m hm q hq hmq
        have hne : requestPriority reg m ≠ some l := by simpa using (takeFirst_eq_none _ _).1 hnone m hm
        exact (List.mem_cons.1 hq).resolve_left fun hql => hne (hql ▸ hmq)
      obtain ⟨pre, post, p, rfl, hrest, hn, hpre, hpost⟩ := ih falling h
      exact ⟨pre, post, p, rfl, hrest, hn,
        fun m hm q hq hmq => hpre m hm q (other m (by simp [hm]) q hq hmq) hmq,
        fun m hm q hq hmq => hpost m hm q (other m (by simp [hm]) q hq hmq) hmq⟩

/-- A scan that finds nothing has met no request at its levels. -/
theorem scanLevels_eq_none {reg : List Source} {buf : List Nat} {levels : List Priority}
    (h : scanLevels reg buf levels = none) : ∀ m ∈ buf, ∀ q ∈ levels, requestPriority reg m ≠ some q := by
  induction levels with
  | nil => simp
  | cons l levels ih =>
    unfold scanLevels at h
    split at h
    · cases h
    · rename_i hnone
      intro m hm q hq
      rcases List.mem_cons.1 hq with rfl | hq
      · simpa using (takeFirst_eq_none _ _).1 hnone m hm
      · exact ih h m hm q hq

/-- Where a registered source's request waits, the scan finds one. -/
theorem scanLevels_scanOrder_ne_none {reg : List Source} {buf : List Nat} (registered : ∀ n ∈ buf, n < reg.length)
    (hne : buf ≠ []) : scanLevels reg buf scanOrder ≠ none := by
  intro h
  obtain ⟨m, hm⟩ := List.exists_mem_of_ne_nil buf hne
  obtain ⟨p, hp⟩ := requestPriority_of_registered (registered m hm)
  exact scanLevels_eq_none h m hm p (mem_scanOrder p) hp

theorem controllerPulse_of_scan {s : State} {n : Nat} {rest : List Nat}
    (h : scanLevels s.REG s.BUF scanOrder = some (n, rest)) :
    controllerPulse s = { s with BUF := rest, PEND := some n } := by
  rw [controllerPulse, h]
  rfl

/-- The controller's pulse leaves the buffer, or takes one entry out and puts it into the slot. -/
theorem controllerPulse_BUF_cases (s : State) :
    (controllerPulse s).BUF = s.BUF ∨ ∃ pre n post, s.BUF = pre ++ n :: post ∧
      (controllerPulse s).BUF = pre ++ post ∧ (controllerPulse s).PEND = some n := by
  cases hscan : scanLevels s.REG s.BUF scanOrder with
  | none => exact .inl (by rw [controllerPulse, hscan])
  | some found =>
    obtain ⟨n, rest⟩ := found
    obtain ⟨pre, post, hbuf, rfl⟩ := scanLevels_splits _ _ _ _ _ hscan
    exact .inr ⟨pre, n, post, hbuf, by rw [controllerPulse_of_scan hscan], by rw [controllerPulse_of_scan hscan]⟩

/-! ## The interrupt check -/

theorem interruptCheck_drains {s : State} {n : Nat} {src : Source} {b : Byte} {q : List Byte} (hp : s.PEND = some n)
    (hn : s.REG[n]? = some src) (hq : src.queue = b :: q) :
    interruptCheck s =
      { s with PEND := none, REG := s.REG.set n { src with queue := q }, OUT := s.OUT ++ [.irqServiced n b] } := by
  simp only [interruptCheck, hp, hn, hq]
  rfl

theorem interruptCheck_of_noPayload {s : State} {n : Nat} {src : Source} (hp : s.PEND = some n)
    (hn : s.REG[n]? = some src) (hq : src.queue = []) : interruptCheck s = s := by
  simp only [interruptCheck, hp, hn, hq]

/-! ## A tick in which the environment makes no move -/

theorem afterProcessor_of_env_nil {s : State} (h : s.ENV = []) : afterProcessor s = clockCheck (controllerPulse s) := by
  rw [afterProcessor, boundary_of_env_nil s h, storePulse_eq, boundary_of_env_nil s h,
    boundary_of_env_nil _ ((controllerPulse_ENV s).trans h)]

/-- A processor pulse that does not fault: nothing in HALTED, the stage and the interrupt check elsewhere. -/
theorem processorPulse_eq_done {s s' : State} (h : processorPulse s = .done s') :
    (s.STEP = .halted ∧ s' = s) ∨
      (s.STEP ≠ .halted ∧ ∃ es c, s' = interruptCheck (emitAll es { s with toCoreState := c })) := by
  by_cases hs : s.STEP = .halted
  · rw [processorPulse_halted hs] at h
    exact .inl ⟨hs, (Pulse.done.inj h).symm⟩
  · rw [processorPulse_eq s hs] at h
    exact .inr ⟨hs, pulseWith_eq_done h⟩

theorem processorPulse_done_ENV {s s' : State} (h : processorPulse s = .done s') : s'.ENV = s.ENV := by
  rcases processorPulse_eq_done h with ⟨-, rfl⟩ | ⟨-, es, c, rfl⟩
  · rfl
  · rw [interruptCheck_ENV, emitAll_ENV]

theorem processorPulse_done_BUF {s s' : State} (h : processorPulse s = .done s') : s'.BUF = s.BUF := by
  rcases processorPulse_eq_done h with ⟨-, rfl⟩ | ⟨-, es, c, rfl⟩
  · rfl
  · rw [interruptCheck_BUF, emitAll_BUF]

/-- With the slot empty the processor's pulse takes nothing from any source. -/
theorem processorPulse_done_REG {s s' : State} (hp : s.PEND = none) (h : processorPulse s = .done s') :
    s'.REG = s.REG := by
  rcases processorPulse_eq_done h with ⟨-, rfl⟩ | ⟨-, es, c, rfl⟩
  · rfl
  · rw [interruptCheck_of_noPend _ (by exact hp), emitAll_REG]

/-- A tick without a move that runs is the processor's pulse, the controller's and the halt check. -/
theorem tick_of_env_nil {s t : State} (he : s.ENV = []) (h : tick s = .ran t) :
    ∃ s', processorPulse s = .done s' ∧ t = clockCheck (controllerPulse s') := by
  unfold tick at h
  rcases tickAround_cases processorPulse s with ⟨s', -, -, hp, hran⟩ | ⟨r, s', -, -, -, hraised⟩ | ⟨-, hpaused⟩
  · rw [hran] at h
    obtain rfl := TickResult.ran.inj h
    rw [beforeTick_of_env_nil s he] at hp
    exact ⟨s', hp, afterProcessor_of_env_nil ((processorPulse_done_ENV hp).trans he)⟩
  · rw [hraised] at h; cases h
  · rw [hpaused] at h; cases h

/-- From an empty slot, the request that the scan chooses is pending after the tick, its source as it was. -/
theorem tick_delivers {s t : State} {n : Nat} {rest : List Nat} (he : s.ENV = []) (hp : s.PEND = none)
    (hscan : scanLevels s.REG s.BUF scanOrder = some (n, rest)) (h : tick s = .ran t) :
    t.PEND = some n ∧ t.BUF = rest ∧ t.REG = s.REG ∧ t.ENV = [] := by
  obtain ⟨s', hpulse, rfl⟩ := tick_of_env_nil he h
  have hreg := processorPulse_done_REG hp hpulse
  rw [← hreg, ← processorPulse_done_BUF hpulse] at hscan
  rw [controllerPulse_of_scan hscan]
  refine ⟨clockCheck_PEND _, clockCheck_BUF _, (clockCheck_REG _).trans hreg, ?_⟩
  rw [clockCheck_ENV]
  exact (processorPulse_done_ENV hpulse).trans he

/-- A request pending before a tick outside HALTED is serviced in it, if its source has a byte queued. -/
theorem tick_services {s t : State} {n : Nat} {src : Source} {b : Byte} {q : List Byte} (he : s.ENV = [])
    (hp : s.PEND = some n) (hn : s.REG[n]? = some src) (hq : src.queue = b :: q) (hs : s.STEP ≠ .halted)
    (h : tick s = .ran t) :
    t.REG[n]? = some { src with queue := q } ∧ ∃ es, t.OUT = s.OUT ++ es ++ [.irqServiced n b] := by
  obtain ⟨s', hpulse, rfl⟩ := tick_of_env_nil he h
  rcases processorPulse_eq_done hpulse with ⟨hhalted, -⟩ | ⟨-, es, c, rfl⟩
  · exact absurd hhalted hs
  · rw [interruptCheck_drains (by exact hp) (by exact hn) hq]
    refine ⟨?_, es, ?_⟩
    · obtain ⟨hlt, -⟩ := List.getElem?_eq_some_iff.1 hn
      rw [clockCheck_REG, controllerPulse_REG]
      exact List.getElem?_set_self hlt
    · rw [clockCheck_OUT, controllerPulse_OUT]
      rfl

/-! ## FAULT is sticky -/

theorem tick_of_fault {s : State} {r : FaultReason} (h : s.FAULT = some r) : tick s = .paused (beforeTick s) := by
  refine if_neg fun hc => ?_
  rw [beforeTick_FAULT, h] at hc
  exact nomatch hc.2

theorem step_of_fault {s : State} {r : FaultReason} (h : s.FAULT = some r) : step s = .fault (r.toFault s) := by
  simp only [step, h]

end Sys2Proof.Machine
end

section
/-! The statements of 60_exceptions.md, settled. -/

namespace Sys2Proof.Proofs

open Sys2Proof.Machine

/-- Settles O20: a step is the run of its ticks, and ticks of running machines with one core end alike. -/
theorem interruptsLeaveTheCoreAlone : Obligations.InterruptsLeaveTheCoreAlone := by
  intro s u hs hu hcore
  rw [step_eq_finishInstr s hs.noFault, step_eq_finishInstr u hu.noFault]
  have alike := finishInstr_endsAlike hs hu hcore
  exact ⟨fun _ => alike.of_next, fun a _ => alike.of_fault (.addressOutOfRange a),
    fun _ => alike.of_fault .protocolMisuse⟩

/-- Settles O40: the machine without the stop passes through the paused core; from there it and the machine that is
armed again are two running machines with one core. -/
theorem pausedInstructionResumes : Obligations.PausedInstructionResumes := by
  intro s t u running hcore hf h hb
  obtain ⟨u', hu', hcore', running', hft⟩ := finishInstr_reaches_paused _ running hcore hf (step_paused h hb)
  have resumed : State.Running { t with ARMED := true, ENV := [] } :=
    ⟨rfl, hft, (congrArg CoreState.HALT hcore').symm.trans running'.noHalt, nofun⟩
  rw [step_eq_finishInstr u running.noFault, hu', step_eq_finishInstr _ resumed.noFault]
  have alike := finishInstr_endsAlike running' resumed hcore'
  refine ⟨fun v hv => ?_, fun a _ => alike.of_fault (.addressOutOfRange a), fun _ => alike.of_fault .protocolMisuse⟩
  obtain ⟨w, -, hw, hcorew, -⟩ := alike.of_next hv
  exact ⟨w, hw, hcorew⟩

/-- Settles O14: the scan finds a request, as every waiting one has a priority, and the levels fall along it. -/
theorem controllerDeliversEarliestHighest : Obligations.ControllerDeliversEarliestHighest := by
  refine fun s registered => ⟨controllerPulse_of_noBuf, fun hne => ?_⟩
  obtain ⟨⟨n, rest⟩, hscan⟩ := Option.ne_none_iff_exists'.1 (scanLevels_scanOrder_ne_none registered hne)
  obtain ⟨pre, post, p, hbuf, rfl, hn, hpre, hpost⟩ := scanLevels_eq_some scanOrder_pairwise hscan
  exact ⟨pre, n, post, p, hbuf, hn, controllerPulse_of_scan hscan, fun m hm q => hpre m hm q (mem_scanOrder q),
    fun m hm q => hpost m hm q (mem_scanOrder q)⟩

/-- Settles O18: of a tick's parts only the controller's pulse touches the buffer. -/
theorem oneDeliveryPerTick : Obligations.OneDeliveryPerTick := by
  intro s t he h
  obtain ⟨s', hpulse, rfl⟩ := tick_of_env_nil he h
  rw [clockCheck_BUF, clockCheck_PEND, ← processorPulse_done_BUF hpulse]
  exact controllerPulse_BUF_cases s'

/-- Settles O19: the first tick delivers, the second services. -/
theorem deliveredRequestIsServicedNextTick : Obligations.DeliveredRequestIsServicedNextTick := by
  intro s t u n rest src b q he hp hscan hn hq ht hs hu
  obtain ⟨hpt, hbuf, hreg, het⟩ := tick_delivers he hp hscan ht
  exact ⟨hpt, hbuf, tick_services het hpt (hreg ▸ hn) hq hs hu⟩

/-- Settles O32: the FETCH that each meaning, and each step at FETCH, starts with raises. -/
theorem fetchOutsideTheStoreFaults : Obligations.FetchOutsideTheStoreFaults := by
  refine fun s i running hr => ⟨?meaning, fun hs => ?step⟩
  case meaning =>
    obtain ⟨f, he⟩ := exec_starts_with_fetchTick i s
    obtain ⟨t, ht, hcore, -, hfault⟩ := tickAround_running_raised _ s running _ _ (fetchTick_raised hr)
    exact ⟨t, by rw [he, ht]; rfl, hcore, hfault⟩
  case step =>
    obtain ⟨t, ht, hcore, hfault⟩ := running.tick_raised (stageHandler_fetch_raised hs hr)
    exact ⟨t, by rw [step_eq_finishInstr s running.noFault, finishInstr_eq_tick, ht]; rfl, hcore, hfault⟩

/-- Settles O13: the cases of the slot and of the queue. -/
theorem interruptCheckDrainsOneByte : Obligations.InterruptCheckDrainsOneByte :=
  fun s => ⟨fun _ _ _ _ => interruptCheck_drains, interruptCheck_of_noPend s, fun _ _ => interruptCheck_of_noPayload⟩

/-- Settles O15: the registry's look-up tells registered numbers from others. -/
theorem sourcesRegisterSubmitEnqueue : Obligations.SourcesRegisterSubmitEnqueue := by
  refine fun s name p n b =>
    ⟨rfl, fun h => if_pos h, fun src h => ?registered, fun h => ⟨if_neg h.not_gt, ?unregistered⟩⟩
  case registered => simp only [enqueuePayload, h]
  case unregistered => simp only [enqueuePayload, List.getElem?_eq_none h]

/-- Settles O16: the two cases of `ARMED`. -/
theorem clockStartsOnceAndStops : Obligations.ClockStartsOnceAndStops :=
  fun _ => ⟨fun h => if_neg (by simp [h]), fun h => if_pos h, rfl⟩

/-- Settles O17: in HALTED the processor's pulse is empty, and the halt check stops the clock. -/
theorem haltedTickDeliversAndStops : Obligations.HaltedTickDeliversAndStops := by
  intro s hs hhalt harm hf he
  rw [tick, tickAround, beforeTick_of_env_nil s he, if_pos ⟨harm, hf⟩, processorPulse_halted hs]
  change TickResult.ran (afterProcessor s) = _
  rw [afterProcessor_of_env_nil he]
  exact congrArg TickResult.ran (if_pos (by simpa using hhalt))

/-- Settles O31: a tick looks at `FAULT` after the moves before it, which leave it set. -/
theorem faultEndsTheRun : Obligations.FaultEndsTheRun :=
  fun s _ h => ⟨⟨beforeTick s, tick_of_fault h, beforeTick_toCoreState s, beforeTick_OUT s, beforeTick_PEND s,
    (beforeTick_FAULT s).trans h⟩, step_of_fault h⟩

end Sys2Proof.Proofs
end

section
/-! SUPPORT. The family of 70_reset_and_hazards.md: a clock that is not armed, and the boot sequence. -/

namespace Sys2Proof.Machine

/-! ## A clock that is not armed -/

/-- Without an armed clock the tick does not happen (40_pipeline.md R90). -/
theorem tick_of_unarmed {s : State} (h : (beforeTick s).ARMED = false) : tick s = .paused (beforeTick s) := by
  refine if_neg fun hc => ?_
  rw [h] at hc
  exact nomatch hc.1

/-- A step whose first tick does not happen waits. -/
theorem step_of_tick_paused {s t : State} (hf : s.FAULT = none) (h : tick s = .paused t) : step s = .next t := by
  rw [step_eq_finishInstr s hf, finishInstr_eq_tick, h, TickResult.andThen_paused, TickResult.toOutcome_paused]

/-! ## The boot sequence -/

/-- The source that an entry of the wiring list registers, with an empty queue (60_exceptions.md R163). -/
def wiredSource (p : String × Priority) : Source := ⟨p.1, p.2, []⟩

/-- The wiring list goes to the end of the registry in its order, and nothing else changes. -/
theorem registerAll_eq (sources : List (String × Priority)) (s : State) :
    registerAll sources s = { s with REG := s.REG ++ sources.map wiredSource } := by
  induction sources generalizing s with
  | nil => simp [registerAll]
  | cons p rest ih => simp [registerAll, ih, registerSource, wiredSource]

/-- A program that fits, empty or not, stands in its cells; of the rest only the store's registers may differ
(20_memory.md R63). -/
theorem flashProgram_loads {s : State} (bytes : List Nat) (a : Nat) (h : s.ARMED = false)
    (hb : ∀ v ∈ bytes, v ≤ 255) (hfits : a + bytes.length ≤ 65536) :
    ∃ ar dr staged, flashProgram a bytes s = .next { s with
      M := Memory.writeBytes s.M a (bytes.map (BitVec.ofNat 8)), AR := ar, DR := dr, STAGED := staged } := by
  cases bytes with
  | nil => exact ⟨s.AR, s.DR, s.STAGED, flashProgram_ok h hb rfl⟩
  | cons v vs => exact ⟨_, _, _, flashProgram_fits v vs a h hb hfits⟩

/-- Boot leaves the reset state with the sources registered, the program at 0 and the clock armed; besides, only the
store's registers may differ (70_reset_and_hazards.md R196). -/
theorem boot_eq_next (sources : List (String × Priority)) (program : List Nat) (hb : ∀ v ∈ program, v ≤ 255)
    (hfits : program.length ≤ 65536) :
    ∃ ar dr staged, boot sources program = .next { State.reset with
      M := Memory.writeBytes State.reset.M 0 (program.map (BitVec.ofNat 8)), AR := ar, DR := dr, STAGED := staged,
      REG := sources.map wiredSource, ARMED := true } := by
  obtain ⟨ar, dr, staged, hflash⟩ := flashProgram_loads (s := { State.reset with REG := sources.map wiredSource })
    program 0 rfl hb (by omega)
  have hreg : registerAll sources State.reset = { State.reset with REG := sources.map wiredSource } :=
    registerAll_eq sources State.reset
  refine ⟨ar, dr, staged, ?_⟩
  rw [boot, hreg, show Config.entryAddress = ((0 : Nat) : Int) from rfl, hflash]
  rfl

end Sys2Proof.Machine
end

section
/-! The statements of 70_reset_and_hazards.md, settled. -/

namespace Sys2Proof.Proofs

open Sys2Proof.Machine

/-- Settles O28: the wait before the first tick leaves the clock unarmed, so the tick does not happen. -/
theorem unarmedClockFiresNoTick : Obligations.UnarmedClockFiresNoTick := by
  intro s ha hf henv
  have hwait := beforeTick_ARMED_of_noStart s henv ha
  exact ⟨beforeTick s, step_of_tick_paused hf (tick_of_unarmed hwait), beforeTick_toCoreState s, beforeTick_OUT s,
    beforeTick_PEND s, hwait⟩

/-- Settles O60: every register is read off the booted state; its cells are those of the reset memory with the program
written at 0. -/
theorem bootLoadsAndArms : Obligations.BootLoadsAndArms := by
  intro sources program hlen hb
  obtain ⟨ar, dr, staged, hboot⟩ := boot_eq_next sources program hb hlen
  refine ⟨_, hboot, rfl, rfl, rfl, rfl, rfl, rfl, rfl, rfl, rfl, rfl, rfl, rfl, rfl, rfl, rfl, rfl, rfl,
    fun k v hk => ?loaded, fun a ha => ?zero⟩
  case loaded =>
    simpa using Memory.toNat_read_writeBytes State.reset.M Memory.wf_nil 0 program k v hb (by omega) hk
  case zero =>
    exact Memory.read_writeBytes_outside State.reset.M 0 _ a (.inr (by simpa using ha))

end Sys2Proof.Proofs
end
